-- ==== Sys2Proof/Word.lean ====
section
/-! DEFINITION. Word: the fixed widths of the RVL codec core (00_scope.md rules R6, R9), as plain bit vectors.
Bit 0 is the least significant bit of every value. -/

namespace Sys2Proof

/-- R6: `WORD_BITS` = `ARITH_BITS` = 32; the `u32` and `i32` of R9 are the same 32 bits. -/
abbrev Word := BitVec 32

/-- R6: `SAMPLE_BITS` = 16, the `i16` of R9. -/
abbrev Sample := BitVec 16

/-- R6: `NIBBLE_BITS` = 4, the `u4` of R9. -/
abbrev Nibble := BitVec 4

/-- R6: `PAYLOAD_BITS` = 3, the `u3` of R9. -/
abbrev Payload := BitVec 3

/-- One byte of E-space (R51). -/
abbrev Byte := BitVec 8

end Sys2Proof
end

