-- ==== Sys2Proof/Syntax.lean ====
section
/-! DEFINITION. Syntax: one constructor per row of the operation table (30_encoding.md rules R96, R98): nineteen
operations a host issues through CMD, and the two nibble forms of the wire format (rule R81). An operation has
no operand field: operands stand in ARG, NUMPIXELS, OUT_CAP, IN_LEN and the two memories (rule R97). -/

namespace Sys2Proof

/-- The operations of R96 and the nibble forms of R81. -/
inductive Instr where
  /-- `NOP`, op 0x00 (R211). -/
  | nop
  /-- `COMPRESS`, op 0x01 (R180). -/
  | compress
  /-- `DECOMPRESS`, op 0x02 (R200). -/
  | decompress
  /-- `CLRF`, op 0x03 (R212). -/
  | clrf
  /-- `ENCINIT`, op 0x08 (R111). -/
  | encinit
  /-- `EMITNIB`, op 0x09 (R112). -/
  | emitnib
  /-- `FLUSH`, op 0x0A (R113). -/
  | flush
  /-- `DECINIT`, op 0x0C (R115). -/
  | decinit
  /-- `TAKENIB`, op 0x0D (R116). -/
  | takenib
  /-- `ENCVLE`, op 0x10 (R130). -/
  | encvle
  /-- `DECVLE`, op 0x11 (R134). -/
  | decvle
  /-- `ZZENC`, op 0x14 (R151). -/
  | zzenc
  /-- `ZZDEC`, op 0x15 (R152). -/
  | zzdec
  /-- `SCANZ`, op 0x18 (R170). -/
  | scanz
  /-- `SCANNZ`, op 0x19 (R171). -/
  | scannz
  /-- `ENCVAL`, op 0x1A (R172). -/
  | encval
  /-- `WRZ`, op 0x1C (R190). -/
  | wrz
  /-- `NZRUN`, op 0x1D (R191). -/
  | nzrun
  /-- `DECVAL`, op 0x1E (R192). -/
  | decval
  /-- `VLE.CONT`, nibble `1ppp`: payload `p`, more nibbles follow in this unit (R81). -/
  | vleCont (p : Payload)
  /-- `VLE.END`, nibble `0ppp`: payload `p`, the last nibble of its unit (R81). -/
  | vleEnd (p : Payload)
deriving DecidableEq, Repr

/-- An instruction as the block meets it: a command word written to CMD (R97) or a nibble of the wire (R81). -/
inductive Code where
  /-- The 32 bits a host writes to CMD. -/
  | cmd (c : Word)
  /-- One nibble handed to the VLE decoder. -/
  | nib (n : Nibble)
deriving DecidableEq, Repr

end Sys2Proof
end

