-- ==== Sys2Proof/WellFormed.lean ====
section
/-! DEFINITION. WellFormed: which codes are instructions. A command word must have bits 31:5 zero (R97) and an
operation-select code that is not reserved (R99); every nibble is legal (R81). An `Instr` is well-formed by its
type: no constructor has a field that could hold an illegal value. -/

namespace Sys2Proof

/-- R97: bits 31:5 of a command word must be 0. -/
def Code.upperBitsZero : Code → Bool
  | .cmd c => c.extractLsb' 5 27 == 0
  | .nib _ => true

/-- R99: the reserved operation-select codes. -/
def reservedOps : List (BitVec 5) :=
  [0x04, 0x05, 0x06, 0x07, 0x0B, 0x0E, 0x0F, 0x12, 0x13, 0x16, 0x17, 0x1B, 0x1F]

/-- R99: `op` is none of the reserved codes. -/
def Code.opAssigned : Code → Bool
  | .cmd c => !reservedOps.contains (c.extractLsb' 0 5)
  | .nib _ => true

/-- R97, R99, R81: the codes the spec gives a meaning. -/
def Code.wellFormed (x : Code) : Bool := x.upperBitsZero && x.opAssigned

/-- Every `Instr` is well-formed: an operation has no operand field (R97), and a nibble form's payload is 3 bits by
its type, each of whose values is legal (R81). -/
def Instr.wellFormed : Instr → Bool
  | .nop | .compress | .decompress | .clrf | .encinit | .emitnib | .flush | .decinit | .takenib => true
  | .encvle | .decvle | .zzenc | .zzdec | .scanz | .scannz | .encval | .wrz | .nzrun | .decval => true
  | .vleCont _ => true
  | .vleEnd _ => true

end Sys2Proof
end

