-- ==== Sys2Proof/Decode.lean ====
section
/-! DEFINITION. Decode: from a command word or a nibble to an instruction, total, rejecting by name; then the
encoder, written from the same tables (30_encoding.md rules R81, R96, R97, R99), and the host's entry
`decodeTableWord`. -/

namespace Sys2Proof

/-- Why a code is no instruction (R99). -/
inductive DecodeError where
  /-- R97, R99: bits 31:5 of the command word are not all zero. -/
  | upperBitsSet (c : Word)
  /-- R99: a reserved operation-select code. -/
  | reservedOp (op : BitVec 5)
deriving DecidableEq, Repr

/-- R96: the operation a 5-bit code selects; none for the reserved codes of R99. -/
def opOfCode (op : BitVec 5) : Option Instr :=
  match op.toNat with
  | 0x00 => some .nop
  | 0x01 => some .compress
  | 0x02 => some .decompress
  | 0x03 => some .clrf
  | 0x08 => some .encinit
  | 0x09 => some .emitnib
  | 0x0A => some .flush
  | 0x0C => some .decinit
  | 0x0D => some .takenib
  | 0x10 => some .encvle
  | 0x11 => some .decvle
  | 0x14 => some .zzenc
  | 0x15 => some .zzdec
  | 0x18 => some .scanz
  | 0x19 => some .scannz
  | 0x1A => some .encval
  | 0x1C => some .wrz
  | 0x1D => some .nzrun
  | 0x1E => some .decval
  | _ => none

/-- R97, R210: decode a command word; the upper bits are tested first. -/
def decodeCommand (c : Word) : Except DecodeError Instr :=
  if c.extractLsb' 5 27 ≠ 0 then .error (.upperBitsSet c)
  else
    match opOfCode (c.extractLsb' 0 5) with
    | some i => .ok i
    | none => .error (.reservedOp (c.extractLsb' 0 5))

/-- R81: bit 3 of a nibble is its continuation bit, bits 2:0 its payload; every nibble is legal. -/
def decodeNibble (n : Nibble) : Instr :=
  if n.getLsbD 3 then .vleCont (n.extractLsb' 0 3) else .vleEnd (n.extractLsb' 0 3)

/-- Decode either kind of code. -/
def decode : Code → Except DecodeError Instr
  | .cmd c => decodeCommand c
  | .nib n => .ok (decodeNibble n)

/-- R96, R97, R81: the code of each instruction. -/
def encode : Instr → Code
  | .nop => .cmd 0x00
  | .compress => .cmd 0x01
  | .decompress => .cmd 0x02
  | .clrf => .cmd 0x03
  | .encinit => .cmd 0x08
  | .emitnib => .cmd 0x09
  | .flush => .cmd 0x0A
  | .decinit => .cmd 0x0C
  | .takenib => .cmd 0x0D
  | .encvle => .cmd 0x10
  | .decvle => .cmd 0x11
  | .zzenc => .cmd 0x14
  | .zzdec => .cmd 0x15
  | .scanz => .cmd 0x18
  | .scannz => .cmd 0x19
  | .encval => .cmd 0x1A
  | .wrz => .cmd 0x1C
  | .nzrun => .cmd 0x1D
  | .decval => .cmd 0x1E
  | .vleCont p => .nib (1#1 ++ p)
  | .vleEnd p => .nib (0#1 ++ p)

/-- The code an `nbits`-bit table row with bits `w` stands for: a nibble row has 4 bits (8 in whole bytes, the
upper four zero), a command row 32. -/
def codeOfTableWord (nbits w : Nat) : Code :=
  if nbits ≤ 8 then .nib (BitVec.ofNat 4 w) else .cmd (BitVec.ofNat 32 w)

/-- The host's entry: the instruction the decoder reads from a table row's bits. A nibble row with a bit above
bit 3, or a word of more than 32 bits, is no instruction. -/
def decodeTableWord (nbits w : Nat) : Option Instr :=
  if (if nbits ≤ 8 then w < 16 else w < 4294967296) then (decode (codeOfTableWord nbits w)).toOption else none

end Sys2Proof
end

