-- ==== Sys2Proof/Config.lean ====
section
/-! DEFINITION. Config: what an implementation of the RVL codec core fixes (00_scope.md rules R6, R7), the
instance parameter ENDIAN (rule R54), and the FREE VALUES: constants without a body that stand for what the
spec leaves unspecified (after a fault: rules R235, R236; outside S-space: rules R68, R69). Nothing in Lean
can evaluate a free value or prove which value it is, so a claim about one holds whatever it is. -/

namespace Sys2Proof

/-- R54, R7: the byte order of a 32-bit word in the encoded buffer. OPEN in the spec, fixed per block; the
machine's state carries it (log entry 2). -/
inductive Endian where
  /-- `E[a] = w[7:0]`, the default. -/
  | little
  /-- `E[a] = w[31:24]`. -/
  | big
deriving DecidableEq, Repr

namespace Config

/-- R7, decision D6: NUMPIXELS_MAX = 2^30 - 1. -/
def numPixelsMax : Word := 0x3FFFFFFF#32

/-- R7, R138, decision D7: VLE_MAX_NIBBLES. -/
def vleMaxNibbles : Nat := 10

/-- What an unlisted cell of either memory reads as. DESIGN CHOICE (log entry 1), unsafe: the spec leaves the
content of both memories before the host writes them open (R261, U17). -/
def unlistedCell (w : Nat) : BitVec w := 0

/-- R235: register number `reg` of the contexts E and D after a fault taken in step `event` (narrower
registers take the low bits). Free value, log entry 3. -/
opaque afterFaultRegister (event reg : Nat) : Word

/-- R236: the byte of E-space at `offset` after a fault of an operation that writes E-space. Free
value, log entry 4. -/
opaque afterFaultByte (event offset : Nat) : Byte

/-- R236: cell `index` of S-space after a fault of an operation that writes S-space. Free
value, log entry 4. -/
opaque afterFaultSample (event index : Nat) : Sample

/-- What a read of the sample at `index ≥ NUMPIXELS` gives: R50 and R68 define no such cell.
Free value, log entry 5. -/
opaque outsideRead (event index : Nat) : Sample

/-- What a write of `v` at `index ≥ NUMPIXELS` leaves in the cell that held `old`: R50 and R69 define no such
cell. Free value, log entry 6. -/
opaque outsideWrite (event index : Nat) (old v : Sample) : Sample

end Config
end Sys2Proof
end

