-- ==== Sys2Proof/Machine/State.lean ====
section
/-! DEFINITION. State: everything the spec gives one block and the host that drives it (10_state.md rules R20 to
R48, 20_memory.md rules R50, R51), as plain data; the reasons a step can stop; and the state after reset. -/

namespace Sys2Proof.Machine

/-- A memory: a list of (address, cell) pairs in one canonical form (`Memory.wf`). `Memory 8` is a list of
`Host.Cell`. -/
abbrev Memory (w : Nat) := List (Nat × BitVec w)

/-- R21 to R25: the encoder context E. -/
structure EncCtx where
  /-- R21: the word accumulator. -/
  word : Word
  /-- R22: the number of pending nibbles, 4 bits (decision D5). -/
  cnt : BitVec 4
  /-- R23: words written to E-space since `ENCINIT`. -/
  wp : Word
  /-- R24: the previous-value cursor. -/
  prev : Sample
  /-- R25: the sample read cursor. -/
  si : Word
deriving DecidableEq, Repr

/-- R27 to R32: the decoder context D. -/
structure DecCtx where
  /-- R27: the current word of the unpacker. -/
  word : Word
  /-- R28: nibbles of `word` not yet returned, 4 bits. -/
  cnt : BitVec 4
  /-- R29: words read from E-space since `DECINIT`. -/
  rp : Word
  /-- R30: the previous-value cursor. -/
  prev : Sample
  /-- R31: the sample write cursor. -/
  so : Word
  /-- R32: samples not yet accounted for by a decoded run length. -/
  rem : Word
deriving DecidableEq, Repr

/-- R33: the transients of `DECVLE` while a unit is being parsed: its accumulator and group index (0..9). -/
structure VleUnit where
  value : Word
  k : Fin 10
deriving DecidableEq, Repr

/-- What the host (R63's second agent) and the platform do between operations, one action a step. The queue of them
is the MODEL's own: the spec's host is outside the block. -/
inductive HostAction where
  /-- A write of `v` to `IR[n]` (R35); a write to `IR[0]` issues the operation `v` names (R36). -/
  | writeRegister (n : BitVec 3) (v : Word)
  /-- The host puts a sample into S-space (R50, R100). -/
  | putSample (index : Word) (v : Sample)
  /-- The host puts a byte into E-space (R51, R100). -/
  | putByte (offset : Word) (v : Byte)
  /-- The reset event of R260. -/
  | reset
  /-- One nibble handed to the VLE decoder by itself, so that the table's two nibble rows run alone (log entry 7). -/
  | nibble (n : Nibble)
deriving DecidableEq, Repr

/-- One block, its two memories and the host's pending actions. -/
structure State where
  /-- R20: the encoder context. -/
  e : EncCtx
  /-- R20: the decoder context. -/
  d : DecCtx
  /-- R37: `IR[1]` ARG. -/
  arg : Word
  /-- R37: `IR[2]` RES. -/
  res : Word
  /-- R39: `IR[3]` NUMPIXELS. -/
  numPixels : Word
  /-- R39: `IR[4]` OUT_CAP. -/
  outCap : Word
  /-- R39: `IR[5]` IN_LEN. -/
  inLen : Word
  /-- R38: `IR[6]` STATUS. -/
  status : Word
  /-- R50: S-space, 16-bit cells by sample index. -/
  sSpace : Memory 16
  /-- R51: E-space, bytes by offset. -/
  eSpace : Memory 8
  /-- R54: the parameter ENDIAN of this block. -/
  endian : Endian
  /-- R33: a VLE unit being parsed nibble by nibble; `none` when none is. -/
  vle : Option VleUnit
  /-- MODEL's own: the host's pending actions, the next one first. -/
  host : List HostAction
  /-- MODEL's own: the number of host actions begun; the index of the free values of the present step. -/
  tick : Nat
deriving DecidableEq, Repr

/-- R221: the spec's faults. Each is TAKEN (R234): the block goes on to a next state with STATUS = FAULTED. -/
inductive FaultCause where
  /-- Cause 1 (R223). -/
  | outputBufferOverflow
  /-- Cause 2 (R224). -/
  | truncatedInput
  /-- Cause 3 (R225). -/
  | runOverrun
  /-- Cause 4 (R227). -/
  | vleOverlong
deriving DecidableEq, Repr

/-- R236, R52: the memory an operation writes, which a fault of that operation leaves unspecified. -/
inductive OutputRange where
  /-- The operation writes no memory. -/
  | nowhere
  /-- It writes E-space, bytes `0 .. OUT_CAP-1`. -/
  | eSpace
  /-- It writes S-space, cells `0 .. NUMPIXELS-1`. -/
  | sSpace
deriving DecidableEq, Repr

/-- What the body of an operation does: run to its end with a result, or raise a fault with its info value
(R12, R234). A raise carries no state: what a fault leaves does not depend on how far the body came (R235, R236). -/
inductive Run (α : Type) where
  | done (r : α) (s : State)
  | raised (f : FaultCause) (info : Word)
deriving Repr

/-- How the machine could stop with a fault of its own: in no way. The spec's faults (R221) are next states, and no
step of this machine stops with a fault, so the type has no constructor (safe). -/
inductive Fault where
deriving DecidableEq, Repr

/-- Why a step is refused. Every refusal of R213 and R214 is the spec's own (safe: the model does less than
hardware might). -/
inductive Refusal where
  /-- An instruction that has no meaning yet; raised by no arm of exec. -/
  | notModelled (mnemonic : String)
  /-- R213, R97: a command word with a bit of 31:5 set. Raised by a write to CMD; safe. -/
  | upperBitsSet (c : Word)
  /-- R213, R99: a reserved operation-select code. Raised by a write to CMD; safe. -/
  | reservedOp (op : BitVec 5)
  /-- R214 (a): an operation other than NOP and CLRF while FAULTED. Raised by every other meaning; safe. -/
  | faultPending
  /-- R214 (b): NUMPIXELS above NUMPIXELS_MAX. Raised by ENCINIT, DECINIT, COMPRESS, DECOMPRESS; safe. -/
  | numPixelsTooLarge
  /-- R214 (c): ENCVAL with E.si at or past NUMPIXELS; safe. -/
  | noSampleToEncode
  /-- R214 (c): DECVAL with D.so at or past NUMPIXELS; safe. -/
  | noSampleToDecode
deriving DecidableEq, Repr

/-- R46: the encoder context after reset. -/
def EncCtx.zero : EncCtx := { word := 0, cnt := 0, wp := 0, prev := 0, si := 0 }

/-- R46: the decoder context after reset. -/
def DecCtx.zero : DecCtx := { word := 0, cnt := 0, rp := 0, prev := 0, so := 0, rem := 0 }

/-- R46, R261: the state after reset: every register of E and D and every interface register 0, both memories with
nothing listed (log entry 1), ENDIAN at its default (log entry 2), no host action pending. -/
def State.reset : State :=
  { e := EncCtx.zero, d := DecCtx.zero, arg := 0, res := 0, numPixels := 0, outCap := 0, inLen := 0, status := 0,
    sSpace := [], eSpace := [], endian := .little, vle := none, host := [], tick := 0 }

end Sys2Proof.Machine
end

