-- ==== Sys2Proof/Machine/Flags.lean ====
section
/-! DEFINITION. Flags: STATUS, the block's only flag register (10_state.md rule R38): its fields, the cause codes
(60_exceptions.md rule R221) and the three values an operation's end writes (45_system.md rule R210). -/

namespace Sys2Proof.Machine

/-- R221: the cause code of a fault. -/
def FaultCause.code : FaultCause → BitVec 4
  | .outputBufferOverflow => 1
  | .truncatedInput => 2
  | .runOverrun => 3
  | .vleOverlong => 4

/-- R38: `STATUS` from its two fields; bits 3:2 and 31:8 read 0. -/
def statusWord (cause : BitVec 4) (state : BitVec 2) : Word :=
  0#24 ++ cause ++ 0#2 ++ state

/-- R38: state 0, IDLE. -/
def statusIdle : Word := statusWord 0 0

/-- R38: state 1, DONE. -/
def statusDone : Word := statusWord 0 1

/-- R38, R221: state 2, FAULTED, with the fault's cause. -/
def statusFaulted (f : FaultCause) : Word := statusWord f.code 2

/-- R38: the field `state`, bits 1:0. -/
def State.statusState (s : State) : BitVec 2 := s.status.extractLsb' 0 2

/-- R38: the field `cause`, bits 7:4. -/
def State.statusCause (s : State) : BitVec 4 := s.status.extractLsb' 4 4

/-- R38: `STATUS.state = FAULTED`. -/
def State.faulted (s : State) : Bool := s.statusState == 2

end Sys2Proof.Machine
end

