-- ==== Sys2Proof/Machine/Operands.lean ====
section
/-! DEFINITION. Operands: where an operation's operands stand and how its result is delivered (10_state.md rule R37;
30_encoding.md rules R96, R97), and the host's view of the interface registers (rules R35, R36, R40). -/

namespace Sys2Proof.Machine

/-- R37: the operand of `EMITNIB`, `ARG[3:0]`; the other bits are ignored. -/
def State.argNibble (s : State) : Nibble := s.arg.extractLsb' 0 4

/-- R37: the operand of `ENCVLE`, `ZZDEC`, `WRZ`, `NZRUN` (unsigned) and of `ZZENC` (the same bits as `i32`). -/
def State.argWord (s : State) : Word := s.arg

/-- R37: a nibble delivered to `RES`, zero-extended. -/
def nibbleResult (n : Nibble) : Word := n.setWidth 32

/-- R37: a sample delivered to `RES`, sign-extended; also the `sext_32` of R150 and R154. -/
def sampleResult (v : Sample) : Word := v.signExtend 32

/-- R10: `trunc_16`, read as an `i16`. -/
def truncSample (v : Word) : Sample := v.setWidth 16

/-- R35 to R40: what a host read of `IR[n]` gives; CMD and `IR[7]` read 0. A read changes nothing. -/
def State.readRegister (s : State) (n : BitVec 3) : Word :=
  match n.toNat with
  | 1 => s.arg
  | 2 => s.res
  | 3 => s.numPixels
  | 4 => s.outCap
  | 5 => s.inLen
  | 6 => s.status
  | _ => 0

/-- R35, R40: what a host write to `IR[n]`, n ≠ 0, stores: ARG, NUMPIXELS, OUT_CAP and IN_LEN take the value;
RES and STATUS are read-only (log entry 8) and `IR[7]` ignores writes. -/
def State.storeRegister (s : State) (n : BitVec 3) (v : Word) : State :=
  match n.toNat with
  | 1 => { s with arg := v }
  | 3 => { s with numPixels := v }
  | 4 => { s with outCap := v }
  | 5 => { s with inLen := v }
  | _ => s

end Sys2Proof.Machine
end

