-- ==== Sys2Proof/Machine/Ops.lean ====
section
/-! DEFINITION. Ops: the named operations every meaning shares: the memories and their canonical form, the memory
primitives of 20_memory.md rules R68 to R71, taking a fault (60_exceptions.md rules R234 to R236) and leaving one
(45_system.md rule R212), and the issue of an operation (rule R210). -/

namespace Sys2Proof.Machine

/-! ### Memory -/

/-- R60: the last value written to the cell; an unlisted cell reads as `Config.unlistedCell`. -/
def Memory.read {w : Nat} : Memory w → Nat → BitVec w
  | [], _ => Config.unlistedCell w
  | (k, v) :: m, a => if a = k then v else Memory.read m a

/-- Put `(a, v)` before the rest of a memory, unless the cell reads so when unlisted. -/
def Memory.cons {w : Nat} (a : Nat) (v : BitVec w) (m : Memory w) : Memory w :=
  if v = Config.unlistedCell w then m else (a, v) :: m

/-- Write one cell, keeping the canonical form. -/
def Memory.write {w : Nat} : Memory w → Nat → BitVec w → Memory w
  | [], a, v => Memory.cons a v []
  | (k, x) :: m, a, v =>
    if a < k then Memory.cons a v ((k, x) :: m)
    else if a = k then Memory.cons a v m
    else (k, x) :: Memory.write m a v

/-- The canonical form: addresses strictly rising, no entry equal to what an unlisted cell reads as. -/
def Memory.wf {w : Nat} : Memory w → Bool
  | [] => true
  | (k, v) :: m => (v != Config.unlistedCell w) && m.all (fun c => decide (k < c.1)) && Memory.wf m

/-- Write `f i` to every cell `i < n`. -/
def Memory.fill {w : Nat} (m : Memory w) (f : Nat → BitVec w) : Nat → Memory w
  | 0 => m
  | n + 1 => (Memory.fill m f n).write n (f n)

/-- R54: byte `j` (0..3, counted from the word's offset) of a word in the byte order of the block. -/
def wordByte (en : Endian) (w : Word) (j : Nat) : Byte :=
  match en with
  | .little => w.extractLsb' (8 * j) 8
  | .big => w.extractLsb' (24 - 8 * j) 8

/-- R54: the word whose bytes, by rising offset, are `b0 b1 b2 b3`. -/
def wordOfBytes (en : Endian) (b0 b1 b2 b3 : Byte) : Word :=
  match en with
  | .little => b3 ++ b2 ++ b1 ++ b0
  | .big => b0 ++ b1 ++ b2 ++ b3

/-- R54: `MemWrite(E, a, 4, w)`. -/
def Memory.writeWord (m : Memory 8) (en : Endian) (a : Nat) (w : Word) : Memory 8 :=
  (((m.write a (wordByte en w 0)).write (a + 1) (wordByte en w 1)).write (a + 2) (wordByte en w 2)).write (a + 3)
    (wordByte en w 3)

/-- R54: `MemRead(E, a, 4)`. -/
def Memory.readWord (m : Memory 8) (en : Endian) (a : Nat) : Word :=
  wordOfBytes en (m.read a) (m.read (a + 1)) (m.read (a + 2)) (m.read (a + 3))

/-! ### Sequencing -/

/-- R11, R12: run the body `x`, then `f` on its result; a raise ends the whole operation. -/
def Run.bind {α β : Type} (x : Run α) (f : α → State → Run β) : Run β :=
  match x with
  | .done r s => f r s
  | .raised c info => .raised c info

/-! ### The memory primitives -/

/-- R68: `SRead(i)`. Outside S-space (`i ≥ NUMPIXELS`) the value is free (log entry 5). -/
def sRead (s : State) (i : Word) : Sample :=
  if i < s.numPixels then s.sSpace.read i.toNat else Config.outsideRead s.tick i.toNat

/-- R69: `SWrite(i, v)`. Outside S-space (`i ≥ NUMPIXELS`) what the cell then holds is free (log entry 6). -/
def sWrite (s : State) (i : Word) (v : Sample) : State :=
  { s with
    sSpace := s.sSpace.write i.toNat
      (if i < s.numPixels then v else Config.outsideWrite s.tick i.toNat (s.sSpace.read i.toNat) v) }

/-- R70: `WriteWord(w)`; the check is made without wrap-around and before the write. -/
def writeWord (w : Word) (s : State) : Run Unit :=
  if 4 * s.e.wp.toNat + 4 > s.outCap.toNat then .raised .outputBufferOverflow s.e.wp
  else
    .done () { s with
      eSpace := s.eSpace.writeWord s.endian (4 * s.e.wp.toNat) w
      e := { s.e with wp := s.e.wp + 1 } }

/-- R71: `ReadWord()`; the check is made without wrap-around and before the read. -/
def readWord (s : State) : Run Word :=
  if 4 * s.d.rp.toNat + 4 > s.inLen.toNat then .raised .truncatedInput s.d.rp
  else
    .done (s.eSpace.readWord s.endian (4 * s.d.rp.toNat)) { s with d := { s.d with rp := s.d.rp + 1 } }

/-! ### Taking a fault, and leaving one -/

/-- R235: the encoder context after a fault: free values. -/
def faultEncCtx (event : Nat) : EncCtx :=
  { word := Config.afterFaultRegister event 0
    cnt := (Config.afterFaultRegister event 1).setWidth 4
    wp := Config.afterFaultRegister event 2
    prev := (Config.afterFaultRegister event 3).setWidth 16
    si := Config.afterFaultRegister event 4 }

/-- R235: the decoder context after a fault: free values. -/
def faultDecCtx (event : Nat) : DecCtx :=
  { word := Config.afterFaultRegister event 5
    cnt := (Config.afterFaultRegister event 6).setWidth 4
    rp := Config.afterFaultRegister event 7
    prev := (Config.afterFaultRegister event 8).setWidth 16
    so := Config.afterFaultRegister event 9
    rem := Config.afterFaultRegister event 10 }

/-- R234 to R236: `raise F(info)` in an operation issued in state `s` that writes `out`. `RES` and `STATUS` record the
fault, the contexts hold free values (log entry 3), and so does the output range of the operation (log entry 4): E-space
`[0, OUT_CAP)` where it writes E-space, `S[0 .. NUMPIXELS-1]` where it writes S-space, nothing where it writes no memory
(R52, R114). Nothing else changes. -/
def takeFault (out : OutputRange) (f : FaultCause) (info : Word) (s : State) : State :=
  { s with
    res := info
    status := statusFaulted f
    e := faultEncCtx s.tick
    d := faultDecCtx s.tick
    vle := none
    eSpace := if out = .eSpace then s.eSpace.fill (Config.afterFaultByte s.tick) s.outCap.toNat else s.eSpace
    sSpace := if out = .sSpace then s.sSpace.fill (Config.afterFaultSample s.tick) s.numPixels.toNat else s.sSpace }

/-- R212, R238: the only way out of FAULTED other than reset. -/
def leaveFault (s : State) : State :=
  { s with e := EncCtx.zero, d := DecCtx.zero, vle := none, res := 0, status := statusIdle }

/-- R260, R261: the reset event: every register of the block 0; the memories and ENDIAN stay. -/
def resetBlock (s : State) : State :=
  { leaveFault s with arg := 0, numPixels := 0, outCap := 0, inLen := 0 }

/-! ### Issue -/

/-- R210: an operation ends with result `r`. -/
def complete (r : Word) (s : State) : State :=
  { s with res := r, status := statusDone }

/-- R210: how an operation issued in state `s` that writes `out` ends. -/
def finish (s : State) (out : OutputRange) : Run Word → Host.Outcome State Fault Refusal
  | .done r t => .next (complete r t)
  | .raised f info => .next (takeFault out f info s)

/-- R210, R214: issue an operation other than NOP and CLRF, whose writes go to `out`: refused while FAULTED, then refused
by its precondition, then run to its end. -/
def issue (s : State) (out : OutputRange) (precondition : Option Refusal) (body : State → Run Word) :
    Host.Outcome State Fault Refusal :=
  if s.faulted then .refused .faultPending
  else
    match precondition with
    | some r => .refused r
    | none => finish s out (body s)

/-- R214 (b): the precondition of the four operations that start a stream. -/
def streamStartRefusal (s : State) : Option Refusal :=
  if s.numPixels > Config.numPixelsMax then some .numPixelsTooLarge else none

end Sys2Proof.Machine
end

