-- ==== Sys2Proof/Machine/Packer.lean ====
section
/-! DEFINITION. Packer: ENCINIT, EMITNIB, FLUSH (40_nibble_packer_unpacker.md rules R110 to R113). -/

namespace Sys2Proof.Machine

/-- R111: seed the encoder context. -/
def encInit (s : State) : State := { s with e := EncCtx.zero }

/-- R112: append one nibble; the eighth writes the word. -/
def emitNibble (n : Nibble) (s : State) : Run Unit :=
  let word := (s.e.word <<< 4) ||| n.setWidth 32
  let cnt := s.e.cnt + 1
  let s1 := { s with e := { s.e with word := word, cnt := cnt } }
  if cnt = 8 then
    (writeWord word s1).bind fun _ s2 => .done () { s2 with e := { s2.e with cnt := 0, word := 0 } }
  else .done () s1

/-- R113: the pending nibbles moved to the top of the word, the rest zero. -/
def flushedWord (e : EncCtx) : Word := e.word <<< (4 * (8 - e.cnt.toNat))

/-- R113: write the partial word, if any. -/
def flushPacker (s : State) : Run Unit :=
  if s.e.cnt ≠ 0 then
    (writeWord (flushedWord s.e) s).bind fun _ s2 => .done () { s2 with e := { s2.e with cnt := 0, word := 0 } }
  else .done () s

/-- R113, R180: bytes written since ENCINIT. -/
def bytesWritten (s : State) : Word := 4 * s.e.wp

/-- `ENCINIT` (R111). -/
def execEncinit (s : State) : Host.Outcome State Fault Refusal :=
  issue s .nowhere (streamStartRefusal s) fun s => .done 0 (encInit s)

/-- `EMITNIB` (R112). -/
def execEmitnib (s : State) : Host.Outcome State Fault Refusal :=
  issue s .eSpace none fun s => (emitNibble s.argNibble s).bind fun _ t => .done 0 t

/-- `FLUSH` (R113). -/
def execFlush (s : State) : Host.Outcome State Fault Refusal :=
  issue s .eSpace none fun s => (flushPacker s).bind fun _ t => .done (bytesWritten t) t

end Sys2Proof.Machine
end

