-- ==== Sys2Proof/Machine/Unpacker.lean ====
section
/-! DEFINITION. Unpacker: DECINIT, TAKENIB (40_nibble_packer_unpacker.md rules R114 to R116). -/

namespace Sys2Proof.Machine

/-- R115: seed the decoder context; `D.rem` takes NUMPIXELS. -/
def decInit (s : State) : State := { s with d := { DecCtx.zero with rem := s.numPixels } }

/-- R116: the top nibble of `D.word`, and one nibble fewer pending. -/
def topNibble (s : State) : Run Nibble :=
  .done (s.d.word.extractLsb' 28 4) { s with d := { s.d with cnt := s.d.cnt - 1 } }

/-- R116: load a word when none is pending, else shift; then extract and decrement in both cases (C3). -/
def takeNibble (s : State) : Run Nibble :=
  if s.d.cnt = 0 then
    (readWord s).bind fun w s1 => topNibble { s1 with d := { s1.d with word := w, cnt := 8 } }
  else topNibble { s with d := { s.d with word := s.d.word <<< 4 } }

/-- `DECINIT` (R115). -/
def execDecinit (s : State) : Host.Outcome State Fault Refusal :=
  issue s .nowhere (streamStartRefusal s) fun s => .done 0 (decInit s)

/-- `TAKENIB` (R116). -/
def execTakenib (s : State) : Host.Outcome State Fault Refusal :=
  issue s .nowhere none fun s => (takeNibble s).bind fun n t => .done (nibbleResult n) t

end Sys2Proof.Machine
end

