-- ==== Sys2Proof/Machine/Vle.lean ====
section
/-! DEFINITION. Vle: ENCVLE, DECVLE (41_vle.md rules R130, R134) and the two nibble forms the decoder tells apart
(30_encoding.md rule R81). -/

namespace Sys2Proof.Machine

/-- R130: the nibble for the present value: its low 3 bits, and the continuation bit when more of it remains. -/
def vleNibble (v : Word) : Nibble :=
  let n : Nibble := 0#1 ++ v.extractLsb' 0 3
  if v >>> 3 ≠ 0 then n ||| 8 else n

/-- R130: the repeat loop, with at most `fuel` passes. -/
def encodeVleLoop : Nat → Word → State → Run Unit
  | 0, _, s => .done () s
  | fuel + 1, v, s =>
    (emitNibble (vleNibble v) s).bind fun _ t => if v >>> 3 = 0 then .done () t else encodeVleLoop fuel (v >>> 3) t

/-- R130, R140: emit one VLE unit; a 32-bit value needs at most 11 passes. -/
def encodeVle (v : Word) (s : State) : Run Unit := encodeVleLoop 11 v s

/-- R134: the accumulator and the group index before the unit's first nibble. -/
def VleUnit.start : VleUnit := { value := 0, k := 0 }

/-- R33, R134: the unit in progress, or a new one. -/
def State.vleUnit (s : State) : VleUnit := s.vle.getD VleUnit.start

/-- R134: the payload of nibble `k` placed at bits 3k+2 : 3k. -/
def VleUnit.place (u : VleUnit) (p : Payload) : Word := u.value ||| (p.setWidth 32 <<< (3 * u.k.val))

/-- R134: one pass of the decoder's loop on a nibble `1ppp`; the tenth raises `VleOverlong(D.rp)`. -/
def vleContinue (p : Payload) (s : State) : Run Unit :=
  if h : s.vleUnit.k.val + 1 < Config.vleMaxNibbles then
    .done () { s with vle := some { value := s.vleUnit.place p, k := ⟨s.vleUnit.k.val + 1, h⟩ } }
  else .raised .vleOverlong s.d.rp

/-- R134: one pass of the decoder's loop on a nibble `0ppp`: the unit ends with its value. -/
def vleFinish (p : Payload) (s : State) : Run Word :=
  .done (s.vleUnit.place p) { s with vle := none }

/-- R134: the decoder's loop, with at most `fuel` passes. The pass limit is never met before `VleOverlong` is raised
(law `decodeVleLoop_succ`). -/
def decodeVleLoop : Nat → State → Run Word
  | 0, s => .raised .vleOverlong s.d.rp
  | fuel + 1, s =>
    (takeNibble s).bind fun n t =>
      if n.getLsbD 3 then (vleContinue (n.extractLsb' 0 3) t).bind fun _ u => decodeVleLoop fuel u
      else vleFinish (n.extractLsb' 0 3) t

/-- R134: parse one VLE unit from its first nibble. -/
def decodeVle (s : State) : Run Word := decodeVleLoop Config.vleMaxNibbles { s with vle := none }

/-- `ENCVLE` (R130). -/
def execEncvle (s : State) : Host.Outcome State Fault Refusal :=
  issue s .eSpace none fun s => (encodeVle s.argWord s).bind fun _ t => .done 0 t

/-- `DECVLE` (R134). -/
def execDecvle (s : State) : Host.Outcome State Fault Refusal :=
  issue s .nowhere none decodeVle

/-- `VLE.CONT` (R81, R134): the decoder takes a nibble of a unit that goes on. No operation ends, so RES and STATUS
stay, unless the unit is overlong. -/
def execVleCont (p : Payload) (s : State) : Host.Outcome State Fault Refusal :=
  if s.faulted then .refused .faultPending
  else
    match vleContinue p s with
    | .done _ t => .next t
    | .raised f info => .next (takeFault .nowhere f info s)

/-- `VLE.END` (R81, R134): the decoder takes the last nibble of a unit; the unit's value is delivered as that of
DECVLE is. -/
def execVleEnd (p : Payload) (s : State) : Host.Outcome State Fault Refusal :=
  issue s .nowhere none (vleFinish p)

end Sys2Proof.Machine
end

