-- ==== Sys2Proof/Machine/Zigzag.lean ====
section
/-! DEFINITION. Zigzag: ZZENC, ZZDEC and the delta and reconstruction arithmetic (42_zigzag_delta.md rules R150 to
R154). -/

namespace Sys2Proof.Machine

/-- R151: `(d << 1) ^ (d >>a 31)`. -/
def zigzagEncode (d : Word) : Word := (d <<< 1) ^^^ d.sshiftRight 31

/-- R152: `(v >>l 1) ^ (0 - (v & 1))`. -/
def zigzagDecode (v : Word) : Word := (v >>> 1) ^^^ (0 - (v &&& 1))

/-- R150: the delta of a sample against the cursor, exact in 32 bits. -/
def sampleDelta (cur prev : Sample) : Word := sampleResult cur - sampleResult prev

/-- R154: the low 16 bits of cursor plus delta. -/
def reconstruct (prev : Sample) (delta : Word) : Sample := truncSample (sampleResult prev + delta)

/-- `ZZENC` (R151). -/
def execZzenc (s : State) : Host.Outcome State Fault Refusal :=
  issue s .nowhere none fun s => .done (zigzagEncode s.argWord) s

/-- `ZZDEC` (R152). -/
def execZzdec (s : State) : Host.Outcome State Fault Refusal :=
  issue s .nowhere none fun s => .done (zigzagDecode s.argWord) s

end Sys2Proof.Machine
end

