-- ==== Sys2Proof/Machine/Reconstructor.lean ====
section
/-! DEFINITION. Reconstructor: WRZ, NZRUN, DECVAL, DECOMPRESS (44_decompress.md rules R190 to R192, R200). -/

namespace Sys2Proof.Machine

/-- R190: `repeat n times: SWrite(D.so, 0); D.so <- D.so + 1`. -/
def writeZeros : Nat → State → State
  | 0, s => s
  | n + 1, s =>
    let t := sWrite s s.d.so 0
    writeZeros n { t with d := { t.d with so := t.d.so + 1 } }

/-- R190: write a zero-run of `count` samples. -/
def writeZeroRun (count : Word) (s : State) : Run Unit :=
  if count > s.d.rem then .raised .runOverrun count
  else
    let t := writeZeros count.toNat s
    .done () { t with d := { t.d with rem := t.d.rem - count } }

/-- R191: account for a nonzero-run of `count` samples. -/
def accountNonzeroRun (count : Word) (s : State) : Run Unit :=
  if count > s.d.rem then .raised .runOverrun count
  else .done () { s with d := { s.d with rem := s.d.rem - count } }

/-- R192: decode and write one sample. -/
def decodeValue (s : State) : Run Word :=
  (decodeVle s).bind fun v s1 =>
    let cur := reconstruct s1.d.prev (zigzagDecode v)
    let s2 := sWrite s1 s1.d.so cur
    .done (sampleResult cur) { s2 with d := { s2.d with so := s2.d.so + 1, prev := cur } }

/-- R200 step 2: `repeat n times: DECVAL()`. -/
def decodeValues : Nat → State → Run Unit
  | 0, s => .done () s
  | n + 1, s => (decodeValue s).bind fun _ t => decodeValues n t

/-- R200 steps 1 and 2: one group. -/
def decodeGroup (s : State) : Run Unit :=
  (decodeVle s).bind fun zeros s1 =>
  (writeZeroRun zeros s1).bind fun _ s2 =>
  (decodeVle s2).bind fun nonzeros s3 =>
  (accountNonzeroRun nonzeros s3).bind fun _ s4 =>
  decodeValues nonzeros.toNat s4

/-- R200, R201: the pre-test loop over the groups, with at most `fuel` passes. Out of passes with samples still
unaccounted for is the end of the input (R203); `decompressStream` gives more passes than the input has nibbles for. -/
def decodeGroups : Nat → State → Run Unit
  | 0, s => if s.d.rem > 0 then .raised .truncatedInput s.d.rp else .done () s
  | fuel + 1, s =>
    if s.d.rem > 0 then (decodeGroup s).bind fun _ t => decodeGroups fuel t else .done () s

/-- R200: the state DECOMPRESS starts its groups from. DECINIT seeds the context; and a VLE unit in progress from
nibble forms run alone is dropped, also with NUMPIXELS = 0, where no unit is parsed at all. The spec is silent on such a
unit: dropping it here is the model's choice (DESIGN CHOICE, log entry 7). -/
def decompressStart (s : State) : State := { decInit s with vle := none }

/-- R200, R203: decode the whole stream. Each group takes two nibbles or more and the input holds at most two for
every byte, so no run of the loop has more than IN_LEN completed groups. -/
def decompressStream (s : State) : Run Unit := decodeGroups (s.inLen.toNat + 1) (decompressStart s)

/-- R214 (c): the precondition of DECVAL. -/
def decvalRefusal (s : State) : Option Refusal :=
  if s.d.so < s.numPixels then none else some .noSampleToDecode

/-- `WRZ` (R190). -/
def execWrz (s : State) : Host.Outcome State Fault Refusal :=
  issue s .sSpace none fun s => (writeZeroRun s.argWord s).bind fun _ t => .done 0 t

/-- `NZRUN` (R191). -/
def execNzrun (s : State) : Host.Outcome State Fault Refusal :=
  issue s .nowhere none fun s => (accountNonzeroRun s.argWord s).bind fun _ t => .done 0 t

/-- `DECVAL` (R192). -/
def execDecval (s : State) : Host.Outcome State Fault Refusal :=
  issue s .sSpace (decvalRefusal s) decodeValue

/-- `DECOMPRESS` (R200). -/
def execDecompress (s : State) : Host.Outcome State Fault Refusal :=
  issue s .sSpace (streamStartRefusal s) fun s => (decompressStream s).bind fun _ t => .done 0 t

end Sys2Proof.Machine
end

