-- ==== Sys2Proof/Machine/Scanner.lean ====
section
/-! DEFINITION. Scanner: SCANZ, SCANNZ, ENCVAL, COMPRESS (43_compress.md rules R170 to R172, R180). -/

namespace Sys2Proof.Machine

/-- R170: the while loop of SCANZ, with at most `fuel` passes: count and consume zero samples. -/
def scanZerosLoop : Nat → Word → State → Run Word
  | 0, zeros, s => .done zeros s
  | fuel + 1, zeros, s =>
    if s.e.si ≠ s.numPixels ∧ sRead s s.e.si = 0 then
      scanZerosLoop fuel (zeros + 1) { s with e := { s.e with si := s.e.si + 1 } }
    else .done zeros s

/-- R170: `E.si` meets NUMPIXELS after as many advances as their difference modulo 2^32. -/
def scanZeros (s : State) : Run Word := scanZerosLoop (s.numPixels - s.e.si).toNat 0 s

/-- R171: the while loop of SCANNZ from the look-ahead cursor `p`, with at most `fuel` passes. -/
def countNonzerosLoop (s : State) : Nat → Word → Word → Word
  | 0, _, nonzeros => nonzeros
  | fuel + 1, p, nonzeros =>
    if p ≠ s.numPixels ∧ sRead s p ≠ 0 then countNonzerosLoop s fuel (p + 1) (nonzeros + 1) else nonzeros

/-- R171: count the nonzero run at `E.si` without consuming it. -/
def countNonzeros (s : State) : Word := countNonzerosLoop s (s.numPixels - s.e.si).toNat s.e.si 0

/-- R172: delta-code one sample. -/
def encodeValue (s : State) : Run Word :=
  let cur := sRead s s.e.si
  let s1 := { s with e := { s.e with si := s.e.si + 1 } }
  (encodeVle (zigzagEncode (sampleDelta cur s1.e.prev)) s1).bind fun _ t =>
    .done (sampleResult cur) { t with e := { t.e with prev := cur } }

/-- R180 step 3: `repeat n times: ENCVAL()`. -/
def encodeValues : Nat → State → Run Unit
  | 0, s => .done () s
  | n + 1, s => (encodeValue s).bind fun _ t => encodeValues n t

/-- R180 steps 1 to 3: one group. -/
def encodeGroup (s : State) : Run Unit :=
  (scanZeros s).bind fun zeros s1 =>
  (encodeVle zeros s1).bind fun _ s2 =>
  (encodeVle (countNonzeros s2) s2).bind fun _ s3 =>
  encodeValues (countNonzeros s2).toNat s3

/-- R180, R181: the pre-test loop over the groups, with at most `fuel` passes; every group consumes a sample. -/
def encodeGroups : Nat → State → Run Unit
  | 0, s => .done () s
  | fuel + 1, s =>
    if s.e.si ≠ s.numPixels then (encodeGroup s).bind fun _ t => encodeGroups fuel t else .done () s

/-- R180: encode the whole stream; the result is the number of bytes written. -/
def compressStream (s : State) : Run Word :=
  (encodeGroups s.numPixels.toNat (encInit s)).bind fun _ t =>
  (flushPacker t).bind fun _ u => .done (bytesWritten u) u

/-- R214 (c): the precondition of ENCVAL. -/
def encvalRefusal (s : State) : Option Refusal :=
  if s.e.si < s.numPixels then none else some .noSampleToEncode

/-- `SCANZ` (R170). -/
def execScanz (s : State) : Host.Outcome State Fault Refusal :=
  issue s .nowhere none scanZeros

/-- `SCANNZ` (R171). -/
def execScannz (s : State) : Host.Outcome State Fault Refusal :=
  issue s .nowhere none fun s => .done (countNonzeros s) s

/-- `ENCVAL` (R172). -/
def execEncval (s : State) : Host.Outcome State Fault Refusal :=
  issue s .eSpace (encvalRefusal s) encodeValue

/-- `COMPRESS` (R180). -/
def execCompress (s : State) : Host.Outcome State Fault Refusal :=
  issue s .eSpace (streamStartRefusal s) compressStream

end Sys2Proof.Machine
end

