-- ==== Sys2Proof/Machine/System.lean ====
section
/-! DEFINITION. System: NOP, CLRF (45_system.md rules R211, R212). Both are accepted in every state, FAULTED too. -/

namespace Sys2Proof.Machine

/-- `NOP` (R211): nothing changes, STATUS and RES included. -/
def execNop (s : State) : Host.Outcome State Fault Refusal := .next s

/-- `CLRF` (R212). -/
def execClrf (s : State) : Host.Outcome State Fault Refusal := .next (leaveFault s)

end Sys2Proof.Machine
end

