-- ==== Sys2Proof/Machine/Dispatch.lean ====
section
/-! DEFINITION. Dispatch: one arm per constructor of Instr, each one direct call of its meaning. -/

namespace Sys2Proof.Machine

def exec (i : Instr) (s : State) : Host.Outcome State Fault Refusal :=
  match i with
  -- system and orchestrators
  | .nop => Sys2Proof.Machine.execNop s
  | .compress => Sys2Proof.Machine.execCompress s
  | .decompress => Sys2Proof.Machine.execDecompress s
  | .clrf => Sys2Proof.Machine.execClrf s
  -- nibble packer and unpacker
  | .encinit => Sys2Proof.Machine.execEncinit s
  | .emitnib => Sys2Proof.Machine.execEmitnib s
  | .flush => Sys2Proof.Machine.execFlush s
  | .decinit => Sys2Proof.Machine.execDecinit s
  | .takenib => Sys2Proof.Machine.execTakenib s
  -- VLE encoder and decoder
  | .encvle => Sys2Proof.Machine.execEncvle s
  | .decvle => Sys2Proof.Machine.execDecvle s
  -- zigzag delta coder
  | .zzenc => Sys2Proof.Machine.execZzenc s
  | .zzdec => Sys2Proof.Machine.execZzdec s
  -- run scanner
  | .scanz => Sys2Proof.Machine.execScanz s
  | .scannz => Sys2Proof.Machine.execScannz s
  | .encval => Sys2Proof.Machine.execEncval s
  -- run reconstructor
  | .wrz => Sys2Proof.Machine.execWrz s
  | .nzrun => Sys2Proof.Machine.execNzrun s
  | .decval => Sys2Proof.Machine.execDecval s
  -- nibble forms of the wire
  | .vleCont p => Sys2Proof.Machine.execVleCont p s
  | .vleEnd p => Sys2Proof.Machine.execVleEnd p s

end Sys2Proof.Machine
end

