-- ==== Sys2Proof/Machine/HostInterface.lean ====
section
/-! DEFINITION. HostInterface: what the host and the platform do between operations (20_memory.md rule R63,
10_state.md rules R35 to R40, 70_reset_and_hazards.md rule R260), and the fetch of an instruction from it. -/

namespace Sys2Proof.Machine

/-- R213: a code that is no instruction is refused by name. -/
def refusalOf : DecodeError → Refusal
  | .upperBitsSet c => .upperBitsSet c
  | .reservedOp op => .reservedOp op

/-- R210: decode a code and run it. -/
def runCode (x : Code) (s : State) : Host.Outcome State Fault Refusal :=
  match decode x with
  | .ok i => exec i s
  | .error r => .refused (refusalOf r)

/-- R35, R36: a host write to `IR[n]`; a write to `IR[0]` issues an operation. -/
def hostWrite (n : BitVec 3) (v : Word) (s : State) : Host.Outcome State Fault Refusal :=
  if n = 0 then runCode (.cmd v) s else .next (s.storeRegister n v)

/-- One action of the host or the platform. -/
def perform (a : HostAction) (s : State) : Host.Outcome State Fault Refusal :=
  match a with
  | .writeRegister n v => hostWrite n v s
  | .putSample i v => .next { s with sSpace := s.sSpace.write i.toNat v }
  | .putByte o v => .next { s with eSpace := s.eSpace.write o.toNat v }
  | .reset => .next (resetBlock s)
  | .nibble n => runCode (.nib n) s

/-- The host action that hands a code to the block. -/
def HostAction.ofCode : Code → HostAction
  | .cmd c => .writeRegister 0 c
  | .nib n => .nibble n

/-- The next host action is taken off the queue and counted. -/
def State.afterFetch (s : State) : State := { s with host := s.host.tail, tick := s.tick + 1 }

/-- One step: the next host action is done; with none pending the block stays idle (R63, R243). -/
def stepHost (s : State) : Host.Outcome State Fault Refusal :=
  match s.host.head? with
  | none => .next s
  | some a => perform a s.afterFetch

end Sys2Proof.Machine
end

