-- ==== Sys2Proof/Machine/Step.lean ====
section
/-! DEFINITION. Step: one step of the machine, and the place of the next instruction. -/

namespace Sys2Proof.Machine

/-- One step of the machine: R63's next host action, an operation run to its end when the action issues one. -/
def step (s : State) : Host.Outcome State Fault Refusal := stepHost s

/-- The state whose next step runs the instruction whose table row has the bits `w`: the block has no instruction
memory (R34, R53), so the instruction is the host's next action (log entry 9). -/
def State.withFetchWord (s : State) (nbits w : Nat) : State :=
  { s with host := HostAction.ofCode (codeOfTableWord nbits w) :: s.host }

end Sys2Proof.Machine
end

