-- ==== Sys2Proof/Safety.lean ====
section
/-! DEFINITION. Safety: the terms in which claims about the block are stated. The invariants of a sound state
(10_state.md rules R38, R43, R44); what taking a fault leaves (60_exceptions.md rules R234 to R236); the two memories
seen as nibbles and samples (30_encoding.md rule R82); and the wire format as the spec writes it, over plain lists and
integers and independent of the machine's loops (rules R83, R87, R91, R131, R132, R150, R160). -/

namespace Sys2Proof.Machine

/-! ### Invariants -/

/-- Both memories are in their canonical form. -/
abbrev State.memoriesCanonical (s : State) : Prop :=
  Memory.wf s.sSpace = true ∧ Memory.wf s.eSpace = true

/-- R38, R221: STATUS is IDLE, DONE, or FAULTED with one of the four causes. -/
abbrev State.statusLegal (s : State) : Prop :=
  s.status ∈ [0x00#32, 0x01#32, 0x12#32, 0x22#32, 0x32#32, 0x42#32]

/-- R43: at most 7 pending nibbles, held in the low bits of `E.word`; the output cursor's byte offset fits 32 bits. -/
abbrev State.encoderSound (s : State) : Prop :=
  s.e.cnt.toNat ≤ 7 ∧ s.e.word.toNat < 16 ^ s.e.cnt.toNat ∧ 4 * s.e.wp.toNat < 2 ^ 32

/-- R44: at most 7 nibbles of the current word left; the input cursor's byte offset fits 32 bits; `D.rem` was set by a
DECINIT that NUMPIXELS_MAX did not refuse. -/
abbrev State.decoderSound (s : State) : Prop :=
  s.d.cnt.toNat ≤ 7 ∧ 4 * s.d.rp.toNat < 2 ^ 32 ∧ s.d.rem.toNat < 2 ^ 30

/-- R43, R44 outside FAULTED; in FAULTED the contexts hold free values (R235). -/
abbrev State.contextsSound (s : State) : Prop :=
  s.faulted = false → s.encoderSound ∧ s.decoderSound

/-! ### What a fault leaves -/

/-- R52: the memory an instruction writes; each operation that writes writes one of the two. -/
def outputRange : Instr → OutputRange
  | .emitnib | .flush | .encvle | .encval | .compress => .eSpace
  | .wrz | .decval | .decompress => .sSpace
  | .nop | .clrf | .encinit | .decinit | .takenib | .decvle | .zzenc | .zzdec | .scanz | .scannz | .nzrun => .nowhere
  | .vleCont _ => .nowhere
  | .vleEnd _ => .nowhere

/-- R234 to R236: `t` is a state the spec allows after the operation issued in `s`, which writes `out`, raised `f` with
`info`. Nothing is said about the contexts E and D, nor about the output range itself; a memory the operation does not
write is unchanged. -/
structure FaultTaken (out : OutputRange) (f : FaultCause) (info : Word) (s t : State) : Prop where
  res : t.res = info
  status : t.status = BitVec.ofNat 32 (16 * f.code.toNat + 2)
  arg : t.arg = s.arg
  numPixels : t.numPixels = s.numPixels
  outCap : t.outCap = s.outCap
  inLen : t.inLen = s.inLen
  endian : t.endian = s.endian
  host : t.host = s.host
  tick : t.tick = s.tick
  eSpace : (out ≠ .eSpace → t.eSpace = s.eSpace) ∧
    ∀ a, s.outCap.toNat ≤ a → t.eSpace.read a = s.eSpace.read a
  sSpace : (out ≠ .sSpace → t.sSpace = s.sSpace) ∧
    ∀ i, s.numPixels.toNat ≤ i → t.sSpace.read i = s.sSpace.read i

/-! ### The memories as nibbles and samples -/

/-- R82: nibble `j` of a word, `j` = 0 the first emitted. -/
def nibbleOf (w : Word) (j : Nat) : Nibble := w.extractLsb' (28 - 4 * j) 4

/-- R82: nibble number `t` of the stream in E-space: nibble `t mod 8` of the word at byte offset `4 * (t / 8)`. -/
def State.eNibble (s : State) (t : Nat) : Nibble :=
  nibbleOf (s.eSpace.readWord s.endian (4 * (t / 8))) (t % 8)

/-- R8, R50: the sample stream, `S[0 .. NUMPIXELS-1]`. -/
def State.samples (s : State) : List Sample :=
  (List.range s.numPixels.toNat).map s.sSpace.read

/-- R41, R43: the pending nibbles of `E.word`, oldest first. -/
def State.pending (s : State) : List Nibble :=
  (List.range s.e.cnt.toNat).map fun i =>
    BitVec.ofNat 4 (s.e.word.toNat / 16 ^ (s.e.cnt.toNat - 1 - i))

/-- R118: the nibble the unpacker returns after `t` others, `none` where it needs a word beyond IN_LEN. -/
def State.nextNibble (s : State) (t : Nat) : Option Nibble :=
  if t < s.d.cnt.toNat then some (nibbleOf s.d.word (t + 1))
  else
    let i := 8 * s.d.rp.toNat + (t - s.d.cnt.toNat)
    if 4 * (i / 8) + 4 ≤ s.inLen.toNat then some (s.eNibble i) else none

/-- R42, R118: how many words the unpacker reads to return `m` nibbles. -/
def State.wordsFor (s : State) (m : Nat) : Nat := (m - s.d.cnt.toNat + 7) / 8

/-- R118: the decoder context after `m` nibbles were taken. -/
def State.afterTaking (s : State) (m : Nat) : DecCtx :=
  if m ≤ s.d.cnt.toNat then
    { s.d with word := s.d.word <<< (4 * m), cnt := BitVec.ofNat 4 (s.d.cnt.toNat - m) }
  else
    let left := 8 * s.wordsFor m - (m - s.d.cnt.toNat)
    let rp := s.d.rp.toNat + s.wordsFor m
    { s.d with
      word := s.eSpace.readWord s.endian (4 * (rp - 1)) <<< (4 * (7 - left))
      cnt := BitVec.ofNat 4 left
      rp := BitVec.ofNat 32 rp }

/-- `t` is `s` after the nibbles `ns` were appended to the stream the packer holds (R112, R117): of the pending nibbles
and `ns` together, each whole eight stand as words in E-space from byte offset `4 * E.wp` on, the rest is pending. Every
other byte, and everything but `E.word`, `E.cnt`, `E.wp` and E-space, is as in `s`. -/
structure Emits (s : State) (ns : List Nibble) (t : State) : Prop where
  pending : t.pending = (s.pending ++ ns).drop (8 * ((s.pending ++ ns).length / 8))
  bound : t.e.cnt.toNat ≤ 7 ∧ t.e.word.toNat < 16 ^ t.e.cnt.toNat
  wp : t.e.wp.toNat = s.e.wp.toNat + (s.pending ++ ns).length / 8
  words : ∀ i, i < 8 * ((s.pending ++ ns).length / 8) →
    t.eNibble (8 * s.e.wp.toNat + i) = (s.pending ++ ns).getD i 0
  others : ∀ a, a < 4 * s.e.wp.toNat ∨ 4 * t.e.wp.toNat ≤ a → t.eSpace.read a = s.eSpace.read a
  canonical : Memory.wf t.eSpace = true
  rest : t = { s with
    eSpace := t.eSpace, e := { s.e with word := t.e.word, cnt := t.e.cnt, wp := t.e.wp } }

/-- `EMITNIB` of each nibble of a list in turn (R117). -/
def emitAll : List Nibble → State → Run Unit
  | [], s => .done () s
  | n :: ns, s => (emitNibble n s).bind fun _ t => emitAll ns t

/-- `TAKENIB` `m` times in turn, with the nibbles returned (R118). -/
def takeAll : Nat → State → Run (List Nibble)
  | 0, s => .done [] s
  | m + 1, s => (takeNibble s).bind fun n t => (takeAll m t).bind fun ns u => .done (n :: ns) u

/-- The nibble forms of a list of nibbles run in turn, each by `exec` (R81). -/
def execNibbles : List Nibble → State → Host.Outcome State Fault Refusal
  | [], s => .next s
  | n :: ns, s =>
    match exec (decodeNibble n) s with
    | .next t => execNibbles ns t
    | .fault r => .fault r
    | .refused r => .refused r

/-- R228: which faults an operation can raise; a nibble form is a pass of DECVLE's loop (R134). -/
def canRaise : Instr → List FaultCause
  | .nop | .clrf | .encinit | .decinit | .zzenc | .zzdec | .scanz | .scannz => []
  | .emitnib | .flush | .encvle | .encval | .compress => [.outputBufferOverflow]
  | .takenib => [.truncatedInput]
  | .decvle | .decval => [.truncatedInput, .vleOverlong]
  | .wrz | .nzrun => [.runOverrun]
  | .decompress => [.truncatedInput, .vleOverlong, .runOverrun]
  | .vleCont _ => [.vleOverlong]
  | .vleEnd _ => []

/-- R70, R112: E-space has room for every word, if any, that the emission of `n` more nibbles completes. -/
abbrev State.roomFor (s : State) (n : Nat) : Prop :=
  8 ≤ s.e.cnt.toNat + n → 4 * (s.e.wp.toNat + (s.e.cnt.toNat + n) / 8) ≤ s.outCap.toNat

/-! ### The wire format, over lists and integers -/

/-- R131: `L(v)`, the number of nibbles of the minimal unit of `v`. -/
def unitLength (v : Nat) : Nat := if v = 0 then 1 else (v.log2 + 1 + 2) / 3

/-- R132: nibble `k` of the minimal unit of `v`. -/
def unitNibble (v k : Nat) : Nibble :=
  BitVec.ofNat 4 (v / 8 ^ k % 8 + if v / 8 ^ (k + 1) ≠ 0 then 8 else 0)

/-- R83, R88, R132: the minimal unit of `v`. -/
def unitOf (v : Nat) : List Nibble := (List.range (unitLength v)).map (unitNibble v)

/-- R83: the nibbles are one VLE unit: the continuation bit is set in all but the last. -/
def isUnit : List Nibble → Bool
  | [] => false
  | [n] => !n.getLsbD 3
  | n :: n' :: ns => n.getLsbD 3 && isUnit (n' :: ns)

/-- R87: the value a unit's nibbles code, least significant group first. -/
def unitValue : List Nibble → Nat
  | [] => 0
  | n :: ns => n.toNat % 8 + 8 * unitValue ns

/-- R160: the zigzag map on integers. -/
def zigzagInt (d : Int) : Nat := if 0 ≤ d then (2 * d).toNat else (-2 * d - 1).toNat

/-- R160: the inverse zigzag map on integers. -/
def unzigzagInt (v : Nat) : Int := if v % 2 = 0 then (v / 2 : Nat) else -(((v + 1) / 2 : Nat) : Int)

/-- R91, R150: the units of the values of one nonzero-run, the first delta taken against `prev`. -/
def valueUnits : Sample → List Sample → List Nibble
  | _, [] => []
  | prev, x :: xs => unitOf (zigzagInt (x.toInt - prev.toInt)) ++ valueUnits x xs

/-- R91, R92: the groups of a sample list, at most `fuel` of them: a maximal zero-run, the maximal nonzero-run after
it, the values; the cursor `prev` is carried across zero-runs. -/
def streamGroups : Nat → Sample → List Sample → List Nibble
  | 0, _, _ => []
  | _ + 1, _, [] => []
  | fuel + 1, prev, x :: xs =>
    let zs := (x :: xs).takeWhile (· == 0)
    let ys := (x :: xs).dropWhile (· == 0)
    let nz := ys.takeWhile (· != 0)
    unitOf zs.length ++ unitOf nz.length ++ valueUnits prev nz ++
      streamGroups fuel (nz.getLastD prev) (ys.dropWhile (· != 0))

/-- R91, R92: the canonical stream of a sample list, without its pad nibbles. -/
def streamOf (xs : List Sample) : List Nibble := streamGroups xs.length 0 xs

/-- R86: the bytes a stream of `n` nibbles occupies. -/
def streamBytes (n : Nat) : Nat := 4 * ((n + 7) / 8)

/-! ### Streams that DECOMPRESS accepts, canonical or not -/

/-- R83, R94 (a): a VLE unit the decoder accepts, minimal or not. -/
def isShortUnit (ns : List Nibble) : Bool := isUnit ns && ns.length ≤ 10

/-- R91: the units of one group of a stream, each as its nibbles. -/
structure Group where
  zeros : List Nibble
  nonzeros : List Nibble
  values : List (List Nibble)
deriving DecidableEq, Repr

/-- R91, R93: units the decoder accepts, and as many values as the nonzero-run length says. -/
def Group.legal (g : Group) : Bool :=
  isShortUnit g.zeros && isShortUnit g.nonzeros && g.values.all isShortUnit && unitValue g.nonzeros == g.values.length

/-- R91: the nibbles of a group, in stream order. -/
def Group.nibbles (g : Group) : List Nibble := g.zeros ++ g.nonzeros ++ g.values.flatten

/-- R92 (b): how many samples a group covers. -/
def Group.size (g : Group) : Nat := unitValue g.zeros + g.values.length

/-- R154, R192: the samples that the value units of one nonzero-run code against the cursor `prev`; a sum outside 16
bits wraps, and a 0 is a sample like any other. -/
def valuesFrom : Sample → List (List Nibble) → List Sample
  | _, [] => []
  | prev, u :: us =>
    let cur := BitVec.ofInt 16 (prev.toInt + unzigzagInt (unitValue u))
    cur :: valuesFrom cur us

/-- R30, R192: the cursor after one group: the last sample its values code, or the cursor before it. -/
def Group.cursor (prev : Sample) (g : Group) : Sample := (valuesFrom prev g.values).getLastD prev

/-- R91, R190, R192: the samples that groups code: the zeros of each, then its values. -/
def samplesFrom : Sample → List Group → List Sample
  | _, [] => []
  | prev, g :: gs =>
    List.replicate (unitValue g.zeros) 0 ++ valuesFrom prev g.values ++ samplesFrom (g.cursor prev) gs

/-- R190, R191, R200: with `left` samples unaccounted for at its start, a group of which the units `us` have been read
goes on to another unit: no run length read exceeds the samples left, and after both of them a value is missing. -/
def groupGoesOn (left : Nat) (us : List (List Nibble)) : Bool :=
  us.all isShortUnit &&
    match us with
    | [] => true
    | [z] => unitValue z ≤ left
    | z :: k :: vs => unitValue z + unitValue k ≤ left && vs.length < unitValue k

/-- R71, R82: the whole words of the input hold `ns` from the first nibble on. -/
abbrev State.inputBegins (s : State) (ns : List Nibble) : Prop :=
  ns.length ≤ 8 * (s.inLen.toNat / 4) ∧ ∀ i (h : i < ns.length), s.eNibble i = ns[i]

end Sys2Proof.Machine
end

