-- ==== Sys2Proof/Certificates/Slice0/Obligations.lean ====
section
/-! DEFINITION. Obligations: what the model is claimed to satisfy, one `def Obligations.<Name> : Prop` each, listed in
OBLIGATIONS.json. STATUS values stand as numerals: 0x00 IDLE, 0x01 DONE, 0x12 / 0x22 / 0x32 / 0x42 FAULTED (R38). -/

open Sys2Proof Sys2Proof.Machine

/-! ### Encodings -/

/-- R96, R97, R81: words written out from the tables decode to the instructions they stand for. -/
def Obligations.WordsOfTheTablesDecode : Prop :=
  decode (.cmd 0b00000000000000000000000000000000#32) = .ok .nop ∧
  decode (.cmd 0b00000000000000000000000000000001#32) = .ok .compress ∧
  decode (.cmd 0b00000000000000000000000000001010#32) = .ok .flush ∧
  decode (.cmd 0b00000000000000000000000000001101#32) = .ok .takenib ∧
  decode (.cmd 0b00000000000000000000000000010000#32) = .ok .encvle ∧
  decode (.cmd 0b00000000000000000000000000010101#32) = .ok .zzdec ∧
  decode (.cmd 0b00000000000000000000000000011010#32) = .ok .encval ∧
  decode (.cmd 0b00000000000000000000000000011110#32) = .ok .decval ∧
  decode (.nib 0b1010#4) = .ok (.vleCont 0b010#3) ∧
  decode (.nib 0b0101#4) = .ok (.vleEnd 0b101#3)

/-- R96, R97, R81: decoding the code of an instruction gives it back, and the code is well-formed. -/
def Obligations.DecodeOfEncode : Prop :=
  ∀ i : Instr, i.wellFormed = true → decode (encode i) = .ok i ∧ (encode i).wellFormed = true

/-- R97, R99: a code that decodes is the code of what it decodes to, so no bit of it is dropped. -/
def Obligations.EncodeOfDecode : Prop :=
  ∀ (x : Code) (i : Instr), decode x = .ok i → encode i = x

/-- R99, R213: a command word with a bit of 31:5 set or with a reserved operation-select code is refused; every other
command word decodes. -/
def Obligations.ReservedCommandsRefused : Prop :=
  ∀ (c : Word),
    (c.extractLsb' 5 27 ≠ 0 ∨
        (c.extractLsb' 0 5).toNat ∈
          [0x04, 0x05, 0x06, 0x07, 0x0B, 0x0E, 0x0F, 0x12, 0x13, 0x16, 0x17, 0x1B, 0x1F] →
      ∀ s : State, s.host.head? = some (.writeRegister 0 c) → ∃ r, step s = .refused r) ∧
    (¬ (c.extractLsb' 5 27 ≠ 0 ∨
        (c.extractLsb' 0 5).toNat ∈
          [0x04, 0x05, 0x06, 0x07, 0x0B, 0x0E, 0x0F, 0x12, 0x13, 0x16, 0x17, 0x1B, 0x1F]) →
      ∃ i, decode (.cmd c) = .ok i)

/-! ### Steps of the host -/

/-- R63, R210 (log entry 9): when the next host action hands over a code that decodes to `i`, the step is `exec i` on
the state with that action taken off the queue and counted. -/
def Obligations.StepRunsTheDecodedInstruction : Prop :=
  ∀ (s : State) (x : Code) (i : Instr) (rest : List HostAction),
    s.host = HostAction.ofCode x :: rest → decode x = .ok i →
      step s = exec i { s with host := rest, tick := s.tick + 1 }

/-- The instruction of a table row, stored by `withFetchWord`, is what the next step runs (log entry 9). -/
def Obligations.StepRunsTheFetchWord : Prop :=
  ∀ (s : State) (nbits w : Nat) (i : Instr), decodeTableWord nbits w = some i →
    step (s.withFetchWord nbits w) = exec i { s with tick := s.tick + 1 }

/-- R35, R36, R40: a host write to `IR[n]`, n ≠ 0, sets ARG, NUMPIXELS, OUT_CAP or IN_LEN; RES and STATUS are
read-only (that such a write is ignored: the model's choice, log entry 8) and `IR[7]` ignores writes. CMD and `IR[7]`
read 0. Nothing else of the block or of the memories changes. -/
def Obligations.HostWritesRegister : Prop :=
  ∀ (s : State) (n : BitVec 3) (v : Word) (rest : List HostAction),
    s.host = .writeRegister n v :: rest → n ≠ 0 →
      ∃ t, step s = .next t ∧
        t.arg = (if n = 1 then v else s.arg) ∧ t.res = s.res ∧
        t.numPixels = (if n = 3 then v else s.numPixels) ∧
        t.outCap = (if n = 4 then v else s.outCap) ∧
        t.inLen = (if n = 5 then v else s.inLen) ∧ t.status = s.status ∧
        t.readRegister 0 = 0 ∧ t.readRegister 1 = t.arg ∧ t.readRegister 2 = t.res ∧
        t.readRegister 3 = t.numPixels ∧ t.readRegister 4 = t.outCap ∧ t.readRegister 5 = t.inLen ∧
        t.readRegister 6 = t.status ∧ t.readRegister 7 = 0 ∧
        t.e = s.e ∧ t.d = s.d ∧ t.sSpace = s.sSpace ∧ t.eSpace = s.eSpace ∧ t.endian = s.endian ∧ t.vle = s.vle ∧
        t.host = rest ∧ t.tick = s.tick + 1

/-- R50, R51, R60, R63: the host fills a cell of S-space or a byte of E-space, and every other cell keeps its value;
with no action pending the machine is idle. That any 32-bit index or offset may be filled, also past NUMPIXELS, OUT_CAP
and IN_LEN, is the model's choice (log entry 16), and so are the list of host actions and the idle step (log entry 9). -/
def Obligations.HostFillsMemoryAndIdles : Prop :=
  (∀ (s : State) (i : Word) (v : Sample) (rest : List HostAction), s.memoriesCanonical →
    s.host = .putSample i v :: rest →
      ∃ t, step s = .next t ∧ t = { s with sSpace := t.sSpace, host := rest, tick := s.tick + 1 } ∧
        t.sSpace.read i.toNat = v ∧ ∀ j, j ≠ i.toNat → t.sSpace.read j = s.sSpace.read j) ∧
  (∀ (s : State) (o : Word) (v : Byte) (rest : List HostAction), s.memoriesCanonical →
    s.host = .putByte o v :: rest →
      ∃ t, step s = .next t ∧ t = { s with eSpace := t.eSpace, host := rest, tick := s.tick + 1 } ∧
        t.eSpace.read o.toNat = v ∧ ∀ a, a ≠ o.toNat → t.eSpace.read a = s.eSpace.read a) ∧
  ∀ s : State, s.host = [] → step s = .next s

/-- R46, R260, R261: the reset event, in any state: every register of E and D and every interface register 0, the
memories and ENDIAN untouched. -/
def Obligations.ResetZeroesEveryRegister : Prop :=
  ∀ (s : State) (rest : List HostAction), s.host = .reset :: rest →
    ∃ t, step s = .next t ∧
      t = { s with
        e := { word := 0, cnt := 0, wp := 0, prev := 0, si := 0 }
        d := { word := 0, cnt := 0, rp := 0, prev := 0, so := 0, rem := 0 }
        arg := 0, res := 0, numPixels := 0, outCap := 0, inLen := 0, status := 0, vle := none
        host := rest, tick := s.tick + 1 } ∧
      ∀ n, t.readRegister n = 0

/-! ### System operations and refusals -/

/-- R211: NOP, op 0x00, changes nothing, in every state. -/
def Obligations.NopChangesNothing : Prop :=
  decode (.cmd 0x00) = .ok .nop ∧ ∀ s : State, exec .nop s = .next s

/-- R212: CLRF, op 0x03, in every state: E, D and RES are zeroed, STATUS is IDLE, all else stays. -/
def Obligations.ClrfReturnsToIdle : Prop :=
  decode (.cmd 0x03) = .ok .clrf ∧
  ∀ s : State, exec .clrf s = .next { s with
    e := { word := 0, cnt := 0, wp := 0, prev := 0, si := 0 }
    d := { word := 0, cnt := 0, rp := 0, prev := 0, so := 0, rem := 0 }
    res := 0, status := 0, vle := none }

/-- R214: the refused operations: (a) any but NOP and CLRF while FAULTED; (b) the four that start a stream with
NUMPIXELS above 2^30 - 1; (c) ENCVAL and DECVAL with their cursor at or past NUMPIXELS. -/
def Obligations.RefusedOperations : Prop :=
  ∀ s : State,
    (s.status.extractLsb' 0 2 = 2 → ∀ (c : Word) (i : Instr), decode (.cmd c) = .ok i → i ≠ .nop → i ≠ .clrf →
      exec i s = .refused .faultPending) ∧
    (s.status.extractLsb' 0 2 ≠ 2 →
      (2 ^ 30 - 1 < s.numPixels.toNat →
        exec .encinit s = .refused .numPixelsTooLarge ∧ exec .decinit s = .refused .numPixelsTooLarge ∧
        exec .compress s = .refused .numPixelsTooLarge ∧ exec .decompress s = .refused .numPixelsTooLarge) ∧
      (s.numPixels ≤ s.e.si → exec .encval s = .refused .noSampleToEncode) ∧
      (s.numPixels ≤ s.d.so → exec .decval s = .refused .noSampleToDecode))

/-! ### Zigzag delta coder -/

/-- R151, R152: ZZENC, op 0x14, and ZZDEC, op 0x15, deliver the zigzag map of ARG and its inverse; nothing else
changes. -/
def Obligations.ZigzagOperationsDeliver : Prop :=
  decode (.cmd 0x14) = .ok .zzenc ∧ decode (.cmd 0x15) = .ok .zzdec ∧
  ∀ s : State, s.faulted = false →
    exec .zzenc s = .next { s with res := (s.arg <<< 1) ^^^ s.arg.sshiftRight 31, status := 0x01 } ∧
    exec .zzdec s = .next { s with res := (s.arg >>> 1) ^^^ (0 - (s.arg &&& 1)), status := 0x01 }

/-- R153: the zigzag maps are inverse to each other on all 32-bit values. -/
def Obligations.ZigzagMapsAreInverse : Prop :=
  (∀ d : Word, zigzagDecode (zigzagEncode d) = d) ∧ ∀ v : Word, zigzagEncode (zigzagDecode v) = v

/-- R160: the arithmetic forms of the two maps, in unbounded integers. -/
def Obligations.ZigzagArithmeticForms : Prop :=
  (∀ d : Word, -2 ^ 30 ≤ d.toInt → d.toInt < 2 ^ 30 →
    ((zigzagEncode d).toNat : Int) = if 0 ≤ d.toInt then 2 * d.toInt else -2 * d.toInt - 1) ∧
  ∀ v : Word, v.toNat < 2 ^ 31 →
    (zigzagDecode v).toInt = if v.toNat % 2 = 0 then ((v.toNat / 2 : Nat) : Int) else -(((v.toNat + 1) / 2 : Nat) : Int)

/-- R150, R159: the delta of two samples is exact, and coding and decoding it against the same cursor gives the sample
back. -/
def Obligations.DeltaRoundTrip : Prop :=
  (∀ cur prev : Sample, (sampleDelta cur prev).toInt = cur.toInt - prev.toInt) ∧
  ∀ prev cur : Sample, reconstruct prev (zigzagDecode (zigzagEncode (sampleDelta cur prev))) = cur

/-! ### Nibble packer -/

/-- R111: ENCINIT, op 0x08, seeds the encoder context and nothing else; refused above NUMPIXELS_MAX. -/
def Obligations.EncinitSeedsEncoder : Prop :=
  decode (.cmd 0x08) = .ok .encinit ∧
  ∀ s : State, s.faulted = false →
    (s.numPixels.toNat ≤ 2 ^ 30 - 1 →
      exec .encinit s = .next { s with
        e := { word := 0, cnt := 0, wp := 0, prev := 0, si := 0 }, res := 0, status := 0x01 }) ∧
    (2 ^ 30 - 1 < s.numPixels.toNat → exec .encinit s = .refused .numPixelsTooLarge)

/-- R112: EMITNIB, op 0x09, appends ARG[3:0] to the accumulator. Short of the eighth nibble no memory changes; the
eighth writes the word at byte offset 4 * E.wp, changing no other byte, and empties the accumulator; without room for
the word it raises OutputBufferOverflow with E.wp. -/
def Obligations.EmitnibAppendsNibble : Prop :=
  decode (.cmd 0x09) = .ok .emitnib ∧
  ∀ s : State, s.faulted = false → s.memoriesCanonical →
    (s.e.cnt ≠ 7 →
      exec .emitnib s = .next { s with
        e := { s.e with word := (s.e.word <<< 4) ||| (s.arg.extractLsb' 0 4).setWidth 32, cnt := s.e.cnt + 1 }
        res := 0, status := 0x01 }) ∧
    (s.e.cnt = 7 → 4 * s.e.wp.toNat + 4 ≤ s.outCap.toNat →
      ∃ t, exec .emitnib s = .next t ∧
        t = { s with
          e := { s.e with word := 0, cnt := 0, wp := s.e.wp + 1 }, eSpace := t.eSpace, res := 0, status := 0x01 } ∧
        t.eSpace.readWord s.endian (4 * s.e.wp.toNat) = (s.e.word <<< 4) ||| (s.arg.extractLsb' 0 4).setWidth 32 ∧
        ∀ a, a < 4 * s.e.wp.toNat ∨ 4 * s.e.wp.toNat + 4 ≤ a → t.eSpace.read a = s.eSpace.read a) ∧
    (s.e.cnt = 7 → s.outCap.toNat < 4 * s.e.wp.toNat + 4 →
      ∃ t, exec .emitnib s = .next t ∧ FaultTaken .eSpace .outputBufferOverflow s.e.wp s t)

/-- R113: FLUSH, op 0x0A. With 1 to 7 nibbles pending it writes them, moved to the top of a word whose other bits are
0, at byte offset 4 * E.wp and empties the accumulator; with none pending it changes no memory; the result is the
number of bytes written. Without room for the word it raises OutputBufferOverflow with E.wp. -/
def Obligations.FlushEndsStream : Prop :=
  decode (.cmd 0x0A) = .ok .flush ∧
  ∀ s : State, s.faulted = false → s.memoriesCanonical → s.encoderSound →
    (s.e.cnt = 0 → exec .flush s = .next { s with res := 4 * s.e.wp, status := 0x01 }) ∧
    (s.e.cnt ≠ 0 → 4 * s.e.wp.toNat + 4 ≤ s.outCap.toNat →
      ∃ t, exec .flush s = .next t ∧
        t = { s with
          e := { s.e with word := 0, cnt := 0, wp := s.e.wp + 1 }, eSpace := t.eSpace
          res := 4 * (s.e.wp + 1), status := 0x01 } ∧
        (t.eSpace.readWord s.endian (4 * s.e.wp.toNat)).toNat = s.e.word.toNat * 16 ^ (8 - s.e.cnt.toNat) ∧
        ∀ a, a < 4 * s.e.wp.toNat ∨ 4 * s.e.wp.toNat + 4 ≤ a → t.eSpace.read a = s.eSpace.read a) ∧
    (s.e.cnt ≠ 0 → s.outCap.toNat < 4 * s.e.wp.toNat + 4 →
      ∃ t, exec .flush s = .next t ∧ FaultTaken .eSpace .outputBufferOverflow s.e.wp s t)

/-- R54: the bytes of a word in either byte order, and the word read back from where it was written; every other byte
keeps its value. -/
def Obligations.WordByteOrder : Prop :=
  ∀ (m : Memory 8) (a : Nat) (w : Word), Memory.wf m = true →
    ((m.writeWord .little a w).read a = w.extractLsb' 0 8 ∧ (m.writeWord .little a w).read (a + 1) = w.extractLsb' 8 8 ∧
      (m.writeWord .little a w).read (a + 2) = w.extractLsb' 16 8 ∧
      (m.writeWord .little a w).read (a + 3) = w.extractLsb' 24 8) ∧
    ((m.writeWord .big a w).read a = w.extractLsb' 24 8 ∧ (m.writeWord .big a w).read (a + 1) = w.extractLsb' 16 8 ∧
      (m.writeWord .big a w).read (a + 2) = w.extractLsb' 8 8 ∧
      (m.writeWord .big a w).read (a + 3) = w.extractLsb' 0 8) ∧
    ∀ en : Endian,
      (m.writeWord en a w).readWord en a = w ∧
      (∀ b, b < a ∨ a + 4 ≤ b → (m.writeWord en a w).read b = m.read b) ∧
      Memory.wf (m.writeWord en a w) = true

/-- R112, R117: the packer law. From a sound encoder context with room for the words they complete, emitting the
nibbles `ns` puts the pending nibbles and `ns`, in order, into whole words from byte offset 4 * E.wp on, the rest
staying pending; nothing else changes. -/
def Obligations.PackerKeepsNibbleOrder : Prop :=
  ∀ (s : State) (ns : List Nibble), s.memoriesCanonical → s.encoderSound → s.roomFor ns.length →
    ∃ t, emitAll ns s = .done () t ∧ Emits s ns t

/-! ### VLE encoder -/

/-- R130, R131, R132: ENCVLE, op 0x10, emits exactly the nibbles of the minimal unit of ARG; without room for a word
they complete it raises OutputBufferOverflow with the index of the first word that does not fit. -/
def Obligations.EncvleEmitsMinimalUnit : Prop :=
  decode (.cmd 0x10) = .ok .encvle ∧
  ∀ s : State, s.faulted = false → s.memoriesCanonical → s.encoderSound →
    (s.roomFor (unitLength s.arg.toNat) →
      ∃ t, Emits s (unitOf s.arg.toNat) t ∧ exec .encvle s = .next { t with res := 0, status := 0x01 }) ∧
    (¬ s.roomFor (unitLength s.arg.toNat) →
      ∃ t, exec .encvle s = .next t ∧
        FaultTaken .eSpace .outputBufferOverflow (BitVec.ofNat 32 (max s.e.wp.toNat (s.outCap.toNat / 4))) s t)

/-! ### Nibble unpacker -/

/-- R115: DECINIT, op 0x0C, seeds the decoder context, D.rem with NUMPIXELS, and nothing else; refused above
NUMPIXELS_MAX. -/
def Obligations.DecinitSeedsDecoder : Prop :=
  decode (.cmd 0x0C) = .ok .decinit ∧
  ∀ s : State, s.faulted = false →
    (s.numPixels.toNat ≤ 2 ^ 30 - 1 →
      exec .decinit s = .next { s with
        d := { word := 0, cnt := 0, rp := 0, prev := 0, so := 0, rem := s.numPixels }, res := 0, status := 0x01 }) ∧
    (2 ^ 30 - 1 < s.numPixels.toNat → exec .decinit s = .refused .numPixelsTooLarge)

/-- R116: TAKENIB, op 0x0D. With nibbles pending it shifts the word and returns its top nibble; with none it loads the
word at byte offset 4 * D.rp and returns its top nibble; where that word does not lie within IN_LEN it raises
TruncatedInput with D.rp. No memory changes when a nibble is returned. -/
def Obligations.TakenibReturnsTopNibble : Prop :=
  decode (.cmd 0x0D) = .ok .takenib ∧
  ∀ s : State, s.faulted = false →
    (s.d.cnt ≠ 0 →
      exec .takenib s = .next { s with
        d := { s.d with word := s.d.word <<< 4, cnt := s.d.cnt - 1 }
        res := ((s.d.word <<< 4).extractLsb' 28 4).setWidth 32, status := 0x01 }) ∧
    (s.d.cnt = 0 → 4 * s.d.rp.toNat + 4 ≤ s.inLen.toNat →
      exec .takenib s = .next { s with
        d := { s.d with word := s.eSpace.readWord s.endian (4 * s.d.rp.toNat), cnt := 7, rp := s.d.rp + 1 }
        res := ((s.eSpace.readWord s.endian (4 * s.d.rp.toNat)).extractLsb' 28 4).setWidth 32, status := 0x01 }) ∧
    (s.d.cnt = 0 → s.inLen.toNat < 4 * s.d.rp.toNat + 4 →
      ∃ t, exec .takenib s = .next t ∧ FaultTaken .nowhere .truncatedInput s.d.rp s t)

/-- R118: the unpacker law. After DECINIT, `m + 1` takes return nibbles 0 to m of E-space in stream order and leave
D.rp = m/8 + 1 and D.cnt = 7 - m mod 8, where that many words lie within IN_LEN; otherwise they raise TruncatedInput,
with the number of whole words of the input. -/
def Obligations.UnpackerReturnsStreamNibbles : Prop :=
  ∀ (s : State) (m : Nat), s.d.cnt = 0 → s.d.rp = 0 →
    (4 * (m / 8 + 1) ≤ s.inLen.toNat →
      ∃ t, takeAll (m + 1) s = .done ((List.range (m + 1)).map s.eNibble) t ∧
        t = { s with d := { s.d with
          word := t.d.word, cnt := BitVec.ofNat 4 (7 - m % 8), rp := BitVec.ofNat 32 (m / 8 + 1) } }) ∧
    (s.inLen.toNat < 4 * (m / 8 + 1) →
      takeAll (m + 1) s = .raised .truncatedInput (BitVec.ofNat 32 (s.inLen.toNat / 4)))

/-! ### VLE decoder -/

/-- R134, R135: DECVLE, op 0x11. When the next nibbles of the stream are one unit of at most ten nibbles, it takes
exactly those and returns the value they code; no memory changes. -/
def Obligations.DecvleReturnsUnitValue : Prop :=
  decode (.cmd 0x11) = .ok .decvle ∧
  ∀ (s : State) (ns : List Nibble), s.faulted = false → s.decoderSound →
    isUnit ns = true → ns.length ≤ 10 → (∀ k (h : k < ns.length), s.nextNibble k = some ns[k]) →
      unitValue ns < 2 ^ 30 ∧
      exec .decvle s = .next { s with
        d := s.afterTaking ns.length, vle := none, res := BitVec.ofNat 32 (unitValue ns), status := 0x01 }

/-- R134, R138, R232 (a): DECVLE and DECVAL raise VleOverlong when the next ten nibbles all have their continuation
bit set, whatever follows, and TruncatedInput when the input ends before a unit of fewer nibbles does; the info is the
number of words read. -/
def Obligations.DecvleFaults : Prop :=
  ∀ (s : State) (ns : List Nibble) (i : Instr), i = .decvle ∨ (i = .decval ∧ s.d.so < s.numPixels) →
    s.faulted = false → s.decoderSound → (∀ n ∈ ns, n.getLsbD 3 = true) →
    (∀ k (h : k < ns.length), s.nextNibble k = some ns[k]) →
      (ns.length = 10 →
        ∃ t, exec i s = .next t ∧ FaultTaken (outputRange i) .vleOverlong (s.afterTaking 10).rp s t) ∧
      (ns.length < 10 → s.nextNibble ns.length = none →
        ∃ t, exec i s = .next t ∧ FaultTaken (outputRange i) .truncatedInput (s.afterTaking ns.length).rp s t)

/-- R136: the VLE inverse law. When the next nibbles of the stream are those ENCVLE emits for `v`, DECVLE returns `v`
and takes exactly L(v) nibbles for v below 2^30, and raises VleOverlong for v from 2^30 on. -/
def Obligations.VleInverseLaw : Prop :=
  ∀ (s : State) (v : Nat), s.faulted = false → s.decoderSound → v < 2 ^ 32 →
    (∀ k, k < unitLength v → s.nextNibble k = some (unitNibble v k)) →
      (v < 2 ^ 30 →
        exec .decvle s = .next { s with
          d := s.afterTaking (unitLength v), vle := none, res := BitVec.ofNat 32 v, status := 0x01 }) ∧
      (2 ^ 30 ≤ v → ∃ t, exec .decvle s = .next t ∧ FaultTaken .nowhere .vleOverlong (s.afterTaking 10).rp s t)

/-! ### Nibble forms -/

/-- R81, R134 (run alone: the model's choice, log entry 7): the form VLE.CONT places its payload in the unit in
progress, or in a new one, and goes on; as the unit's tenth nibble it raises VleOverlong with D.rp; in FAULTED it is
refused. -/
def Obligations.VleContGoesOn : Prop :=
  ∀ (s : State) (p : Payload) (u : VleUnit), u = s.vle.getD { value := 0, k := 0 } →
    (s.faulted = true → exec (.vleCont p) s = .refused .faultPending) ∧
    (s.faulted = false →
      (∀ h : u.k.val + 1 < 10, exec (.vleCont p) s = .next { s with
        vle := some { value := u.value ||| (p.setWidth 32 <<< (3 * u.k.val)), k := ⟨u.k.val + 1, h⟩ } }) ∧
      (u.k.val = 9 → ∃ t, exec (.vleCont p) s = .next t ∧ FaultTaken .nowhere .vleOverlong s.d.rp s t))

/-- R81, R134 (run alone: the model's choice, log entry 7): the form VLE.END places its payload in the unit in
progress, or in a new one, ends it and delivers its value; in FAULTED it is refused. -/
def Obligations.VleEndDeliversValue : Prop :=
  ∀ (s : State) (p : Payload) (u : VleUnit), u = s.vle.getD { value := 0, k := 0 } →
    (s.faulted = true → exec (.vleEnd p) s = .refused .faultPending) ∧
    (s.faulted = false → exec (.vleEnd p) s = .next { s with
      vle := none, res := u.value ||| (p.setWidth 32 <<< (3 * u.k.val)), status := 0x01 })

/-- R83, R87: the forms of a whole unit, run one by one, deliver the value the unit codes and change nothing else. -/
def Obligations.NibbleFormsDeliverUnitValue : Prop :=
  ∀ (s : State) (ns : List Nibble), s.faulted = false → s.vle = none → isUnit ns = true → ns.length ≤ 10 →
    execNibbles ns s = .next { s with res := BitVec.ofNat 32 (unitValue ns), status := 0x01 }

/-! ### Run scanner -/

/-- R170: SCANZ, op 0x18, returns and consumes a run of zeros: for a cursor within the stream, the maximal run of zero
samples at it. In every case the cursor advances by the result and nothing else changes. -/
def Obligations.ScanzConsumesZeroRun : Prop :=
  decode (.cmd 0x18) = .ok .scanz ∧
  ∀ s : State, s.faulted = false →
    ∃ z : Word, exec .scanz s = .next { s with e := { s.e with si := s.e.si + z }, res := z, status := 0x01 } ∧
      (s.e.si ≤ s.numPixels →
        s.e.si.toNat + z.toNat ≤ s.numPixels.toNat ∧
        (∀ k, k < z.toNat → s.sSpace.read (s.e.si.toNat + k) = 0) ∧
        (s.e.si.toNat + z.toNat = s.numPixels.toNat ∨ s.sSpace.read (s.e.si.toNat + z.toNat) ≠ 0))

/-- R171: SCANNZ, op 0x19, returns the length of a run of nonzero samples without consuming it: for a cursor within
the stream, of the maximal one at it. Nothing else changes. -/
def Obligations.ScannzCountsNonzeroRun : Prop :=
  decode (.cmd 0x19) = .ok .scannz ∧
  ∀ s : State, s.faulted = false →
    ∃ z : Word, exec .scannz s = .next { s with res := z, status := 0x01 } ∧
      (s.e.si ≤ s.numPixels →
        s.e.si.toNat + z.toNat ≤ s.numPixels.toNat ∧
        (∀ k, k < z.toNat → s.sSpace.read (s.e.si.toNat + k) ≠ 0) ∧
        (s.e.si.toNat + z.toNat = s.numPixels.toNat ∨ s.sSpace.read (s.e.si.toNat + z.toNat) = 0))

/-- R172: ENCVAL, op 0x1A, with a sample left: it emits the minimal unit of the zigzag value of the sample's delta
against E.prev, takes the sample as the new cursor value, advances E.si and returns the sample; without room it raises
OutputBufferOverflow with the index of the first word that does not fit (R222). -/
def Obligations.EncvalCodesOneSample : Prop :=
  decode (.cmd 0x1A) = .ok .encval ∧
  ∀ (s : State) (cur : Sample) (ns : List Nibble), s.faulted = false → s.memoriesCanonical → s.encoderSound →
    s.e.si < s.numPixels → cur = s.sSpace.read s.e.si.toNat →
    ns = unitOf (zigzagInt (cur.toInt - s.e.prev.toInt)) →
      (s.roomFor ns.length →
        ∃ t, Emits { s with e := { s.e with si := s.e.si + 1, prev := cur } } ns t ∧
          exec .encval s = .next { t with res := cur.signExtend 32, status := 0x01 }) ∧
      (¬ s.roomFor ns.length →
        ∃ t, exec .encval s = .next t ∧
          FaultTaken .eSpace .outputBufferOverflow (BitVec.ofNat 32 (max s.e.wp.toNat (s.outCap.toNat / 4))) s t)

/-! ### COMPRESS -/

/-- R180, R184, R188: with room for it, COMPRESS, op 0x01, writes the canonical stream of S[0 .. NUMPIXELS-1] and pad
nibbles 0 from byte 0 of E-space, no other byte, returns its length in bytes, and leaves the encoder context that
says so; S-space and all else stay. -/
def Obligations.CompressWritesCanonicalStream : Prop :=
  decode (.cmd 0x01) = .ok .compress ∧
  ∀ (s : State) (ns : List Nibble), s.faulted = false → s.memoriesCanonical → s.numPixels.toNat ≤ 2 ^ 30 - 1 →
    ns = streamOf s.samples → streamBytes ns.length ≤ s.outCap.toNat →
      ∃ t, exec .compress s = .next t ∧
        t = { s with
          e := { word := 0, cnt := 0, wp := BitVec.ofNat 32 (streamBytes ns.length / 4)
                 prev := (s.samples.filter (· != 0)).getLastD 0, si := s.numPixels }
          eSpace := t.eSpace, res := BitVec.ofNat 32 (streamBytes ns.length), status := 0x01 } ∧
        (∀ i, i < 2 * streamBytes ns.length → t.eNibble i = ns.getD i 0) ∧
        ∀ a, streamBytes ns.length ≤ a → t.eSpace.read a = s.eSpace.read a

/-- R187, R223: without room for the stream COMPRESS raises OutputBufferOverflow at the first word that does not fit. -/
def Obligations.CompressFaultsWithoutRoom : Prop :=
  ∀ s : State, s.faulted = false → s.memoriesCanonical → s.numPixels.toNat ≤ 2 ^ 30 - 1 →
    s.outCap.toNat < streamBytes (streamOf s.samples).length →
      ∃ t, exec .compress s = .next t ∧
        FaultTaken .eSpace .outputBufferOverflow (BitVec.ofNat 32 (s.outCap.toNat / 4)) s t

/-- R185: the size bound: a stream has at most 8 nibbles for each sample, so at most 4 bytes. -/
def Obligations.StreamSizeBound : Prop :=
  ∀ xs : List Sample, (streamOf xs).length ≤ 8 * xs.length ∧ streamBytes (streamOf xs).length ≤ 4 * xs.length

/-- R185, R266: OUT_CAP ≥ 4 * NUMPIXELS guarantees that COMPRESS completes, with at most that many bytes. -/
def Obligations.CompressFitsFourBytesPerSample : Prop :=
  ∀ s : State, s.faulted = false → s.memoriesCanonical → s.numPixels.toNat ≤ 2 ^ 30 - 1 →
    4 * s.numPixels.toNat ≤ s.outCap.toNat →
      ∃ t, exec .compress s = .next t ∧ t.status = 0x01 ∧ t.res.toNat ≤ 4 * s.numPixels.toNat

/-- R182: the stream of n ≥ 1 zero samples is the unit of n and the nibble 0. -/
def Obligations.AllZeroStream : Prop :=
  ∀ n : Nat, 0 < n → streamOf (List.replicate n 0) = unitOf n ++ [0]

/-- R183, R202: with NUMPIXELS = 0 COMPRESS and DECOMPRESS complete with result 0, touching no memory, whatever
OUT_CAP and IN_LEN are. (That DECOMPRESS then drops a VLE unit in progress is the model's choice, log entry 7.) -/
def Obligations.EmptyStreamTouchesNothing : Prop :=
  ∀ s : State, s.faulted = false → s.numPixels = 0 →
    exec .compress s = .next { s with
      e := { word := 0, cnt := 0, wp := 0, prev := 0, si := 0 }, res := 0, status := 0x01 } ∧
    exec .decompress s = .next { s with
      d := { word := 0, cnt := 0, rp := 0, prev := 0, so := 0, rem := 0 }, vle := none, res := 0, status := 0x01 }

/-! ### Run reconstructor -/

/-- R190: WRZ, op 0x1C. For a count in ARG of at most D.rem it writes that many zero samples from index D.so on (a
cell at or past NUMPIXELS is outside S-space and nothing is said of it, log entry 6), advances D.so and lowers D.rem
by the count, and changes nothing else; for a larger count it raises RunOverrun with the count. -/
def Obligations.WrzWritesZeroRun : Prop :=
  decode (.cmd 0x1C) = .ok .wrz ∧
  ∀ s : State, s.faulted = false → s.memoriesCanonical →
    (s.arg ≤ s.d.rem →
      ∃ t, exec .wrz s = .next t ∧
        t = { s with
          d := { s.d with so := s.d.so + s.arg, rem := s.d.rem - s.arg }, sSpace := t.sSpace
          res := 0, status := 0x01 } ∧
        (∀ k, k < s.arg.toNat → s.d.so + BitVec.ofNat 32 k < s.numPixels →
          t.sSpace.read (s.d.so + BitVec.ofNat 32 k).toNat = 0) ∧
        ∀ j, (∀ k, k < s.arg.toNat → j ≠ (s.d.so + BitVec.ofNat 32 k).toNat) →
          t.sSpace.read j = s.sSpace.read j) ∧
    (s.d.rem < s.arg → ∃ t, exec .wrz s = .next t ∧ FaultTaken .sSpace .runOverrun s.arg s t)

/-- R191: NZRUN, op 0x1D, lowers D.rem by the count in ARG and changes nothing else; for a count above D.rem it raises
RunOverrun with the count. -/
def Obligations.NzrunAccountsForRun : Prop :=
  decode (.cmd 0x1D) = .ok .nzrun ∧
  ∀ s : State, s.faulted = false →
    (s.arg ≤ s.d.rem →
      exec .nzrun s = .next { s with d := { s.d with rem := s.d.rem - s.arg }, res := 0, status := 0x01 }) ∧
    (s.d.rem < s.arg → ∃ t, exec .nzrun s = .next t ∧ FaultTaken .nowhere .runOverrun s.arg s t)

/-- R192, R154: DECVAL, op 0x1E, with a sample still to write and a unit next in the stream: it writes the low 16 bits
of D.prev plus the unit's delta at index D.so, takes it as the new cursor value, advances D.so and returns it; no other
cell and no byte of E-space changes. -/
def Obligations.DecvalWritesOneSample : Prop :=
  decode (.cmd 0x1E) = .ok .decval ∧
  ∀ (s : State) (ns : List Nibble) (cur : Sample), s.faulted = false → s.memoriesCanonical → s.decoderSound →
    s.d.so < s.numPixels → isUnit ns = true → ns.length ≤ 10 →
    (∀ k (h : k < ns.length), s.nextNibble k = some ns[k]) →
    cur = BitVec.ofInt 16 (s.d.prev.toInt + unzigzagInt (unitValue ns)) →
      ∃ t, exec .decval s = .next t ∧
        t = { s with
          d := { s.afterTaking ns.length with so := s.d.so + 1, prev := cur }, sSpace := t.sSpace, vle := none
          res := cur.signExtend 32, status := 0x01 } ∧
        t.sSpace.read s.d.so.toNat = cur ∧
        ∀ j, j ≠ s.d.so.toNat → t.sSpace.read j = s.sSpace.read j

/-! ### DECOMPRESS -/

/-- R200, R204, R206: when E-space holds the canonical stream of NUMPIXELS samples `xs` within IN_LEN, whatever its pad
nibbles and the bytes after it, DECOMPRESS, op 0x02, completes with S[0 .. NUMPIXELS-1] = xs and result 0, having taken
exactly the stream's nibbles; no other cell and no byte of E-space changes. -/
def Obligations.DecompressDecodesCanonicalStream : Prop :=
  decode (.cmd 0x02) = .ok .decompress ∧
  ∀ (s : State) (xs : List Sample) (ns : List Nibble), s.faulted = false → s.memoriesCanonical →
    s.numPixels.toNat ≤ 2 ^ 30 - 1 → xs.length = s.numPixels.toNat → ns = streamOf xs →
    (∀ i (h : i < ns.length), s.eNibble i = ns[i]) → streamBytes ns.length ≤ s.inLen.toNat →
      ∃ t, exec .decompress s = .next t ∧
        t = { s with d := t.d, sSpace := t.sSpace, vle := none, res := 0, status := 0x01 } ∧
        t.samples = xs ∧ (∀ j, s.numPixels.toNat ≤ j → t.sSpace.read j = s.sSpace.read j) ∧
        t.d.rem = 0 ∧ t.d.so = s.numPixels ∧ t.d.prev = (xs.filter (· != 0)).getLastD 0 ∧
        8 * t.d.rp.toNat = ns.length + t.d.cnt.toNat

/-- R91, R93, R200, R204, R206: DECOMPRESS decodes every stream of the grammar, canonical or not. When the input begins
with the nibbles of legal groups that cover NUMPIXELS samples, the last of them at least one, DECOMPRESS completes with
the samples they code and result 0, having taken exactly their nibbles; no other cell and no byte of E-space changes.
Units may be longer than minimal, groups may have zeros or nonzeros 0 or both, a value may reconstruct to 0, a sum
outside 16 bits wraps. -/
def Obligations.DecompressDecodesEveryStream : Prop :=
  ∀ (s : State) (gs : List Group), s.faulted = false → s.memoriesCanonical → s.numPixels.toNat ≤ 2 ^ 30 - 1 →
    (∀ g ∈ gs, g.legal = true) → (gs.map Group.size).sum = s.numPixels.toNat → (∀ g ∈ gs.getLast?, 0 < g.size) →
    s.inputBegins (gs.flatMap Group.nibbles) →
      ∃ t, exec .decompress s = .next t ∧
        t = { s with d := t.d, sSpace := t.sSpace, vle := none, res := 0, status := 0x01 } ∧
        t.samples = samplesFrom 0 gs ∧ (∀ j, s.numPixels.toNat ≤ j → t.sSpace.read j = s.sSpace.read j) ∧
        t.d.rem = 0 ∧ t.d.so = s.numPixels ∧ t.d.prev = gs.foldl Group.cursor 0 ∧
        8 * t.d.rp.toNat = (gs.flatMap Group.nibbles).length + t.d.cnt.toNat

/-- R94, R222, R224, R225, R232: when DECOMPRESS raises each of its faults, and with what info. Let the input begin with
legal groups `gs` that leave `left` ≥ 1 samples unaccounted for and the units `us` of a group that goes on. If the input
ends there, or after fewer than ten continuing nibbles more, it raises TruncatedInput with its number of whole words; if
ten continuing nibbles follow, VleOverlong with the number of words read so far; if a run length follows that exceeds
the samples left (`zeros` before `nonzeros` is decoded), RunOverrun with that length. Last, a canonical stream cut short
raises TruncatedInput. -/
def Obligations.DecompressRaisesEachFault : Prop :=
  (∀ (s : State) (gs : List Group) (us : List (List Nibble)) (left : Nat) (ns : List Nibble),
    s.faulted = false → s.numPixels.toNat ≤ 2 ^ 30 - 1 → (∀ g ∈ gs, g.legal = true) →
    (gs.map Group.size).sum + left = s.numPixels.toNat → 0 < left → groupGoesOn left us = true →
    ns = gs.flatMap Group.nibbles ++ us.flatten →
      (∀ cs : List Nibble, (∀ c ∈ cs, c.getLsbD 3 = true) → s.inputBegins (ns ++ cs) →
        (cs.length < 10 → (ns ++ cs).length = 8 * (s.inLen.toNat / 4) →
          ∃ t, exec .decompress s = .next t ∧
            FaultTaken .sSpace .truncatedInput (BitVec.ofNat 32 (s.inLen.toNat / 4)) s t) ∧
        (cs.length = 10 →
          ∃ t, exec .decompress s = .next t ∧
            FaultTaken .sSpace .vleOverlong (BitVec.ofNat 32 (((ns ++ cs).length + 7) / 8)) s t)) ∧
      (∀ u : List Nibble, isShortUnit u = true → s.inputBegins (ns ++ u) →
        (us = [] ∧ left < unitValue u ∨ ∃ z, us = [z] ∧ left < unitValue z + unitValue u) →
          ∃ t, exec .decompress s = .next t ∧
            FaultTaken .sSpace .runOverrun (BitVec.ofNat 32 (unitValue u)) s t)) ∧
  ∀ (s : State) (xs : List Sample), s.faulted = false → s.numPixels.toNat ≤ 2 ^ 30 - 1 →
    xs.length = s.numPixels.toNat → s.inLen.toNat < streamBytes (streamOf xs).length →
    s.inputBegins ((streamOf xs).take (8 * (s.inLen.toNat / 4))) →
      ∃ t, exec .decompress s = .next t ∧
        FaultTaken .sSpace .truncatedInput (BitVec.ofNat 32 (s.inLen.toNat / 4)) s t

/-- R205: the round-trip law. With room for the T nibbles of the stream COMPRESS completes with its length as result;
then DECOMPRESS on those bytes with the same NUMPIXELS and ENDIAN, with IN_LEN at least that result and whatever stands
in S-space by then, completes, restores the samples, takes exactly T nibbles (8 * D.rp - D.cnt, R44) and reads exactly
RES/4 words. -/
def Obligations.CompressDecompressRoundTrip : Prop :=
  ∀ (s : State) (T : Nat), s.faulted = false → s.memoriesCanonical → s.numPixels.toNat ≤ 2 ^ 30 - 1 →
    T = (streamOf s.samples).length → streamBytes T ≤ s.outCap.toNat →
      ∃ t, exec .compress s = .next t ∧ t.status = 0x01 ∧ t.res.toNat = streamBytes T ∧
        ∀ (inLen : Word) (sSpace : Memory 16), Memory.wf sSpace = true → t.res ≤ inLen →
          ∃ u, exec .decompress { t with inLen := inLen, sSpace := sSpace } = .next u ∧ u.status = 0x01 ∧
            u.samples = s.samples ∧ u.eSpace = t.eSpace ∧
            8 * u.d.rp.toNat = T + u.d.cnt.toNat ∧ 4 * u.d.rp.toNat = t.res.toNat

/-- R203, R207: on every content of E-space and every IN_LEN, DECOMPRESS ends: it completes with every sample accounted
for, or takes one of its three faults. -/
def Obligations.DecompressEndsOnEveryInput : Prop :=
  ∀ s : State, s.faulted = false → s.numPixels.toNat ≤ 2 ^ 30 - 1 →
    ∃ t, exec .decompress s = .next t ∧
      ((t.status = 0x01 ∧ t.res = 0 ∧ t.d.rem = 0 ∧ t.d.so = s.numPixels) ∨
        ∃ f info, f ≠ .outputBufferOverflow ∧ FaultTaken .sSpace f info s t)

/-- R181, R203: the pass limits the model gives the two group loops (log entry 12) are never met: with more passes the
loops do the same. -/
def Obligations.GroupLoopsEndByThemselves : Prop :=
  ∀ (s : State) (fuel : Nat),
    (s.numPixels.toNat ≤ fuel →
      encodeGroups fuel (encInit s) = encodeGroups s.numPixels.toNat (encInit s)) ∧
    (s.inLen.toNat + 1 ≤ fuel →
      decodeGroups fuel (decompressStart s) = decodeGroups (s.inLen.toNat + 1) (decompressStart s))

/-! ### The whole block -/

/-- R228, R234 to R236: an operation or nibble form that ends FAULTED, having been issued in a state that was not, has
taken one of the faults listed for it, and left what a fault leaves. -/
def Obligations.OperationsRaiseOnlyTheirFaults : Prop :=
  ∀ (i : Instr) (s t : State), s.faulted = false → exec i s = .next t → t.faulted = true →
    ∃ f info, f ∈ canRaise i ∧ FaultTaken (outputRange i) f info s t

/-- R221, R38: the STATUS that records each fault. -/
def Obligations.FaultStatusWords : Prop :=
  statusFaulted .outputBufferOverflow = 0x12 ∧ statusFaulted .truncatedInput = 0x22 ∧
  statusFaulted .runOverrun = 0x32 ∧ statusFaulted .vleOverlong = 0x42

/-- R237: a fault is sticky: a step from FAULTED leaves STATUS and RES as they are, unless it is CLRF or reset. -/
def Obligations.FaultIsSticky : Prop :=
  ∀ s t : State, s.faulted = true → step s = .next t →
    (t.status = s.status ∧ t.res = s.res) ∨
      s.host.head? = some (.writeRegister 0 0x03) ∨ s.host.head? = some .reset

/-- R35, R39, R54: no instruction writes ARG, NUMPIXELS, OUT_CAP or IN_LEN, switches ENDIAN, or touches the host's
pending actions. -/
def Obligations.InstructionsNeverWriteInputs : Prop :=
  ∀ (i : Instr) (s t : State), exec i s = .next t →
    t.arg = s.arg ∧ t.numPixels = s.numPixels ∧ t.outCap = s.outCap ∧ t.inLen = s.inLen ∧ t.endian = s.endian ∧
    t.host = s.host ∧ t.tick = s.tick

/-- R45, R52: which instructions write the memories, the contexts, and the single registers of a context. Of the
memories: only five instructions write E-space and three S-space, whether they complete or fault. Of the contexts, for
instructions that end without a fault (R235): only the encoder's write E and the decoder's D, and those that write part
of a context leave its other registers. The read columns of R45 are not stated here. -/
def Obligations.AccessMatrix : Prop :=
  ∀ (i : Instr) (s t : State), exec i s = .next t →
    (i ∉ [.compress, .emitnib, .flush, .encvle, .encval] → t.eSpace = s.eSpace) ∧
    (i ∉ [.decompress, .wrz, .decval] → t.sSpace = s.sSpace) ∧
    (t.faulted = false →
      (i ∉ [.clrf, .compress, .encinit, .emitnib, .flush, .encvle, .scanz, .encval] → t.e = s.e) ∧
      (i ∈ [.emitnib, .flush, .encvle] → t.e = { s.e with word := t.e.word, cnt := t.e.cnt, wp := t.e.wp }) ∧
      (i = .scanz → t.e = { s.e with si := t.e.si }) ∧
      (i ∉ [.clrf, .decompress, .decinit, .takenib, .decvle, .wrz, .nzrun, .decval] → t.d = s.d) ∧
      (i ∈ [.takenib, .decvle] → t.d = { s.d with word := t.d.word, cnt := t.d.cnt, rp := t.d.rp }) ∧
      (i = .wrz → t.d = { s.d with so := t.d.so, rem := t.d.rem }) ∧
      (i = .nzrun → t.d = { s.d with rem := t.d.rem }) ∧
      (i = .decval → t.d.rem = s.d.rem))

/-- R62: whether it completes or faults, COMPRESS writes only E-space bytes below OUT_CAP, and DECOMPRESS only samples
below NUMPIXELS. -/
def Obligations.OrchestratorsStayInRange : Prop :=
  ∀ s t : State,
    (exec .compress s = .next t →
      t.sSpace = s.sSpace ∧ ∀ a, s.outCap.toNat ≤ a → t.eSpace.read a = s.eSpace.read a) ∧
    (exec .decompress s = .next t →
      t.eSpace = s.eSpace ∧ ∀ j, s.numPixels.toNat ≤ j → t.sSpace.read j = s.sSpace.read j)

/-- R47: no value of a context left by an earlier operation influences a COMPRESS or DECOMPRESS that completes. -/
def Obligations.ContextsDoNotInfluenceStreams : Prop :=
  ∀ (s t : State) (e : EncCtx) (d : DecCtx), t.faulted = false →
    (exec .compress s = .next t → exec .compress { s with e := e, d := d } = .next { t with d := d }) ∧
    (exec .decompress s = .next t → exec .decompress { s with e := e, d := d } = .next { t with e := e })

/-! ### Invariants -/

/-- R50, R51, R60: every step keeps both memories in their canonical form. -/
def Obligations.StepKeepsMemoriesCanonical : Prop :=
  ∀ s t : State, s.memoriesCanonical → step s = .next t → t.memoriesCanonical

/-- R38, R221: every step keeps STATUS one of its six legal values. -/
def Obligations.StepKeepsStatusLegal : Prop :=
  ∀ s t : State, s.statusLegal → step s = .next t → t.statusLegal

/-- R43, R44: every step keeps the contexts sound outside FAULTED. -/
def Obligations.StepKeepsContextsSound : Prop :=
  ∀ s t : State, s.contextsSound → step s = .next t → t.contextsSound

/-- R46: the state after reset satisfies the invariants, every register reads 0, and no fault is pending. -/
def Obligations.ResetStateIsSound : Prop :=
  State.reset.memoriesCanonical ∧ State.reset.statusLegal ∧ State.reset.contextsSound ∧
  State.reset.encoderSound ∧ State.reset.decoderSound ∧ State.reset.faulted = false ∧
  State.reset.e = { word := 0, cnt := 0, wp := 0, prev := 0, si := 0 } ∧
  State.reset.d = { word := 0, cnt := 0, rp := 0, prev := 0, so := 0, rem := 0 } ∧
  ∀ n, State.reset.readRegister n = 0
end

