-- ==== Sys2Proof/Laws/Memory.lean ====
section
/-! SUPPORT. Laws.Memory: reading after writing, and the canonical form kept by every memory operation. -/

namespace Sys2Proof.Machine

variable {w : Nat}

@[simp] theorem Memory.read_nil (a : Nat) : Memory.read ([] : Memory w) a = Config.unlistedCell w := rfl

theorem Memory.wf_cons {k : Nat} {v : BitVec w} {m : Memory w} :
    Memory.wf ((k, v) :: m) = true ↔
      v ≠ Config.unlistedCell w ∧ (∀ c ∈ m, k < c.1) ∧ Memory.wf m = true := by
  simp [Memory.wf, and_assoc]

/-- A cell below every listed address is unlisted. -/
theorem Memory.read_of_lt {m : Memory w} {a : Nat} (h : ∀ c ∈ m, a < c.1) :
    m.read a = Config.unlistedCell w := by
  induction m with
  | nil => rfl
  | cons c m ih =>
    obtain ⟨k, v⟩ := c
    have hk : a < k := h (k, v) (by simp)
    rw [Memory.read, if_neg (by omega), ih fun c hc => h c (by simp [hc])]

theorem Memory.read_consCell {m : Memory w} {a : Nat} {v : BitVec w} (h : ∀ c ∈ m, a < c.1) (b : Nat) :
    (Memory.cons a v m).read b = if b = a then v else m.read b := by
  unfold Memory.cons
  split
  next hv =>
    split
    next hb => rw [hb, Memory.read_of_lt h, hv]
    next => rfl
  next => rw [Memory.read]

/-- Addresses of a written memory: the written one or a listed one. -/
theorem Memory.mem_write {m : Memory w} {a : Nat} {v : BitVec w} {c : Nat × BitVec w} (h : c ∈ m.write a v) :
    c.1 = a ∨ c ∈ m := by
  induction m with
  | nil =>
    simp only [Memory.write, Memory.cons] at h
    split at h <;> simp_all
  | cons x m ih =>
    obtain ⟨k, y⟩ := x
    simp only [Memory.write, Memory.cons] at h
    split at h
    · split at h
      · exact .inr h
      · rcases List.mem_cons.mp h with rfl | h
        · exact .inl rfl
        · exact .inr h
    · split at h
      · split at h
        · exact .inr (List.mem_cons_of_mem _ h)
        · rcases List.mem_cons.mp h with rfl | h
          · exact .inl rfl
          · exact .inr (List.mem_cons_of_mem _ h)
      · rcases List.mem_cons.mp h with rfl | h
        · exact .inr (by simp)
        · exact (ih h).imp_right (List.mem_cons_of_mem _)

/-- Reading after writing, in a canonical memory. -/
theorem Memory.read_write {m : Memory w} (hm : Memory.wf m = true) (a : Nat) (v : BitVec w) (b : Nat) :
    (m.write a v).read b = if b = a then v else m.read b := by
  induction m with
  | nil => exact Memory.read_consCell (by simp) b
  | cons x m ih =>
    obtain ⟨k, y⟩ := x
    obtain ⟨-, hk, hm'⟩ := Memory.wf_cons.mp hm
    rw [Memory.write]
    split
    next hlt =>
      refine Memory.read_consCell ?_ b
      intro c hc
      rcases List.mem_cons.mp hc with rfl | hc
      · exact hlt
      · exact hlt.trans (hk c hc)
    next hge =>
      split
      next heq =>
        subst heq
        rw [Memory.read_consCell hk b, Memory.read]
        split <;> rfl
      next hne =>
        rw [Memory.read, Memory.read, ih hm']
        split
        next hb => rw [if_neg (by omega)]
        next => rfl

@[simp] theorem Memory.read_write_same {m : Memory w} (hm : Memory.wf m = true) (a : Nat) (v : BitVec w) :
    (m.write a v).read a = v := by
  rw [Memory.read_write hm, if_pos rfl]

/-- A write leaves every other cell alone, in any memory. -/
theorem Memory.read_write_other {m : Memory w} {a b : Nat} (v : BitVec w) (h : b ≠ a) :
    (m.write a v).read b = m.read b := by
  induction m with
  | nil =>
    simp only [Memory.write, Memory.cons]
    split <;> simp [Memory.read, h]
  | cons x m ih =>
    obtain ⟨k, y⟩ := x
    simp only [Memory.write, Memory.cons]
    split
    · split <;> simp [Memory.read, h]
    · split
      next heq => subst heq; split <;> simp [Memory.read, h]
      next => rw [Memory.read, Memory.read, ih]

theorem Memory.wf_consCell {m : Memory w} (hm : Memory.wf m = true) {a : Nat} (v : BitVec w)
    (h : ∀ c ∈ m, a < c.1) : Memory.wf (Memory.cons a v m) = true := by
  unfold Memory.cons
  split
  · exact hm
  next hv => exact Memory.wf_cons.mpr ⟨hv, h, hm⟩

/-- A write keeps the canonical form. -/
theorem Memory.wf_write {m : Memory w} (hm : Memory.wf m = true) (a : Nat) (v : BitVec w) :
    Memory.wf (m.write a v) = true := by
  induction m with
  | nil => exact Memory.wf_consCell rfl v (by simp)
  | cons x m ih =>
    obtain ⟨k, y⟩ := x
    obtain ⟨hy, hk, hm'⟩ := Memory.wf_cons.mp hm
    rw [Memory.write]
    split
    next hlt =>
      refine Memory.wf_consCell hm v ?_
      intro c hc
      rcases List.mem_cons.mp hc with rfl | hc
      · exact hlt
      · exact hlt.trans (hk c hc)
    next hge =>
      split
      next heq => subst heq; exact Memory.wf_consCell hm' v hk
      next hne =>
        refine Memory.wf_cons.mpr ⟨hy, fun c hc => ?_, ih hm'⟩
        rcases Memory.mem_write hc with h | h
        · omega
        · exact hk c h

/-- A fill keeps the canonical form. -/
theorem Memory.wf_fill {m : Memory w} (hm : Memory.wf m = true) (f : Nat → BitVec w) (n : Nat) :
    Memory.wf (m.fill f n) = true := by
  induction n with
  | zero => exact hm
  | succ n ih => exact Memory.wf_write ih n (f n)

/-- A fill of the cells below `n` leaves the others alone. -/
theorem Memory.read_fill_of_le (m : Memory w) (f : Nat → BitVec w) {n a : Nat} (h : n ≤ a) :
    (m.fill f n).read a = m.read a := by
  induction n with
  | zero => rfl
  | succ n ih => rw [Memory.fill, Memory.read_write_other _ (by omega), ih (by omega)]

/-! ### Words -/

theorem Memory.wf_writeWord {m : Memory 8} (hm : Memory.wf m = true) (en : Endian) (a : Nat) (v : Word) :
    Memory.wf (m.writeWord en a v) = true :=
  Memory.wf_write (Memory.wf_write (Memory.wf_write (Memory.wf_write hm _ _) _ _) _ _) _ _

/-- A word write leaves every byte outside its four alone, in any memory. -/
theorem Memory.read_writeWord_other (m : Memory 8) (en : Endian) {a b : Nat} (v : Word) (h : b < a ∨ a + 4 ≤ b) :
    (m.writeWord en a v).read b = m.read b := by
  simp only [Memory.writeWord]
  rw [Memory.read_write_other _ (by omega), Memory.read_write_other _ (by omega),
    Memory.read_write_other _ (by omega), Memory.read_write_other _ (by omega)]

/-- The four bytes a word write leaves. -/
theorem Memory.read_writeWord_byte {m : Memory 8} (hm : Memory.wf m = true) (en : Endian) (a : Nat) (v : Word)
    {j : Nat} (hj : j < 4) : (m.writeWord en a v).read (a + j) = wordByte en v j := by
  have h0 := Memory.wf_write hm a (wordByte en v 0)
  have h1 := Memory.wf_write h0 (a + 1) (wordByte en v 1)
  have h2 := Memory.wf_write h1 (a + 2) (wordByte en v 2)
  simp only [Memory.writeWord, Memory.read_write h2, Memory.read_write h1, Memory.read_write h0, Memory.read_write hm]
  rcases (by omega : j = 0 ∨ j = 1 ∨ j = 2 ∨ j = 3) with rfl | rfl | rfl | rfl <;> simp

/-- The bytes of a word put together again. -/
theorem wordOfBytes_wordByte (en : Endian) (v : Word) :
    wordOfBytes en (wordByte en v 0) (wordByte en v 1) (wordByte en v 2) (wordByte en v 3) = v := by
  cases en <;> simp only [wordOfBytes, wordByte] <;> ext i hi <;>
    simp only [BitVec.getElem_append, BitVec.getElem_extractLsb'] <;>
    (repeat' split) <;> (rw [BitVec.getLsbD_eq_getElem (by omega)]; congr 1; omega)

/-- A word read back from where it was written. -/
theorem Memory.readWord_writeWord {m : Memory 8} (hm : Memory.wf m = true) (en : Endian) (a : Nat) (v : Word) :
    (m.writeWord en a v).readWord en a = v := by
  have h0 := Memory.read_writeWord_byte hm en a v (j := 0) (by omega)
  rw [Nat.add_zero] at h0
  rw [Memory.readWord, h0, Memory.read_writeWord_byte hm en a v (j := 1) (by omega),
    Memory.read_writeWord_byte hm en a v (j := 2) (by omega), Memory.read_writeWord_byte hm en a v (j := 3) (by omega),
    wordOfBytes_wordByte]

/-- A word read elsewhere is not touched by a word write. -/
theorem Memory.readWord_writeWord_other (m : Memory 8) (en : Endian) {a b : Nat} (v : Word) (h : b + 4 ≤ a ∨ a + 4 ≤ b) :
    (m.writeWord en a v).readWord en b = m.readWord en b := by
  simp only [Memory.readWord]
  rw [Memory.read_writeWord_other _ _ _ (by omega), Memory.read_writeWord_other _ _ _ (by omega),
    Memory.read_writeWord_other _ _ _ (by omega), Memory.read_writeWord_other _ _ _ (by omega)]

end Sys2Proof.Machine
end

