-- ==== Sys2Proof/Laws/Run.lean ====
section
/-! SUPPORT. Laws.Run: sequencing of bodies, and everything issuing an operation can do. -/

namespace Sys2Proof.Machine

variable {α β : Type}

@[simp] theorem Run.bind_done (r : α) (s : State) (f : α → State → Run β) : (Run.done r s).bind f = f r s := rfl

@[simp] theorem Run.bind_raised (c : FaultCause) (info : Word) (f : α → State → Run β) :
    (Run.raised c info : Run α).bind f = .raised c info := rfl

theorem Run.bind_eq_done {x : Run α} {f : α → State → Run β} {r : β} {t : State} :
    x.bind f = .done r t ↔ ∃ a u, x = .done a u ∧ f a u = .done r t := by
  cases x <;> simp

theorem Run.bind_eq_raised {x : Run α} {f : α → State → Run β} {c : FaultCause} {info : Word} :
    x.bind f = .raised c info ↔ x = .raised c info ∨ ∃ a u, x = .done a u ∧ f a u = .raised c info := by
  cases x <;> simp

theorem Run.bind_assoc {γ : Type} (x : Run α) (f : α → State → Run β) (g : β → State → Run γ) :
    (x.bind f).bind g = x.bind fun a s => (f a s).bind g := by
  cases x <;> rfl

/-! ### Issue -/

theorem finish_done (s t : State) (out : OutputRange) (r : Word) : finish s out (.done r t) = .next (complete r t) := rfl

theorem finish_raised (s : State) (out : OutputRange) (f : FaultCause) (info : Word) :
    finish s out (.raised f info) = .next (takeFault out f info s) := rfl

/-- R214 (a). -/
theorem issue_faulted {s : State} (h : s.faulted = true) (out : OutputRange) (p : Option Refusal) (b : State → Run Word) :
    issue s out p b = .refused .faultPending := by
  simp [issue, h]

/-- R214 (b), (c). -/
theorem issue_refused {s : State} (h : s.faulted = false) (out : OutputRange) (r : Refusal) (b : State → Run Word) :
    issue s out (some r) b = .refused r := by
  simp [issue, h]

theorem issue_run {s : State} (h : s.faulted = false) (out : OutputRange) (b : State → Run Word) :
    issue s out none b = finish s out (b s) := by
  simp [issue, h]

/-- R210: everything the issue of an operation can do, when it answers a next state. -/
theorem issue_eq_next {s t : State} {out : OutputRange} {p : Option Refusal} {b : State → Run Word} :
    issue s out p b = .next t ↔
      s.faulted = false ∧ p = none ∧
        ((∃ r u, b s = .done r u ∧ t = complete r u) ∨
          (∃ f info, b s = .raised f info ∧ t = takeFault out f info s)) := by
  cases hf : s.faulted
  · cases p with
    | none =>
      cases hb : b s <;> simp [issue_run hf, hb, finish, eq_comm]
    | some r => simp [issue_refused hf]
  · simp [issue_faulted hf]

/-- No operation stops with a fault of the machine's own. -/
theorem issue_ne_fault (s : State) (out : OutputRange) (p : Option Refusal) (b : State → Run Word) (r : Fault) :
    issue s out p b ≠ .fault r := nomatch r

@[simp] theorem streamStartRefusal_none {s : State} : streamStartRefusal s = none ↔ s.numPixels ≤ Config.numPixelsMax := by
  unfold streamStartRefusal
  split
  next h => simp only [reduceCtorEq, false_iff, BitVec.not_le]; exact h
  next h => simp only [true_iff]; exact BitVec.not_lt.mp h

/-! ### STATUS -/

@[simp] theorem faulted_complete (r : Word) (s : State) : (complete r s).faulted = false := rfl

@[simp] theorem faulted_takeFault (out : OutputRange) (f : FaultCause) (info : Word) (s : State) :
    (takeFault out f info s).faulted = true := by
  show ((statusFaulted f).extractLsb' 0 2 == 2) = true
  cases f <;> decide

@[simp] theorem faulted_leaveFault (s : State) : (leaveFault s).faulted = false := rfl

@[simp] theorem faulted_resetBlock (s : State) : (resetBlock s).faulted = false := rfl

/-- `faulted` reads nothing but STATUS. -/
theorem faulted_congr {s t : State} (h : t.status = s.status) : t.faulted = s.faulted := by
  simp [State.faulted, State.statusState, h]

end Sys2Proof.Machine
end

