-- ==== Sys2Proof/Laws/State.lean ====
section
/-! SUPPORT. Laws.State: one lemma per field of State per named update, true by rfl, so that no proof unfolds a record
update. -/

namespace Sys2Proof.Machine

variable (s : State)

/-! ### `complete` -/
@[simp] theorem complete_e (r : Word) : (complete r s).e = s.e := rfl
@[simp] theorem complete_d (r : Word) : (complete r s).d = s.d := rfl
@[simp] theorem complete_arg (r : Word) : (complete r s).arg = s.arg := rfl
@[simp] theorem complete_res (r : Word) : (complete r s).res = r := rfl
@[simp] theorem complete_numPixels (r : Word) : (complete r s).numPixels = s.numPixels := rfl
@[simp] theorem complete_outCap (r : Word) : (complete r s).outCap = s.outCap := rfl
@[simp] theorem complete_inLen (r : Word) : (complete r s).inLen = s.inLen := rfl
@[simp] theorem complete_status (r : Word) : (complete r s).status = statusDone := rfl
@[simp] theorem complete_sSpace (r : Word) : (complete r s).sSpace = s.sSpace := rfl
@[simp] theorem complete_eSpace (r : Word) : (complete r s).eSpace = s.eSpace := rfl
@[simp] theorem complete_endian (r : Word) : (complete r s).endian = s.endian := rfl
@[simp] theorem complete_vle (r : Word) : (complete r s).vle = s.vle := rfl
@[simp] theorem complete_host (r : Word) : (complete r s).host = s.host := rfl
@[simp] theorem complete_tick (r : Word) : (complete r s).tick = s.tick := rfl

/-! ### `leaveFault` -/
@[simp] theorem leaveFault_e : (leaveFault s).e = EncCtx.zero := rfl
@[simp] theorem leaveFault_d : (leaveFault s).d = DecCtx.zero := rfl
@[simp] theorem leaveFault_arg : (leaveFault s).arg = s.arg := rfl
@[simp] theorem leaveFault_res : (leaveFault s).res = 0 := rfl
@[simp] theorem leaveFault_numPixels : (leaveFault s).numPixels = s.numPixels := rfl
@[simp] theorem leaveFault_outCap : (leaveFault s).outCap = s.outCap := rfl
@[simp] theorem leaveFault_inLen : (leaveFault s).inLen = s.inLen := rfl
@[simp] theorem leaveFault_status : (leaveFault s).status = statusIdle := rfl
@[simp] theorem leaveFault_sSpace : (leaveFault s).sSpace = s.sSpace := rfl
@[simp] theorem leaveFault_eSpace : (leaveFault s).eSpace = s.eSpace := rfl
@[simp] theorem leaveFault_endian : (leaveFault s).endian = s.endian := rfl
@[simp] theorem leaveFault_vle : (leaveFault s).vle = none := rfl
@[simp] theorem leaveFault_host : (leaveFault s).host = s.host := rfl
@[simp] theorem leaveFault_tick : (leaveFault s).tick = s.tick := rfl

/-! ### `resetBlock` -/
@[simp] theorem resetBlock_e : (resetBlock s).e = EncCtx.zero := rfl
@[simp] theorem resetBlock_d : (resetBlock s).d = DecCtx.zero := rfl
@[simp] theorem resetBlock_arg : (resetBlock s).arg = 0 := rfl
@[simp] theorem resetBlock_res : (resetBlock s).res = 0 := rfl
@[simp] theorem resetBlock_numPixels : (resetBlock s).numPixels = 0 := rfl
@[simp] theorem resetBlock_outCap : (resetBlock s).outCap = 0 := rfl
@[simp] theorem resetBlock_inLen : (resetBlock s).inLen = 0 := rfl
@[simp] theorem resetBlock_status : (resetBlock s).status = statusIdle := rfl
@[simp] theorem resetBlock_sSpace : (resetBlock s).sSpace = s.sSpace := rfl
@[simp] theorem resetBlock_eSpace : (resetBlock s).eSpace = s.eSpace := rfl
@[simp] theorem resetBlock_endian : (resetBlock s).endian = s.endian := rfl
@[simp] theorem resetBlock_vle : (resetBlock s).vle = none := rfl
@[simp] theorem resetBlock_host : (resetBlock s).host = s.host := rfl
@[simp] theorem resetBlock_tick : (resetBlock s).tick = s.tick := rfl

/-! ### `encInit` -/
@[simp] theorem encInit_e : (encInit s).e = EncCtx.zero := rfl
@[simp] theorem encInit_d : (encInit s).d = s.d := rfl
@[simp] theorem encInit_arg : (encInit s).arg = s.arg := rfl
@[simp] theorem encInit_res : (encInit s).res = s.res := rfl
@[simp] theorem encInit_numPixels : (encInit s).numPixels = s.numPixels := rfl
@[simp] theorem encInit_outCap : (encInit s).outCap = s.outCap := rfl
@[simp] theorem encInit_inLen : (encInit s).inLen = s.inLen := rfl
@[simp] theorem encInit_status : (encInit s).status = s.status := rfl
@[simp] theorem encInit_sSpace : (encInit s).sSpace = s.sSpace := rfl
@[simp] theorem encInit_eSpace : (encInit s).eSpace = s.eSpace := rfl
@[simp] theorem encInit_endian : (encInit s).endian = s.endian := rfl
@[simp] theorem encInit_vle : (encInit s).vle = s.vle := rfl
@[simp] theorem encInit_host : (encInit s).host = s.host := rfl
@[simp] theorem encInit_tick : (encInit s).tick = s.tick := rfl

/-! ### `decInit` -/
@[simp] theorem decInit_e : (decInit s).e = s.e := rfl
@[simp] theorem decInit_d : (decInit s).d = { DecCtx.zero with rem := s.numPixels } := rfl
@[simp] theorem decInit_arg : (decInit s).arg = s.arg := rfl
@[simp] theorem decInit_res : (decInit s).res = s.res := rfl
@[simp] theorem decInit_numPixels : (decInit s).numPixels = s.numPixels := rfl
@[simp] theorem decInit_outCap : (decInit s).outCap = s.outCap := rfl
@[simp] theorem decInit_inLen : (decInit s).inLen = s.inLen := rfl
@[simp] theorem decInit_status : (decInit s).status = s.status := rfl
@[simp] theorem decInit_sSpace : (decInit s).sSpace = s.sSpace := rfl
@[simp] theorem decInit_eSpace : (decInit s).eSpace = s.eSpace := rfl
@[simp] theorem decInit_endian : (decInit s).endian = s.endian := rfl
@[simp] theorem decInit_vle : (decInit s).vle = s.vle := rfl
@[simp] theorem decInit_host : (decInit s).host = s.host := rfl
@[simp] theorem decInit_tick : (decInit s).tick = s.tick := rfl

/-! ### `decompressStart` -/
@[simp] theorem decompressStart_e : (decompressStart s).e = s.e := rfl
@[simp] theorem decompressStart_d : (decompressStart s).d = { DecCtx.zero with rem := s.numPixels } := rfl
@[simp] theorem decompressStart_arg : (decompressStart s).arg = s.arg := rfl
@[simp] theorem decompressStart_res : (decompressStart s).res = s.res := rfl
@[simp] theorem decompressStart_numPixels : (decompressStart s).numPixels = s.numPixels := rfl
@[simp] theorem decompressStart_outCap : (decompressStart s).outCap = s.outCap := rfl
@[simp] theorem decompressStart_inLen : (decompressStart s).inLen = s.inLen := rfl
@[simp] theorem decompressStart_status : (decompressStart s).status = s.status := rfl
@[simp] theorem decompressStart_sSpace : (decompressStart s).sSpace = s.sSpace := rfl
@[simp] theorem decompressStart_eSpace : (decompressStart s).eSpace = s.eSpace := rfl
@[simp] theorem decompressStart_endian : (decompressStart s).endian = s.endian := rfl
@[simp] theorem decompressStart_vle : (decompressStart s).vle = none := rfl
@[simp] theorem decompressStart_host : (decompressStart s).host = s.host := rfl
@[simp] theorem decompressStart_tick : (decompressStart s).tick = s.tick := rfl

/-! ### `sWrite` -/
@[simp] theorem sWrite_e (i : Word) (v : Sample) : (sWrite s i v).e = s.e := rfl
@[simp] theorem sWrite_d (i : Word) (v : Sample) : (sWrite s i v).d = s.d := rfl
@[simp] theorem sWrite_arg (i : Word) (v : Sample) : (sWrite s i v).arg = s.arg := rfl
@[simp] theorem sWrite_res (i : Word) (v : Sample) : (sWrite s i v).res = s.res := rfl
@[simp] theorem sWrite_numPixels (i : Word) (v : Sample) : (sWrite s i v).numPixels = s.numPixels := rfl
@[simp] theorem sWrite_outCap (i : Word) (v : Sample) : (sWrite s i v).outCap = s.outCap := rfl
@[simp] theorem sWrite_inLen (i : Word) (v : Sample) : (sWrite s i v).inLen = s.inLen := rfl
@[simp] theorem sWrite_status (i : Word) (v : Sample) : (sWrite s i v).status = s.status := rfl
@[simp] theorem sWrite_sSpace (i : Word) (v : Sample) : (sWrite s i v).sSpace = s.sSpace.write i.toNat
      (if i < s.numPixels then v else Config.outsideWrite s.tick i.toNat (s.sSpace.read i.toNat) v) := rfl
@[simp] theorem sWrite_eSpace (i : Word) (v : Sample) : (sWrite s i v).eSpace = s.eSpace := rfl
@[simp] theorem sWrite_endian (i : Word) (v : Sample) : (sWrite s i v).endian = s.endian := rfl
@[simp] theorem sWrite_vle (i : Word) (v : Sample) : (sWrite s i v).vle = s.vle := rfl
@[simp] theorem sWrite_host (i : Word) (v : Sample) : (sWrite s i v).host = s.host := rfl
@[simp] theorem sWrite_tick (i : Word) (v : Sample) : (sWrite s i v).tick = s.tick := rfl

/-! ### `afterFetch` -/
@[simp] theorem afterFetch_e : (s.afterFetch).e = s.e := rfl
@[simp] theorem afterFetch_d : (s.afterFetch).d = s.d := rfl
@[simp] theorem afterFetch_arg : (s.afterFetch).arg = s.arg := rfl
@[simp] theorem afterFetch_res : (s.afterFetch).res = s.res := rfl
@[simp] theorem afterFetch_numPixels : (s.afterFetch).numPixels = s.numPixels := rfl
@[simp] theorem afterFetch_outCap : (s.afterFetch).outCap = s.outCap := rfl
@[simp] theorem afterFetch_inLen : (s.afterFetch).inLen = s.inLen := rfl
@[simp] theorem afterFetch_status : (s.afterFetch).status = s.status := rfl
@[simp] theorem afterFetch_sSpace : (s.afterFetch).sSpace = s.sSpace := rfl
@[simp] theorem afterFetch_eSpace : (s.afterFetch).eSpace = s.eSpace := rfl
@[simp] theorem afterFetch_endian : (s.afterFetch).endian = s.endian := rfl
@[simp] theorem afterFetch_vle : (s.afterFetch).vle = s.vle := rfl
@[simp] theorem afterFetch_host : (s.afterFetch).host = s.host.tail := rfl
@[simp] theorem afterFetch_tick : (s.afterFetch).tick = s.tick + 1 := rfl

/-! ### `takeFault` -/
variable (out : OutputRange) (f : FaultCause) (info : Word)

@[simp] theorem takeFault_e : (takeFault out f info s).e = faultEncCtx s.tick := rfl
@[simp] theorem takeFault_d : (takeFault out f info s).d = faultDecCtx s.tick := rfl
@[simp] theorem takeFault_arg : (takeFault out f info s).arg = s.arg := rfl
@[simp] theorem takeFault_res : (takeFault out f info s).res = info := rfl
@[simp] theorem takeFault_numPixels : (takeFault out f info s).numPixels = s.numPixels := rfl
@[simp] theorem takeFault_outCap : (takeFault out f info s).outCap = s.outCap := rfl
@[simp] theorem takeFault_inLen : (takeFault out f info s).inLen = s.inLen := rfl
@[simp] theorem takeFault_status : (takeFault out f info s).status = statusFaulted f := rfl
@[simp] theorem takeFault_sSpace :
    (takeFault out f info s).sSpace =
      if out = .sSpace then s.sSpace.fill (Config.afterFaultSample s.tick) s.numPixels.toNat else s.sSpace := rfl
@[simp] theorem takeFault_eSpace :
    (takeFault out f info s).eSpace =
      if out = .eSpace then s.eSpace.fill (Config.afterFaultByte s.tick) s.outCap.toNat else s.eSpace := rfl
@[simp] theorem takeFault_endian : (takeFault out f info s).endian = s.endian := rfl
@[simp] theorem takeFault_vle : (takeFault out f info s).vle = none := rfl
@[simp] theorem takeFault_host : (takeFault out f info s).host = s.host := rfl
@[simp] theorem takeFault_tick : (takeFault out f info s).tick = s.tick := rfl

end Sys2Proof.Machine
end

