-- ==== Sys2Proof/Laws/Primitives.lean ====
section
/-! SUPPORT. Laws.Primitives: for each shared operation, once, everything it can do: the memory primitives, the packer,
the unpacker, the passes of the VLE decoder, the run-length checks, and taking a fault. -/

namespace Sys2Proof.Machine

variable {s t : State}

/-! ### Samples -/

theorem sRead_inside {i : Word} (h : i < s.numPixels) : sRead s i = s.sSpace.read i.toNat := if_pos h

theorem sRead_outside {i : Word} (h : ¬ i < s.numPixels) : sRead s i = Config.outsideRead s.tick i.toNat := if_neg h

theorem sWrite_inside {i : Word} (h : i < s.numPixels) (v : Sample) :
    sWrite s i v = { s with sSpace := s.sSpace.write i.toNat v } := by
  simp [sWrite, h]

theorem sWrite_read_other (i : Word) (v : Sample) {j : Nat} (h : j ≠ i.toNat) :
    (sWrite s i v).sSpace.read j = s.sSpace.read j :=
  Memory.read_write_other _ h

theorem sWrite_wf (hm : Memory.wf s.sSpace = true) (i : Word) (v : Sample) : Memory.wf (sWrite s i v).sSpace = true :=
  Memory.wf_write hm _ _

/-! ### Words of E-space -/

/-- R70: what `WriteWord` does when it completes. -/
theorem writeWord_eq_done {w : Word} :
    writeWord w s = .done () t ↔
      4 * s.e.wp.toNat + 4 ≤ s.outCap.toNat ∧
        t = { s with
          eSpace := s.eSpace.writeWord s.endian (4 * s.e.wp.toNat) w, e := { s.e with wp := s.e.wp + 1 } } := by
  unfold writeWord
  split
  next h => simp only [reduceCtorEq, false_iff, not_and]; omega
  next h => simp only [Run.done.injEq, true_and, eq_comm (a := t)]; exact ⟨fun e => ⟨by omega, e⟩, fun e => e.2⟩

/-- R70: when `WriteWord` raises, and what. -/
theorem writeWord_eq_raised {w : Word} {f : FaultCause} {info : Word} :
    writeWord w s = .raised f info ↔
      s.outCap.toNat < 4 * s.e.wp.toNat + 4 ∧ f = .outputBufferOverflow ∧ info = s.e.wp := by
  unfold writeWord
  split
  next h => simp only [Run.raised.injEq, eq_comm (a := f), eq_comm (a := info)]; exact ⟨fun e => ⟨h, e⟩, fun e => e.2⟩
  next h => simp only [reduceCtorEq, false_iff, not_and]; omega

/-- R71: what `ReadWord` does when it completes. -/
theorem readWord_eq_done {w : Word} :
    readWord s = .done w t ↔
      4 * s.d.rp.toNat + 4 ≤ s.inLen.toNat ∧ w = s.eSpace.readWord s.endian (4 * s.d.rp.toNat) ∧
        t = { s with d := { s.d with rp := s.d.rp + 1 } } := by
  unfold readWord
  split
  next h => simp only [reduceCtorEq, false_iff, not_and]; omega
  next h =>
    simp only [Run.done.injEq, eq_comm (a := w), eq_comm (a := t)]; exact ⟨fun e => ⟨by omega, e⟩, fun e => e.2⟩

/-- R71: when `ReadWord` raises, and what. -/
theorem readWord_eq_raised {f : FaultCause} {info : Word} :
    readWord s = .raised f info ↔
      s.inLen.toNat < 4 * s.d.rp.toNat + 4 ∧ f = .truncatedInput ∧ info = s.d.rp := by
  unfold readWord
  split
  next h => simp only [Run.raised.injEq, eq_comm (a := f), eq_comm (a := info)]; exact ⟨fun e => ⟨h, e⟩, fun e => e.2⟩
  next h => simp only [reduceCtorEq, false_iff, not_and]; omega

/-! ### The packer -/

/-- R112: a nibble that does not complete a word. -/
theorem emitNibble_short {n : Nibble} (h : s.e.cnt + 1 ≠ 8) :
    emitNibble n s =
      .done () { s with e := { s.e with word := (s.e.word <<< 4) ||| n.setWidth 32, cnt := s.e.cnt + 1 } } := by
  simp only [emitNibble, if_neg h]

/-- R112: the eighth nibble, with room for its word. -/
theorem emitNibble_full {n : Nibble} (h : s.e.cnt + 1 = 8) (hr : 4 * s.e.wp.toNat + 4 ≤ s.outCap.toNat) :
    emitNibble n s =
      .done () { s with
        eSpace := s.eSpace.writeWord s.endian (4 * s.e.wp.toNat) ((s.e.word <<< 4) ||| n.setWidth 32)
        e := { s.e with word := 0, cnt := 0, wp := s.e.wp + 1 } } := by
  simp only [emitNibble, if_pos h, writeWord, gt_iff_lt, if_neg (Nat.not_lt.mpr hr), Run.bind_done]

/-- R112: the eighth nibble, without room for its word. -/
theorem emitNibble_overflow {n : Nibble} (h : s.e.cnt + 1 = 8) (hr : s.outCap.toNat < 4 * s.e.wp.toNat + 4) :
    emitNibble n s = .raised .outputBufferOverflow s.e.wp := by
  simp only [emitNibble, if_pos h, writeWord, gt_iff_lt, if_pos hr, Run.bind_raised]

/-- R112: everything `EMITNIB` can do when it completes. -/
theorem emitNibble_eq_done {n : Nibble} :
    emitNibble n s = .done () t ↔
      (s.e.cnt + 1 ≠ 8 ∧
          t = { s with e := { s.e with word := (s.e.word <<< 4) ||| n.setWidth 32, cnt := s.e.cnt + 1 } }) ∨
        (s.e.cnt + 1 = 8 ∧ 4 * s.e.wp.toNat + 4 ≤ s.outCap.toNat ∧
          t = { s with
            eSpace := s.eSpace.writeWord s.endian (4 * s.e.wp.toNat) ((s.e.word <<< 4) ||| n.setWidth 32)
            e := { s.e with word := 0, cnt := 0, wp := s.e.wp + 1 } }) := by
  by_cases h : s.e.cnt + 1 = 8
  · rcases Nat.lt_or_ge s.outCap.toNat (4 * s.e.wp.toNat + 4) with hr | hr
    · simp only [emitNibble_overflow h hr, reduceCtorEq, h, ne_eq, not_true_eq_false, false_and, true_and, false_or,
        false_iff, not_and]
      omega
    · simp only [emitNibble_full h hr, h, hr, ne_eq, not_true_eq_false, false_and, true_and, false_or,
        Run.done.injEq, eq_comm (a := t)]
  · simp only [emitNibble_short h, h, ne_eq, not_false_eq_true, true_and, false_and, or_false, Run.done.injEq,
      eq_comm (a := t)]

/-- R112: when `EMITNIB` raises, and what. -/
theorem emitNibble_eq_raised {n : Nibble} {f : FaultCause} {info : Word} :
    emitNibble n s = .raised f info ↔
      s.e.cnt + 1 = 8 ∧ s.outCap.toNat < 4 * s.e.wp.toNat + 4 ∧ f = .outputBufferOverflow ∧ info = s.e.wp := by
  by_cases h : s.e.cnt + 1 = 8
  · rcases Nat.lt_or_ge s.outCap.toNat (4 * s.e.wp.toNat + 4) with hr | hr
    · simp only [emitNibble_overflow h hr, h, hr, true_and, Run.raised.injEq, eq_comm (a := f), eq_comm (a := info)]
    · simp only [emitNibble_full h hr, reduceCtorEq, h, true_and, false_iff, not_and]
      omega
  · simp only [emitNibble_short h, reduceCtorEq, h, false_and]

/-- R113: a flush with nothing pending. -/
theorem flushPacker_empty (h : s.e.cnt = 0) : flushPacker s = .done () s := by
  simp [flushPacker, h]

/-- R113: a flush of a partial word, with room for it. -/
theorem flushPacker_full (h : s.e.cnt ≠ 0) (hr : 4 * s.e.wp.toNat + 4 ≤ s.outCap.toNat) :
    flushPacker s =
      .done () { s with
        eSpace := s.eSpace.writeWord s.endian (4 * s.e.wp.toNat) (flushedWord s.e)
        e := { s.e with word := 0, cnt := 0, wp := s.e.wp + 1 } } := by
  simp only [flushPacker, ne_eq, h, not_false_eq_true, if_true, writeWord, gt_iff_lt, if_neg (Nat.not_lt.mpr hr),
    Run.bind_done]

/-- R113: a flush of a partial word, without room for it. -/
theorem flushPacker_overflow (h : s.e.cnt ≠ 0) (hr : s.outCap.toNat < 4 * s.e.wp.toNat + 4) :
    flushPacker s = .raised .outputBufferOverflow s.e.wp := by
  simp only [flushPacker, ne_eq, h, not_false_eq_true, if_true, writeWord, gt_iff_lt, if_pos hr, Run.bind_raised]

/-! ### The unpacker -/

/-- R116: a nibble of the current word. -/
theorem takeNibble_shift (h : s.d.cnt ≠ 0) :
    takeNibble s =
      .done ((s.d.word <<< 4).extractLsb' 28 4)
        { s with d := { s.d with word := s.d.word <<< 4, cnt := s.d.cnt - 1 } } := by
  simp only [takeNibble, if_neg h, topNibble]

/-- R116: the first nibble of a new word. -/
theorem takeNibble_load (h : s.d.cnt = 0) (hr : 4 * s.d.rp.toNat + 4 ≤ s.inLen.toNat) :
    takeNibble s =
      .done ((s.eSpace.readWord s.endian (4 * s.d.rp.toNat)).extractLsb' 28 4)
        { s with d := { s.d with
          word := s.eSpace.readWord s.endian (4 * s.d.rp.toNat), cnt := 7, rp := s.d.rp + 1 } } := by
  simp only [takeNibble, if_pos h, readWord, gt_iff_lt, if_neg (Nat.not_lt.mpr hr), Run.bind_done, topNibble]
  rfl

/-- R116: a new word is needed and the input is exhausted. -/
theorem takeNibble_truncated (h : s.d.cnt = 0) (hr : s.inLen.toNat < 4 * s.d.rp.toNat + 4) :
    takeNibble s = .raised .truncatedInput s.d.rp := by
  simp only [takeNibble, if_pos h, readWord, gt_iff_lt, if_pos hr, Run.bind_raised]

/-- R116: everything `TAKENIB` can do when it completes. -/
theorem takeNibble_eq_done {n : Nibble} :
    takeNibble s = .done n t ↔
      (s.d.cnt ≠ 0 ∧ n = (s.d.word <<< 4).extractLsb' 28 4 ∧
          t = { s with d := { s.d with word := s.d.word <<< 4, cnt := s.d.cnt - 1 } }) ∨
        (s.d.cnt = 0 ∧ 4 * s.d.rp.toNat + 4 ≤ s.inLen.toNat ∧
          n = (s.eSpace.readWord s.endian (4 * s.d.rp.toNat)).extractLsb' 28 4 ∧
          t = { s with d := { s.d with
            word := s.eSpace.readWord s.endian (4 * s.d.rp.toNat), cnt := 7, rp := s.d.rp + 1 } }) := by
  by_cases h : s.d.cnt = 0
  · rcases Nat.lt_or_ge s.inLen.toNat (4 * s.d.rp.toNat + 4) with hr | hr
    · simp only [takeNibble_truncated h hr, reduceCtorEq, h, ne_eq, not_true_eq_false, false_and, true_and, false_or,
        false_iff, not_and]
      omega
    · simp only [takeNibble_load h hr, h, hr, ne_eq, not_true_eq_false, false_and, true_and, false_or,
        Run.done.injEq, eq_comm (a := t), eq_comm (a := n)]
  · simp only [takeNibble_shift h, h, ne_eq, not_false_eq_true, true_and, false_and, or_false, Run.done.injEq,
      eq_comm (a := t), eq_comm (a := n)]

/-- R116: when `TAKENIB` raises, and what. -/
theorem takeNibble_eq_raised {f : FaultCause} {info : Word} :
    takeNibble s = .raised f info ↔
      s.d.cnt = 0 ∧ s.inLen.toNat < 4 * s.d.rp.toNat + 4 ∧ f = .truncatedInput ∧ info = s.d.rp := by
  by_cases h : s.d.cnt = 0
  · rcases Nat.lt_or_ge s.inLen.toNat (4 * s.d.rp.toNat + 4) with hr | hr
    · simp only [takeNibble_truncated h hr, h, hr, true_and, Run.raised.injEq, eq_comm (a := f), eq_comm (a := info)]
    · simp only [takeNibble_load h hr, reduceCtorEq, h, true_and, false_iff, not_and]
      omega
  · simp only [takeNibble_shift h, reduceCtorEq, h, false_and]

/-! ### The passes of the VLE decoder -/

/-- R134: a nibble `1ppp`, not the tenth of its unit. -/
theorem vleContinue_more {p : Payload} (h : s.vleUnit.k.val + 1 < 10) :
    vleContinue p s =
      .done () { s with vle := some { value := s.vleUnit.place p, k := ⟨s.vleUnit.k.val + 1, h⟩ } } :=
  dif_pos h

/-- R134: a nibble `1ppp`, the tenth of its unit. -/
theorem vleContinue_overlong {p : Payload} (h : ¬ s.vleUnit.k.val + 1 < 10) :
    vleContinue p s = .raised .vleOverlong s.d.rp :=
  dif_neg h

theorem vleUnit_some (u : VleUnit) : State.vleUnit { s with vle := some u } = u := rfl

theorem vleUnit_none : State.vleUnit { s with vle := none } = VleUnit.start := rfl

/-- The unpacker leaves the VLE decoder's transients alone. -/
theorem takeNibble_vle {n : Nibble} (h : takeNibble s = .done n t) : t.vle = s.vle := by
  rcases takeNibble_eq_done.mp h with ⟨-, -, rfl⟩ | ⟨-, -, -, rfl⟩ <;> rfl

/-- The decoder's pass limit is never met: with a pass for every nibble the unit can still have, one more changes
nothing. -/
theorem decodeVleLoop_succ (fuel : Nat) (s : State) (h : 10 ≤ s.vleUnit.k.val + fuel) :
    decodeVleLoop (fuel + 1) s = decodeVleLoop fuel s := by
  induction fuel generalizing s with
  | zero => have := s.vleUnit.k.isLt; omega
  | succ fuel ih =>
    rw [decodeVleLoop, decodeVleLoop.eq_2 s fuel]
    cases hx : takeNibble s with
    | raised f info => rfl
    | done n t =>
      have hk : t.vleUnit = s.vleUnit := by rw [State.vleUnit, takeNibble_vle hx, State.vleUnit]
      rw [Run.bind_done, Run.bind_done]
      split
      next hc =>
        by_cases hlt : t.vleUnit.k.val + 1 < 10
        · rw [vleContinue_more hlt, Run.bind_done, Run.bind_done]
          exact ih _ (by show 10 ≤ t.vleUnit.k.val + 1 + fuel; rw [hk]; omega)
        · rw [vleContinue_overlong hlt]; rfl
      next => rfl

/-! ### Run lengths -/

/-- R190: everything `WRZ` can do. -/
theorem writeZeroRun_eq_done {c : Word} :
    writeZeroRun c s = .done () t ↔
      c ≤ s.d.rem ∧
        t = { writeZeros c.toNat s with
          d := { (writeZeros c.toNat s).d with rem := (writeZeros c.toNat s).d.rem - c } } := by
  unfold writeZeroRun
  split
  next h => simp only [reduceCtorEq, false_iff, not_and]; exact fun e => absurd h (BitVec.not_lt.mpr e)
  next h =>
    simp only [Run.done.injEq, true_and, eq_comm (a := t)]
    exact ⟨fun e => ⟨BitVec.not_lt.mp h, e⟩, fun e => e.2⟩

theorem writeZeroRun_eq_raised {c : Word} {f : FaultCause} {info : Word} :
    writeZeroRun c s = .raised f info ↔ s.d.rem < c ∧ f = .runOverrun ∧ info = c := by
  unfold writeZeroRun
  split
  next h => simp only [Run.raised.injEq, eq_comm (a := f), eq_comm (a := info)]; exact ⟨fun e => ⟨h, e⟩, fun e => e.2⟩
  next h => simp only [reduceCtorEq, false_iff, not_and]; exact fun e => absurd e h

/-- R191: everything `NZRUN` can do. -/
theorem accountNonzeroRun_eq_done {c : Word} :
    accountNonzeroRun c s = .done () t ↔
      c ≤ s.d.rem ∧ t = { s with d := { s.d with rem := s.d.rem - c } } := by
  unfold accountNonzeroRun
  split
  next h => simp only [reduceCtorEq, false_iff, not_and]; exact fun e => absurd h (BitVec.not_lt.mpr e)
  next h =>
    simp only [Run.done.injEq, true_and, eq_comm (a := t)]
    exact ⟨fun e => ⟨BitVec.not_lt.mp h, e⟩, fun e => e.2⟩

theorem accountNonzeroRun_eq_raised {c : Word} {f : FaultCause} {info : Word} :
    accountNonzeroRun c s = .raised f info ↔ s.d.rem < c ∧ f = .runOverrun ∧ info = c := by
  unfold accountNonzeroRun
  split
  next h => simp only [Run.raised.injEq, eq_comm (a := f), eq_comm (a := info)]; exact ⟨fun e => ⟨h, e⟩, fun e => e.2⟩
  next h => simp only [reduceCtorEq, false_iff, not_and]; exact fun e => absurd e h

/-! ### Taking a fault -/

/-- R234 to R236: the fault entry is one the spec allows. -/
theorem takeFault_faultTaken (out : OutputRange) (f : FaultCause) (info : Word) (s : State) :
    FaultTaken out f info s (takeFault out f info s) where
  res := rfl
  status := by
    show statusFaulted f = _
    cases f <;> decide
  arg := rfl
  numPixels := rfl
  outCap := rfl
  inLen := rfl
  endian := rfl
  host := rfl
  tick := rfl
  eSpace := by
    rw [takeFault_eSpace]
    split
    · next h => exact ⟨fun h' => absurd h h', fun a ha => Memory.read_fill_of_le _ _ ha⟩
    · exact ⟨fun _ => rfl, fun _ _ => rfl⟩
  sSpace := by
    rw [takeFault_sSpace]
    split
    · next h => exact ⟨fun h' => absurd h h', fun i hi => Memory.read_fill_of_le _ _ hi⟩
    · exact ⟨fun _ => rfl, fun _ _ => rfl⟩

/-- The fault entry keeps both memories canonical. -/
theorem takeFault_memoriesCanonical (out : OutputRange) (f : FaultCause) (info : Word) (h : s.memoriesCanonical) :
    (takeFault out f info s).memoriesCanonical := by
  cases out
  · exact h
  · exact ⟨h.1, Memory.wf_fill h.2 _ _⟩
  · exact ⟨Memory.wf_fill h.1 _ _, h.2⟩

end Sys2Proof.Machine
end

