-- ==== Sys2Proof/Laws/Exec.lean ====
section
/-! SUPPORT. Laws.Exec: each arm of exec as the issue of its body, the two arms that are issued in every state, and the
inversion of exec: what a next state can be. -/

namespace Sys2Proof.Machine

variable (s : State)

theorem exec_nop : exec .nop s = .next s := rfl

theorem exec_clrf : exec .clrf s = .next (leaveFault s) := rfl

theorem exec_encinit : exec .encinit s = issue s .nowhere (streamStartRefusal s) (fun s => .done 0 (encInit s)) := rfl

theorem exec_emitnib :
    exec .emitnib s = issue s .eSpace none (fun s => (emitNibble s.argNibble s).bind fun _ t => .done 0 t) := rfl

theorem exec_flush :
    exec .flush s = issue s .eSpace none (fun s => (flushPacker s).bind fun _ t => .done (bytesWritten t) t) := rfl

theorem exec_decinit : exec .decinit s = issue s .nowhere (streamStartRefusal s) (fun s => .done 0 (decInit s)) := rfl

theorem exec_takenib :
    exec .takenib s = issue s .nowhere none (fun s => (takeNibble s).bind fun n t => .done (nibbleResult n) t) := rfl

theorem exec_encvle : exec .encvle s = issue s .eSpace none (fun s => (encodeVle s.argWord s).bind fun _ t => .done 0 t) := rfl

theorem exec_decvle : exec .decvle s = issue s .nowhere none decodeVle := rfl

theorem exec_zzenc : exec .zzenc s = issue s .nowhere none (fun s => .done (zigzagEncode s.argWord) s) := rfl

theorem exec_zzdec : exec .zzdec s = issue s .nowhere none (fun s => .done (zigzagDecode s.argWord) s) := rfl

theorem exec_scanz : exec .scanz s = issue s .nowhere none scanZeros := rfl

theorem exec_scannz : exec .scannz s = issue s .nowhere none (fun s => .done (countNonzeros s) s) := rfl

theorem exec_encval : exec .encval s = issue s .eSpace (encvalRefusal s) encodeValue := rfl

theorem exec_compress : exec .compress s = issue s .eSpace (streamStartRefusal s) compressStream := rfl

theorem exec_wrz : exec .wrz s = issue s .sSpace none (fun s => (writeZeroRun s.argWord s).bind fun _ t => .done 0 t) := rfl

theorem exec_nzrun :
    exec .nzrun s = issue s .nowhere none (fun s => (accountNonzeroRun s.argWord s).bind fun _ t => .done 0 t) := rfl

theorem exec_decval : exec .decval s = issue s .sSpace (decvalRefusal s) decodeValue := rfl

theorem exec_decompress :
    exec .decompress s = issue s .sSpace (streamStartRefusal s) (fun s => (decompressStream s).bind fun _ t => .done 0 t) := rfl

theorem exec_vleEnd (p : Payload) : exec (.vleEnd p) s = issue s .nowhere none (vleFinish p) := rfl

theorem exec_vleCont (p : Payload) :
    exec (.vleCont p) s =
      if s.faulted then .refused .faultPending
      else
        match vleContinue p s with
        | .done _ t => .next t
        | .raised f info => .next (takeFault .nowhere f info s) := rfl

theorem encvalRefusal_none {s : State} : encvalRefusal s = none ↔ s.e.si < s.numPixels := by
  unfold encvalRefusal
  split <;> simp_all

theorem decvalRefusal_none {s : State} : decvalRefusal s = none ↔ s.d.so < s.numPixels := by
  unfold decvalRefusal
  split <;> simp_all

theorem encvalRefusal_some {s : State} (h : s.numPixels ≤ s.e.si) : encvalRefusal s = some .noSampleToEncode :=
  if_neg (BitVec.not_lt.mpr h)

theorem decvalRefusal_some {s : State} (h : s.numPixels ≤ s.d.so) : decvalRefusal s = some .noSampleToDecode :=
  if_neg (BitVec.not_lt.mpr h)

theorem streamStartRefusal_some {s : State} (h : Config.numPixelsMax < s.numPixels) :
    streamStartRefusal s = some .numPixelsTooLarge :=
  if_pos h

/-- An issued operation that is neither refused ends as its body says. -/
theorem issue_next_of_done {s t : State} {out : OutputRange} {p : Option Refusal} {b : State → Run Word} {r : Word}
    (hf : s.faulted = false) (hp : p = none) (hb : b s = .done r t) : issue s out p b = .next (complete r t) :=
  issue_eq_next.mpr ⟨hf, hp, .inl ⟨r, t, hb, rfl⟩⟩

/-- An issued operation whose body raises takes the fault. -/
theorem issue_next_of_raised {s : State} {out : OutputRange} {p : Option Refusal} {b : State → Run Word} {f : FaultCause} {info : Word}
    (hf : s.faulted = false) (hp : p = none) (hb : b s = .raised f info) :
    issue s out p b = .next (takeFault out f info s) :=
  issue_eq_next.mpr ⟨hf, hp, .inr ⟨f, info, hb, rfl⟩⟩

end Sys2Proof.Machine
end

