-- ==== Sys2Proof/Laws/Frames.lean ====
section
/-! SUPPORT. Laws.Frames: what the bodies of the compress path and of the decompress path change, said once for each
path as a relation that every body keeps. -/

namespace Sys2Proof.Machine

/-- What a body of the compress path can change (R45, R52, R62): the encoder context and bytes of E-space below
OUT_CAP. A canonical memory stays canonical and a sound encoder context sound (R43). -/
structure EncFrame (s t : State) : Prop where
  rest : t = { s with e := t.e, eSpace := t.eSpace }
  outside : ∀ a, s.outCap.toNat ≤ a → t.eSpace.read a = s.eSpace.read a
  canonical : Memory.wf s.eSpace = true → Memory.wf t.eSpace = true
  sound : s.encoderSound → t.encoderSound

/-- What a body of the decompress path can change (R45, R52): the decoder context, S-space, and the transients of the
VLE decoder. A canonical memory stays canonical and a sound decoder context sound (R44). -/
structure DecFrame (s t : State) : Prop where
  rest : t = { s with d := t.d, sSpace := t.sSpace, vle := t.vle }
  canonical : Memory.wf s.sSpace = true → Memory.wf t.sSpace = true
  sound : s.decoderSound → t.decoderSound

variable {s t u : State}

theorem EncFrame.refl (s : State) : EncFrame s s := ⟨rfl, fun _ _ => rfl, id, id⟩

theorem EncFrame.outCap (h : EncFrame s t) : t.outCap = s.outCap := by rw [h.rest]

theorem EncFrame.trans (h : EncFrame s t) (k : EncFrame t u) : EncFrame s u where
  rest := by rw [k.rest, h.rest]
  outside a ha := (k.outside a (h.outCap ▸ ha)).trans (h.outside a ha)
  canonical := k.canonical ∘ h.canonical
  sound := k.sound ∘ h.sound

theorem DecFrame.refl (s : State) : DecFrame s s := ⟨rfl, id, id⟩

theorem DecFrame.trans (h : DecFrame s t) (k : DecFrame t u) : DecFrame s u where
  rest := by rw [k.rest, h.rest]
  canonical := k.canonical ∘ h.canonical
  sound := k.sound ∘ h.sound

/-! ### The compress path -/

/-- R112: one more nibble at the low end of the accumulator. -/
theorem toNat_appendNibble {w : Word} (n : Nibble) (h : w.toNat < 16 ^ 7) :
    ((w <<< 4) ||| n.setWidth 32).toNat = 16 * w.toNat + n.toNat := by
  have hn := n.isLt
  rw [BitVec.toNat_or, BitVec.toNat_shiftLeft, BitVec.toNat_setWidth, Nat.mod_eq_of_lt (a := n.toNat) (by omega),
    Nat.shiftLeft_eq, Nat.mod_eq_of_lt (by omega), Nat.mul_comm, show (16 : Nat) = 2 ^ 4 from rfl,
    ← Nat.two_pow_add_eq_or_of_lt (i := 4) (by omega)]

theorem encFrame_write {w : Word} {e : EncCtx} (he : e.wp = s.e.wp + 1) (hw : e.word = 0) (hc : e.cnt = 0)
    (hr : 4 * s.e.wp.toNat + 4 ≤ s.outCap.toNat) :
    EncFrame s { s with eSpace := s.eSpace.writeWord s.endian (4 * s.e.wp.toNat) w, e := e } where
  rest := rfl
  outside a ha := Memory.read_writeWord_other _ _ _ (by omega)
  canonical h := Memory.wf_writeWord h _ _ _
  sound _ := by
    have := s.outCap.isLt
    refine ⟨by simp [hc], by simp [hc, hw], ?_⟩
    simp only [he]
    bv_omega

theorem emitNibble_frame {n : Nibble} (h : emitNibble n s = .done () t) : EncFrame s t := by
  rcases emitNibble_eq_done.mp h with ⟨hc, rfl⟩ | ⟨hc, hr, rfl⟩
  · refine ⟨rfl, fun _ _ => rfl, id, fun ⟨h1, h2, h3⟩ => ?_⟩
    have hcnt : (s.e.cnt + 1).toNat = s.e.cnt.toNat + 1 := by bv_omega
    have hle : s.e.cnt.toNat + 1 ≤ 7 := by bv_omega
    have hlt : s.e.word.toNat < 16 ^ 7 := h2.trans_le (Nat.pow_le_pow_right (by omega) h1)
    refine ⟨by simp only [hcnt]; exact hle, ?_, h3⟩
    simp only [toNat_appendNibble n hlt, hcnt, Nat.pow_succ]
    have := n.isLt
    omega
  · exact encFrame_write rfl rfl rfl hr

theorem encodeVleLoop_frame {fuel : Nat} {v : Word} (h : encodeVleLoop fuel v s = .done () t) : EncFrame s t := by
  induction fuel generalizing v s with
  | zero => cases h; exact .refl _
  | succ fuel ih =>
    obtain ⟨_, u, hu, h⟩ := Run.bind_eq_done.mp h
    split at h
    · cases h; exact emitNibble_frame hu
    · exact (emitNibble_frame hu).trans (ih h)

theorem encodeVle_frame {v : Word} (h : encodeVle v s = .done () t) : EncFrame s t := encodeVleLoop_frame h

theorem flushPacker_frame (h : flushPacker s = .done () t) : EncFrame s t := by
  by_cases hc : s.e.cnt = 0
  · rw [flushPacker_empty hc] at h
    cases h
    exact .refl _
  · rcases Nat.lt_or_ge s.outCap.toNat (4 * s.e.wp.toNat + 4) with hr | hr
    · rw [flushPacker_overflow hc hr] at h; cases h
    · rw [flushPacker_full hc hr] at h
      cases h
      exact encFrame_write rfl rfl rfl hr

theorem encFrame_cursor (s : State) (si : Word) (prev : Sample) :
    EncFrame s { s with e := { s.e with si := si, prev := prev } } :=
  ⟨rfl, fun _ _ => rfl, id, id⟩

theorem scanZerosLoop_frame {fuel : Nat} {z r : Word} (h : scanZerosLoop fuel z s = .done r t) : EncFrame s t := by
  induction fuel generalizing z s with
  | zero => cases h; exact .refl _
  | succ fuel ih =>
    rw [scanZerosLoop] at h
    split at h
    · exact (encFrame_cursor s _ _).trans (ih h)
    · cases h; exact .refl _

theorem scanZeros_frame {r : Word} (h : scanZeros s = .done r t) : EncFrame s t := scanZerosLoop_frame h

theorem encodeValue_frame {r : Word} (h : encodeValue s = .done r t) : EncFrame s t := by
  obtain ⟨_, u, hu, h⟩ := Run.bind_eq_done.mp h
  cases h
  exact ((encFrame_cursor s _ _).trans (encodeVle_frame hu)).trans (encFrame_cursor u _ _)

theorem encodeValues_frame {n : Nat} (h : encodeValues n s = .done () t) : EncFrame s t := by
  induction n generalizing s with
  | zero => cases h; exact .refl _
  | succ n ih =>
    obtain ⟨_, u, hu, h⟩ := Run.bind_eq_done.mp h
    exact (encodeValue_frame hu).trans (ih h)

theorem encodeGroup_frame (h : encodeGroup s = .done () t) : EncFrame s t := by
  obtain ⟨_, s1, h1, h⟩ := Run.bind_eq_done.mp h
  obtain ⟨_, s2, h2, h⟩ := Run.bind_eq_done.mp h
  obtain ⟨_, s3, h3, h⟩ := Run.bind_eq_done.mp h
  exact (((scanZeros_frame h1).trans (encodeVle_frame h2)).trans (encodeVle_frame h3)).trans (encodeValues_frame h)

theorem encodeGroups_frame {fuel : Nat} (h : encodeGroups fuel s = .done () t) : EncFrame s t := by
  induction fuel generalizing s with
  | zero => cases h; exact .refl _
  | succ fuel ih =>
    rw [encodeGroups] at h
    split at h
    · obtain ⟨_, u, hu, h⟩ := Run.bind_eq_done.mp h
      exact (encodeGroup_frame hu).trans (ih h)
    · cases h; exact .refl _

theorem encInit_frame (s : State) : EncFrame s (encInit s) :=
  ⟨rfl, fun _ _ => rfl, id, fun _ => ⟨Nat.zero_le _, Nat.one_pos, Nat.two_pow_pos 32⟩⟩

theorem compressStream_frame {r : Word} (h : compressStream s = .done r t) : EncFrame s t := by
  obtain ⟨_, s1, h1, h⟩ := Run.bind_eq_done.mp h
  obtain ⟨_, s2, h2, h⟩ := Run.bind_eq_done.mp h
  cases h
  exact ((encInit_frame s).trans (encodeGroups_frame h1)).trans (flushPacker_frame h2)

/-! ### The decompress path -/

theorem takeNibble_frame {n : Nibble} (h : takeNibble s = .done n t) : DecFrame s t := by
  rcases takeNibble_eq_done.mp h with ⟨hc, -, rfl⟩ | ⟨-, hr, -, rfl⟩
  · refine ⟨rfl, id, fun ⟨h1, h2, h3⟩ => ⟨?_, h2, h3⟩⟩
    show (s.d.cnt - 1).toNat ≤ 7
    bv_omega
  · refine ⟨rfl, id, fun ⟨h1, h2, h3⟩ => ⟨(by decide : (7#4).toNat ≤ 7), ?_, h3⟩⟩
    have := s.inLen.isLt
    show 4 * (s.d.rp + 1).toNat < 2 ^ 32
    bv_omega

theorem vleContinue_frame {p : Payload} (h : vleContinue p s = .done () t) : DecFrame s t := by
  by_cases hk : s.vleUnit.k.val + 1 < 10
  · rw [vleContinue_more hk] at h; cases h; exact ⟨rfl, id, id⟩
  · rw [vleContinue_overlong hk] at h; cases h

theorem vleFinish_frame {p : Payload} {v : Word} (h : vleFinish p s = .done v t) : DecFrame s t := by
  cases h; exact ⟨rfl, id, id⟩

theorem decodeVleLoop_frame {fuel : Nat} {v : Word} (h : decodeVleLoop fuel s = .done v t) : DecFrame s t := by
  induction fuel generalizing s with
  | zero => cases h
  | succ fuel ih =>
    obtain ⟨n, u, hu, h⟩ := Run.bind_eq_done.mp h
    split at h
    · obtain ⟨_, u', hu', h⟩ := Run.bind_eq_done.mp h
      exact ((takeNibble_frame hu).trans (vleContinue_frame hu')).trans (ih h)
    · exact (takeNibble_frame hu).trans (vleFinish_frame h)

theorem decodeVle_frame {v : Word} (h : decodeVle s = .done v t) : DecFrame s t :=
  (⟨rfl, id, id⟩ : DecFrame s { s with vle := none }).trans (decodeVleLoop_frame h)

theorem sWrite_frame (s : State) (i : Word) (v : Sample) : DecFrame s (sWrite s i v) :=
  ⟨rfl, fun h => sWrite_wf h i v, id⟩

theorem decFrame_cursor (s : State) (so : Word) (prev : Sample) :
    DecFrame s { s with d := { s.d with so := so, prev := prev } } :=
  ⟨rfl, id, id⟩

theorem decFrame_rem (s : State) {rem : Word} (h : rem ≤ s.d.rem) :
    DecFrame s { s with d := { s.d with rem := rem } } :=
  ⟨rfl, id, fun ⟨h1, h2, h3⟩ => ⟨h1, h2, lt_of_le_of_lt (BitVec.le_def.mp h) h3⟩⟩

theorem writeZeros_frame (n : Nat) (s : State) : DecFrame s (writeZeros n s) := by
  induction n generalizing s with
  | zero => exact .refl _
  | succ n ih =>
    exact ((sWrite_frame s s.d.so 0).trans (decFrame_cursor _ (s.d.so + 1) s.d.prev)).trans (ih _)

theorem writeZeros_rem (n : Nat) (s : State) : (writeZeros n s).d.rem = s.d.rem := by
  induction n generalizing s with
  | zero => rfl
  | succ n ih => exact ih _

theorem writeZeroRun_frame {c : Word} (h : writeZeroRun c s = .done () t) : DecFrame s t := by
  obtain ⟨hc, rfl⟩ := writeZeroRun_eq_done.mp h
  refine (writeZeros_frame c.toNat s).trans (decFrame_rem _ ?_)
  rw [writeZeros_rem]
  bv_omega

theorem accountNonzeroRun_frame {c : Word} (h : accountNonzeroRun c s = .done () t) : DecFrame s t := by
  obtain ⟨hc, rfl⟩ := accountNonzeroRun_eq_done.mp h
  exact decFrame_rem s (by bv_omega)

theorem decodeValue_frame {v : Word} (h : decodeValue s = .done v t) : DecFrame s t := by
  obtain ⟨x, u, hu, h⟩ := Run.bind_eq_done.mp h
  cases h
  exact ((decodeVle_frame hu).trans (sWrite_frame u _ _)).trans (decFrame_cursor _ _ _)

theorem decodeValues_frame {n : Nat} (h : decodeValues n s = .done () t) : DecFrame s t := by
  induction n generalizing s with
  | zero => cases h; exact .refl _
  | succ n ih =>
    obtain ⟨_, u, hu, h⟩ := Run.bind_eq_done.mp h
    exact (decodeValue_frame hu).trans (ih h)

theorem decodeGroup_frame (h : decodeGroup s = .done () t) : DecFrame s t := by
  obtain ⟨_, s1, h1, h⟩ := Run.bind_eq_done.mp h
  obtain ⟨_, s2, h2, h⟩ := Run.bind_eq_done.mp h
  obtain ⟨_, s3, h3, h⟩ := Run.bind_eq_done.mp h
  obtain ⟨_, s4, h4, h⟩ := Run.bind_eq_done.mp h
  exact ((((decodeVle_frame h1).trans (writeZeroRun_frame h2)).trans (decodeVle_frame h3)).trans
    (accountNonzeroRun_frame h4)).trans (decodeValues_frame h)

theorem decodeGroups_frame {fuel : Nat} (h : decodeGroups fuel s = .done () t) : DecFrame s t := by
  induction fuel generalizing s with
  | zero =>
    rw [decodeGroups] at h
    split at h <;> cases h
    exact .refl _
  | succ fuel ih =>
    rw [decodeGroups] at h
    split at h
    · obtain ⟨_, u, hu, h⟩ := Run.bind_eq_done.mp h
      exact (decodeGroup_frame hu).trans (ih h)
    · cases h; exact .refl _

/-- R115: DECINIT, where NUMPIXELS_MAX does not refuse it. -/
theorem decInit_frame (h : s.numPixels ≤ Config.numPixelsMax) : DecFrame s (decInit s) where
  rest := rfl
  canonical := id
  sound _ := by
    refine ⟨Nat.zero_le _, Nat.two_pow_pos 32, ?_⟩
    show s.numPixels.toNat < 2 ^ 30
    simp only [Config.numPixelsMax] at h
    bv_omega

/-- R200: the start of DECOMPRESS, where NUMPIXELS_MAX does not refuse it. -/
theorem decompressStart_frame (h : s.numPixels ≤ Config.numPixelsMax) : DecFrame s (decompressStart s) :=
  (decInit_frame h).trans ⟨rfl, id, id⟩

theorem decompressStream_frame (hn : s.numPixels ≤ Config.numPixelsMax) (h : decompressStream s = .done () t) :
    DecFrame s t :=
  (decompressStart_frame hn).trans (decodeGroups_frame h)

end Sys2Proof.Machine
end

