-- ==== Sys2Proof/Laws/PerInstr.lean ====
section
/-! SUPPORT. Laws.PerInstr: statements for all instructions, one lemma per constructor of Instr. -/

namespace Sys2Proof.Laws.CodeWellFormed

/-- R97, R99, R81: the instruction is well-formed and its code is one the spec gives a meaning. -/
def Statement (i : Instr) : Prop := i.wellFormed = true ∧ (encode i).wellFormed = true

theorem nop : Statement .nop := ⟨rfl, rfl⟩
theorem compress : Statement .compress := ⟨rfl, rfl⟩
theorem decompress : Statement .decompress := ⟨rfl, rfl⟩
theorem clrf : Statement .clrf := ⟨rfl, rfl⟩
theorem encinit : Statement .encinit := ⟨rfl, rfl⟩
theorem emitnib : Statement .emitnib := ⟨rfl, rfl⟩
theorem flush : Statement .flush := ⟨rfl, rfl⟩
theorem decinit : Statement .decinit := ⟨rfl, rfl⟩
theorem takenib : Statement .takenib := ⟨rfl, rfl⟩
theorem encvle : Statement .encvle := ⟨rfl, rfl⟩
theorem decvle : Statement .decvle := ⟨rfl, rfl⟩
theorem zzenc : Statement .zzenc := ⟨rfl, rfl⟩
theorem zzdec : Statement .zzdec := ⟨rfl, rfl⟩
theorem scanz : Statement .scanz := ⟨rfl, rfl⟩
theorem scannz : Statement .scannz := ⟨rfl, rfl⟩
theorem encval : Statement .encval := ⟨rfl, rfl⟩
theorem wrz : Statement .wrz := ⟨rfl, rfl⟩
theorem nzrun : Statement .nzrun := ⟨rfl, rfl⟩
theorem decval : Statement .decval := ⟨rfl, rfl⟩
theorem vleCont (p : Payload) : Statement (.vleCont p) := ⟨rfl, rfl⟩
theorem vleEnd (p : Payload) : Statement (.vleEnd p) := ⟨rfl, rfl⟩

end Sys2Proof.Laws.CodeWellFormed
end

