-- ==== Sys2Proof/Tests/Slice0.lean ====
section
/-! SUPPORT. Tests.Slice0: the well-formedness smoke tests, every constructor's decoding from a word written out from
the tables, vectors of 95_test_vectors.md (named V<n> in each comment), and a witness for the hypotheses of each
obligation. -/

namespace Sys2Proof.Tests

open Sys2Proof.Machine

/-- The state of an outcome, where it is a next state. -/
def stateOf : Host.Outcome State Fault Refusal → Option State
  | .next t => some t
  | .fault _ => none
  | .refused _ => none

/-- The refusal of an outcome, where it is one. -/
def refusalIn : Host.Outcome State Fault Refusal → Option Refusal
  | .next _ => none
  | .fault _ => none
  | .refused r => some r

/-- RES and STATUS after an outcome. -/
def resultOf (o : Host.Outcome State Fault Refusal) : Option (Word × Word) :=
  (stateOf o).map fun t => (t.res, t.status)

/-- A memory whose cells 0, 1, ... hold the values given. -/
def cells {w : Nat} : Nat → List (BitVec w) → Memory w
  | _, [] => []
  | k, v :: vs => Memory.cons k v (cells (k + 1) vs)

/-! ### Well-formedness: one ill-formed code for each check -/

theorem test_wf_refuses_upper_bit : (Code.cmd 0x00000020).wellFormed = false := by decide
theorem test_wf_refuses_reserved_op : (Code.cmd 0x0000001F).wellFormed = false := by decide
theorem test_wf_admits_decval : (Code.cmd 0x0000001E).wellFormed = true := by decide

/-! ### Decoding: every constructor from a word written out from R96 or R81 -/

theorem test_decode_nop : decode (.cmd 0b00000000000000000000000000000000#32) = .ok .nop := by rfl
theorem test_decode_compress : decode (.cmd 0b00000000000000000000000000000001#32) = .ok .compress := by rfl
theorem test_decode_decompress : decode (.cmd 0b00000000000000000000000000000010#32) = .ok .decompress := by rfl
theorem test_decode_clrf : decode (.cmd 0b00000000000000000000000000000011#32) = .ok .clrf := by rfl
theorem test_decode_encinit : decode (.cmd 0b00000000000000000000000000001000#32) = .ok .encinit := by rfl
theorem test_decode_emitnib : decode (.cmd 0b00000000000000000000000000001001#32) = .ok .emitnib := by rfl
theorem test_decode_flush : decode (.cmd 0b00000000000000000000000000001010#32) = .ok .flush := by rfl
theorem test_decode_decinit : decode (.cmd 0b00000000000000000000000000001100#32) = .ok .decinit := by rfl
theorem test_decode_takenib : decode (.cmd 0b00000000000000000000000000001101#32) = .ok .takenib := by rfl
theorem test_decode_encvle : decode (.cmd 0b00000000000000000000000000010000#32) = .ok .encvle := by rfl
theorem test_decode_decvle : decode (.cmd 0b00000000000000000000000000010001#32) = .ok .decvle := by rfl
theorem test_decode_zzenc : decode (.cmd 0b00000000000000000000000000010100#32) = .ok .zzenc := by rfl
theorem test_decode_zzdec : decode (.cmd 0b00000000000000000000000000010101#32) = .ok .zzdec := by rfl
theorem test_decode_scanz : decode (.cmd 0b00000000000000000000000000011000#32) = .ok .scanz := by rfl
theorem test_decode_scannz : decode (.cmd 0b00000000000000000000000000011001#32) = .ok .scannz := by rfl
theorem test_decode_encval : decode (.cmd 0b00000000000000000000000000011010#32) = .ok .encval := by rfl
theorem test_decode_wrz : decode (.cmd 0b00000000000000000000000000011100#32) = .ok .wrz := by rfl
theorem test_decode_nzrun : decode (.cmd 0b00000000000000000000000000011101#32) = .ok .nzrun := by rfl
theorem test_decode_decval : decode (.cmd 0b00000000000000000000000000011110#32) = .ok .decval := by rfl
theorem test_decode_vle_cont : decode (.nib 0b1010#4) = .ok (.vleCont 0b010#3) := by rfl
theorem test_decode_vle_end : decode (.nib 0b0101#4) = .ok (.vleEnd 0b101#3) := by rfl

/-- V73: the reserved command words are refused by name. -/
theorem test_decode_reserved :
    decode (.cmd 0x0B) = .error (.reservedOp 0x0B) ∧ decode (.cmd 0x101) = .error (.upperBitsSet 0x101) := ⟨rfl, rfl⟩

theorem test_table_word_command : decodeTableWord 32 0x1E = some .decval := by rfl
theorem test_table_word_nibble : decodeTableWord 8 0x0F = some (.vleCont 7) := by rfl

/-! ### Vectors -/

/-- V10: the encoder after `01A1214` was emitted. -/
def v10 : State := { State.reset with e := { EncCtx.zero with word := 0x001A1214, cnt := 7 }, outCap := 4, arg := 4 }

/-- V1: the source's scenario, ready for COMPRESS with exact capacity. -/
def v1 : State := { State.reset with sSpace := cells 0 [5, 0, 0, 7], numPixels := 4, outCap := 4 }

/-- V1: the source's scenario, ready for DECOMPRESS. -/
def v1Decode : State :=
  { State.reset with eSpace := cells 0 [0x40, 0x21, 0xA1, 0x01], numPixels := 4, inLen := 4 }

/-- V60's outcome: a fault with cause 3. -/
def faulted : State := { State.reset with status := 0x32, res := 1 }

/-- V40: three zeros, three nonzero samples, a zero. -/
def v40 : State := { State.reset with sSpace := cells 0 [0, 0, 0, 100, 101, 99, 0], numPixels := 7, outCap := 8 }

/-- V70. -/
theorem test_nop_in_faulted : resultOf (exec .nop faulted) = some (1, 0x32) := by decide

/-- V71. -/
theorem test_clrf_after_fault : resultOf (exec .clrf faulted) = some (0, 0) := by decide

/-- V72. -/
theorem test_zzenc_refused_in_faulted : refusalIn (exec .zzenc faulted) = some .faultPending := by decide

/-- V74. -/
theorem test_encinit_refused_above_max :
    refusalIn (exec .encinit { State.reset with numPixels := 0x40000000 }) = some .numPixelsTooLarge := by decide

/-- V10: the seventh nibble; `ARG[31:4]` is ignored. -/
theorem test_emitnib_seventh :
    (stateOf (exec .emitnib { State.reset with e := { EncCtx.zero with word := 0x0001A121, cnt := 6 },
                                               arg := 0xFFFFFFF4 })).map
      (fun t => (t.e.word, t.e.cnt, t.e.wp, t.eSpace)) = some (0x001A1214, 7, 0, []) := by decide

/-- V11: the eighth nibble, both byte orders. -/
theorem test_emitnib_eighth :
    (stateOf (exec .emitnib { State.reset with e := { EncCtx.zero with word := 0x01234567, cnt := 7 }, arg := 8,
                                               outCap := 8 })).map
        (fun t => (t.e.cnt, t.e.wp, t.eSpace)) = some (0, 1, [(0, 0x78), (1, 0x56), (2, 0x34), (3, 0x12)]) ∧
    (stateOf (exec .emitnib { State.reset with e := { EncCtx.zero with word := 0x01234567, cnt := 7 }, arg := 8,
                                               outCap := 8, endian := .big })).map
        (fun t => t.eSpace) = some [(0, 0x12), (1, 0x34), (2, 0x56), (3, 0x78)] := by decide

/-- V10: the flush of seven nibbles. -/
theorem test_flush_seven :
    (stateOf (exec .flush v10)).map (fun t => (t.res, t.e.cnt, t.eSpace)) =
      some (4, 0, [(0, 0x40), (1, 0x21), (2, 0xA1), (3, 0x01)]) := by decide

/-- V75: FLUSH without capacity. -/
theorem test_flush_overflow : resultOf (exec .flush { v10 with outCap := 0 }) = some (0, 0x12) := by decide

/-- V14: the first two nibbles of a word. -/
theorem test_takenib_loads :
    (stateOf (exec .takenib v1Decode)).map (fun t => (t.res, t.d.word, t.d.cnt, t.d.rp)) =
      some (0, 0x01A12140, 7, 1) := by decide
theorem test_takenib_shifts :
    (stateOf (exec .takenib { v1Decode with d := { DecCtx.zero with word := 0x01A12140, cnt := 7, rp := 1 } })).map
      (fun t => (t.res, t.d.word, t.d.cnt, t.d.rp)) = some (1, 0x1A121400, 6, 1) := by decide

/-- V15. -/
theorem test_decinit_seeds : (stateOf (exec .decinit v1Decode)).map (fun t => t.d.rem) = some 4 := by decide

/-- V24: a unit that straddles two words, and its overflow. -/
theorem test_encvle_straddles :
    (stateOf (exec .encvle { State.reset with e := { EncCtx.zero with cnt := 7 }, arg := 63, outCap := 8 })).map
        (fun t => (t.e.word, t.e.cnt, t.e.wp, t.eSpace)) = some (7, 1, 1, [(0, 0x0F)]) ∧
    resultOf (exec .encvle { State.reset with e := { EncCtx.zero with cnt := 7 }, arg := 63 }) = some (0, 0x12) := by
  decide

/-- V25: eleven nibbles. -/
theorem test_encvle_eleven :
    (stateOf (exec .encvle { State.reset with arg := 0xFFFFFFFF, outCap := 8 })).map
      (fun t => (t.e.word, t.e.cnt, t.eSpace)) =
        some (0xFF3, 3, [(0, 0xFF), (1, 0xFF), (2, 0xFF), (3, 0xFF)]) := by decide

/-- V23: a unit that straddles two words. -/
def v23 : State :=
  { State.reset with
    eSpace := cells 0 [0x0F, 0, 0, 0, 0, 0, 0, 0x70], inLen := 8, numPixels := 1
    d := { DecCtx.zero with word := 0xF0000000 >>> 4, cnt := 1, rp := 1 } }
theorem test_decvle_straddles :
    (stateOf (exec .decvle v23)).map (fun t => (t.res, t.d.word, t.d.cnt, t.d.rp)) =
      some (63, 0x70000000, 7, 2) := by decide

/-- V67: ten continuing nibbles. -/
def v67 : State :=
  { State.reset with eSpace := cells 0 [0x88, 0x88, 0x88, 0x88, 0, 0, 0, 0x88], inLen := 8, numPixels := 1 }
theorem test_decvle_overlong : resultOf (exec .decvle v67) = some (2, 0x42) := by decide

/-- V30, V31. -/
theorem test_zzenc_values :
    resultOf (exec .zzenc { State.reset with arg := 0xFFFFFFFB }) = some (9, 1) ∧
    resultOf (exec .zzenc { State.reset with arg := 0x80000000 }) = some (0xFFFFFFFF, 1) := by decide
theorem test_zzdec_values :
    resultOf (exec .zzdec { State.reset with arg := 131069 }) = some (0xFFFF0001, 1) ∧
    resultOf (exec .zzdec { State.reset with arg := 0x80000000 }) = some (0x40000000, 1) := by decide

/-- V40. -/
theorem test_scanz_three :
    (stateOf (exec .scanz v40)).map (fun t => (t.res, t.e.si)) = some (3, 3) := by decide
theorem test_scannz_three :
    (stateOf (exec .scannz { v40 with e := { EncCtx.zero with si := 3 } })).map (fun t => (t.res, t.e.si)) =
      some (3, 3) := by decide
theorem test_encval_first :
    (stateOf (exec .encval { v40 with e := { EncCtx.zero with si := 3 } })).map
      (fun t => (t.res, t.e.si, t.e.prev, t.e.word, t.e.cnt)) = some (100, 4, 100, 0x893, 3) := by decide
theorem test_encval_refused_at_end :
    refusalIn (exec .encval { v40 with e := { EncCtx.zero with si := 7 } }) = some .noSampleToEncode := by decide

/-- V1, P1. -/
theorem test_compress_scenario :
    (stateOf (exec .compress v1)).map (fun t => (t.res, t.status, t.e.prev, t.eSpace)) =
      some (4, 1, 7, [(0, 0x40), (1, 0x21), (2, 0xA1), (3, 0x01)]) := by decide

/-- V65: extreme deltas; the overflow comes in the flush. -/
def v65 : State :=
  { State.reset with sSpace := cells 0 [-32768, 32767, -32768, 32767], numPixels := 4, outCap := 12 }
theorem test_compress_overflow : resultOf (exec .compress v65) = some (3, 0x12) := by decide

/-- V50. -/
def v50 : State := { State.reset with numPixels := 4, arg := 3, d := { DecCtx.zero with rem := 4 } }
theorem test_wrz_three :
    (stateOf (exec .wrz { v50 with sSpace := cells 0 [1, 2, 3, 4] })).map (fun t => (t.d.so, t.d.rem, t.sSpace)) =
      some (3, 1, [(3, 4)]) := by decide
theorem test_wrz_overrun : resultOf (exec .wrz { v50 with arg := 5 }) = some (5, 0x32) := by decide
theorem test_nzrun_one :
    (stateOf (exec .nzrun { v50 with arg := 1 })).map (fun t => (t.d.rem, t.d.so)) = some (3, 0) := by decide

/-- V51: nibble 4 next, `D.prev` 5. -/
def v51 : State :=
  { State.reset with
    numPixels := 4, d := { DecCtx.zero with word := 0x04000000, cnt := 7, rp := 1, prev := 5, so := 3 } }
theorem test_decval_seven :
    (stateOf (exec .decval v51)).map (fun t => (t.res, t.d.prev, t.d.so, t.sSpace)) =
      some (7, 7, 4, [(3, 7)]) := by decide

/-- V69: the sum wraps at 16 bits. -/
theorem test_decompress_wraps :
    (stateOf (exec .decompress { State.reset with eSpace := cells 0 [0x82, 0x88, 0x88, 0x01], numPixels := 1,
                                                  inLen := 4 })).map
      (fun t => (t.status, t.sSpace)) = some (1, [(0, 0x8000)]) := by decide

/-- V1, V60: the right count and one too small. -/
theorem test_decompress_scenario :
    (stateOf (exec .decompress v1Decode)).map (fun t => (t.status, t.d.word, t.d.cnt, t.sSpace)) =
        some (1, 0x40000000, 1, [(0, 5), (3, 7)]) ∧
    resultOf (exec .decompress { v1Decode with numPixels := 3 }) = some (1, 0x32) := by decide

/-- R91, R93: an empty group with a non-minimal length (`8 0`, `0`), then `0 2` and the deltas 5 and -5 (`A 1`, `9 1`). -/
def vGroups : List Group := [⟨[8, 0], [0], []⟩, ⟨[0], [2], [[0xA, 1], [9, 1]]⟩]

/-- The stream of `vGroups`, ready for DECOMPRESS, with a unit in progress from a nibble form. -/
def vAccepted : State :=
  { State.reset with
    eSpace := cells 0 [0x19, 0x2A, 0x00, 0x80, 0, 0, 0, 0x10], numPixels := 2, inLen := 8, vle := some ⟨5, 2⟩ }
theorem test_decompress_accepts_more :
    (stateOf (exec .decompress vAccepted)).map (fun t => (t.status, t.samples, t.vle)) = some (1, [5, 0], none) := by
  decide

/-- R202, log entry 7: an empty DECOMPRESS too drops a unit in progress. -/
theorem test_decompress_empty_drops_unit :
    (stateOf (exec .decompress { vAccepted with numPixels := 0 })).map (fun t => (t.res, t.vle)) = some (0, none) := by
  decide

/-- R52, R236: a fault of NZRUN leaves S-space alone. -/
theorem test_nzrun_overrun_keeps_samples :
    (stateOf (exec .nzrun { v50 with arg := 5, sSpace := cells 0 [1, 2, 3, 4] })).map
      (fun t => (t.res, t.status, t.sSpace)) = some (5, 0x32, [(0, 1), (1, 2), (2, 3), (3, 4)]) := by decide

/-- R81, R134: the nibbles `A 1` code 10. -/
theorem test_vle_cont_goes_on :
    (stateOf (exec (.vleCont 2) State.reset)).map (fun t => (t.vle, t.status)) =
      some (some { value := 2, k := 1 }, 0) := by decide
theorem test_vle_end_delivers :
    (stateOf (exec (.vleEnd 1) { State.reset with vle := some { value := 2, k := 1 } })).map
      (fun t => (t.res, t.status, t.vle)) = some (10, 1, none) := by decide

/-- V20, R91: the wire format as Safety writes it. -/
theorem test_unit_of_values :
    unitOf 0 = [0] ∧ unitOf 10 = [0xA, 1] ∧ unitOf 200 = [8, 9, 3] ∧ unitOf 262143 = [15, 15, 15, 15, 15, 7] ∧
    unitValue [0xA, 1] = 10 ∧ unitLength 0xFFFFFFFF = 11 := by decide
theorem test_stream_of_scenario :
    streamOf [5, 0, 0, 7] = [0, 1, 0xA, 1, 2, 1, 4] ∧ streamOf [0, -1, 0, 1, 0, -1] = [1, 1, 1, 1, 1, 4, 1, 1, 3] := by
  decide

/-- R63, R210: a host action issues the operation on the step that takes it. -/
theorem test_step_issues :
    ((stateOf (step (v1.withFetchWord 32 1))).map fun t => (t.res, t.host, t.tick)) = some (4, [], 1) := by decide

/-! ### Witnesses: the hypotheses of each obligation are met together -/

theorem witness_DecodeOfEncode : (Instr.vleCont 7).wellFormed = true := rfl
theorem witness_EncodeOfDecode : decode (.cmd 0x1E) = .ok .decval := rfl

theorem witness_ReservedCommandsRefused_upper :
    (0x20#32).extractLsb' 5 27 ≠ 0 ∧
      ({ State.reset with host := [.writeRegister 0 0x20] } : State).host.head? =
        some (.writeRegister 0 0x20) := by
  decide
theorem witness_ReservedCommandsRefused_op :
    ((0x1F#32).extractLsb' 0 5).toNat ∈
        [0x04, 0x05, 0x06, 0x07, 0x0B, 0x0E, 0x0F, 0x12, 0x13, 0x16, 0x17, 0x1B, 0x1F] ∧
      refusalIn (step { State.reset with host := [.writeRegister 0 0x1F] }) = some (.reservedOp 0x1F) := by decide
theorem witness_ReservedCommandsRefused_assigned :
    ¬ ((0x1E#32).extractLsb' 5 27 ≠ 0 ∨ ((0x1E#32).extractLsb' 0 5).toNat ∈
        [0x04, 0x05, 0x06, 0x07, 0x0B, 0x0E, 0x0F, 0x12, 0x13, 0x16, 0x17, 0x1B, 0x1F]) := by decide

theorem witness_StepRunsTheDecodedInstruction :
    (v1.withFetchWord 32 1).host = HostAction.ofCode (.cmd 1) :: [] ∧ decode (.cmd 1) = .ok .compress := ⟨rfl, rfl⟩
theorem witness_StepRunsTheFetchWord :
    decodeTableWord 32 0x1E = some .decval ∧ decodeTableWord 8 0x0F = some (.vleCont 7) := ⟨rfl, rfl⟩
theorem witness_HostWritesRegister :
    State.host { State.reset with host := [.writeRegister 7 9] } = .writeRegister 7 9 :: [] ∧ (7#3) ≠ 0 := by decide
theorem witness_HostFillsMemoryAndIdles :
    State.memoriesCanonical { v1 with host := [.putSample 0 3] } ∧
      State.host { v1 with host := [.putSample 0 3] } = .putSample 0 3 :: [] ∧
      State.memoriesCanonical { v1 with host := [.putByte 0xFFFFFFFF 3] } ∧
      State.host { v1 with host := [.putByte 0xFFFFFFFF 3] } = .putByte 0xFFFFFFFF 3 :: [] ∧ v1.host = [] := by decide
theorem witness_ResetZeroesEveryRegister : State.host { faulted with host := [.reset] } = .reset :: [] := rfl

theorem witness_RefusedOperations_faulted :
    faulted.status.extractLsb' 0 2 = 2 ∧ decode (.cmd 0x14) = .ok .zzenc ∧ Instr.zzenc ≠ .nop ∧ Instr.zzenc ≠ .clrf :=
  ⟨rfl, rfl, by decide, by decide⟩
theorem witness_RefusedOperations_range :
    State.reset.status.extractLsb' 0 2 ≠ 2 ∧
      2 ^ 30 - 1 < (State.numPixels { State.reset with numPixels := 0x40000000 }).toNat ∧
      State.reset.numPixels ≤ State.reset.e.si ∧ State.reset.numPixels ≤ State.reset.d.so := by decide

theorem witness_ZigzagOperationsDeliver : State.reset.faulted = false := rfl
theorem witness_ZigzagArithmeticForms :
    (-2 ^ 30 ≤ (0xC0000000#32).toInt ∧ (0xC0000000#32).toInt < 2 ^ 30) ∧
    (-2 ^ 30 ≤ (0x3FFFFFFF#32).toInt ∧ (0x3FFFFFFF#32).toInt < 2 ^ 30) ∧ (0x7FFFFFFF#32).toNat < 2 ^ 31 := by decide

theorem witness_EncinitSeedsEncoder_admitted :
    State.faulted { State.reset with numPixels := 0x3FFFFFFF } = false ∧
      (State.numPixels { State.reset with numPixels := 0x3FFFFFFF }).toNat ≤ 2 ^ 30 - 1 := by decide
theorem witness_EncinitSeedsEncoder_refused :
    State.faulted { State.reset with numPixels := 0x40000000 } = false ∧
      2 ^ 30 - 1 < (State.numPixels { State.reset with numPixels := 0x40000000 }).toNat := by decide
theorem witness_EmitnibAppendsNibble_short :
    State.reset.faulted = false ∧ State.reset.memoriesCanonical ∧ State.reset.e.cnt ≠ 7 := by decide
theorem witness_EmitnibAppendsNibble_full :
    v10.faulted = false ∧ v10.memoriesCanonical ∧ v10.e.cnt = 7 ∧ 4 * v10.e.wp.toNat + 4 ≤ v10.outCap.toNat := by
  decide
theorem witness_EmitnibAppendsNibble_overflow :
    v10.faulted = false ∧ v10.memoriesCanonical ∧ v10.e.cnt = 7 ∧
      (State.outCap { v10 with outCap := 3 }).toNat < 4 * v10.e.wp.toNat + 4 := by decide
theorem witness_FlushEndsStream_empty :
    State.reset.faulted = false ∧ State.reset.memoriesCanonical ∧ State.reset.encoderSound ∧
      State.reset.e.cnt = 0 := by decide
theorem witness_FlushEndsStream_partial :
    v10.faulted = false ∧ v10.memoriesCanonical ∧ v10.encoderSound ∧ v10.e.cnt ≠ 0 ∧
      4 * v10.e.wp.toNat + 4 ≤ v10.outCap.toNat := by decide
theorem witness_FlushEndsStream_overflow :
    State.encoderSound { v10 with outCap := 3 } ∧ v10.e.cnt ≠ 0 ∧
      (State.outCap { v10 with outCap := 3 }).toNat < 4 * v10.e.wp.toNat + 4 := by decide
theorem witness_WordByteOrder : Memory.wf (cells 0 [(1 : Byte), 2, 3, 4, 5]) = true := by decide
theorem witness_PackerKeepsNibbleOrder :
    v10.memoriesCanonical ∧ v10.encoderSound ∧ v10.roomFor [(1 : Nibble), 2, 3].length := by decide
theorem witness_EncvleEmitsMinimalUnit :
    v10.faulted = false ∧ v10.memoriesCanonical ∧ v10.encoderSound ∧ v10.roomFor (unitLength v10.arg.toNat) ∧
      ¬ State.roomFor { v10 with outCap := 3 } (unitLength v10.arg.toNat) := by decide

theorem witness_DecinitSeedsDecoder_admitted :
    State.faulted { State.reset with numPixels := 0x3FFFFFFF } = false ∧
      (State.numPixels { State.reset with numPixels := 0x3FFFFFFF }).toNat ≤ 2 ^ 30 - 1 := by decide
theorem witness_DecinitSeedsDecoder_refused :
    State.faulted { State.reset with numPixels := 0x40000000 } = false ∧
      2 ^ 30 - 1 < (State.numPixels { State.reset with numPixels := 0x40000000 }).toNat := by decide
theorem witness_TakenibReturnsTopNibble_shift : v23.faulted = false ∧ v23.d.cnt ≠ 0 := by decide
theorem witness_TakenibReturnsTopNibble_load :
    v1Decode.faulted = false ∧ v1Decode.d.cnt = 0 ∧ 4 * v1Decode.d.rp.toNat + 4 ≤ v1Decode.inLen.toNat := by decide
theorem witness_TakenibReturnsTopNibble_truncated :
    State.faulted { v1Decode with inLen := 3 } = false ∧ v1Decode.d.cnt = 0 ∧
      (State.inLen { v1Decode with inLen := 3 }).toNat < 4 * v1Decode.d.rp.toNat + 4 := by decide
theorem witness_UnpackerReturnsStreamNibbles :
    v1Decode.d.cnt = 0 ∧ v1Decode.d.rp = 0 ∧ 4 * (7 / 8 + 1) ≤ v1Decode.inLen.toNat ∧
      v1Decode.inLen.toNat < 4 * (8 / 8 + 1) := by decide

theorem witness_DecvleReturnsUnitValue :
    v23.faulted = false ∧ v23.decoderSound ∧ isUnit [0xF, 7] = true ∧ [(0xF : Nibble), 7].length ≤ 10 ∧
      v23.nextNibble 0 = some 0xF ∧ v23.nextNibble 1 = some 7 := by decide
theorem witness_DecvleFaults_overlong :
    v67.faulted = false ∧ v67.decoderSound ∧ v67.d.so < v67.numPixels ∧
      (∀ n ∈ List.replicate 10 (8 : Nibble), n.getLsbD 3 = true) ∧
      (∀ k (h : k < (List.replicate 10 (8 : Nibble)).length),
        v67.nextNibble k = some (List.replicate 10 (8 : Nibble))[k]) ∧
      (List.replicate 10 (8 : Nibble)).length = 10 := by decide
theorem witness_DecvleFaults_truncated :
    State.faulted { v67 with inLen := 7 } = false ∧ State.decoderSound { v67 with inLen := 7 } ∧
      (∀ n ∈ List.replicate 8 (8 : Nibble), n.getLsbD 3 = true) ∧
      (∀ k (h : k < (List.replicate 8 (8 : Nibble)).length),
        State.nextNibble { v67 with inLen := 7 } k = some (List.replicate 8 (8 : Nibble))[k]) ∧
      (List.replicate 8 (8 : Nibble)).length < 10 ∧ State.nextNibble { v67 with inLen := 7 } 8 = none := by decide
theorem witness_VleInverseLaw_supported :
    v67.faulted = false ∧ 1073741823 < 2 ^ 30 ∧
      ∀ k, k < unitLength 1073741823 →
        State.nextNibble { v67 with eSpace := cells 0 [0xFF, 0xFF, 0xFF, 0xFF, 0, 0, 0, 0xF7] } k =
          some (unitNibble 1073741823 k) := by decide
theorem witness_VleInverseLaw_overlong :
    v67.faulted = false ∧ v67.decoderSound ∧ 2 ^ 30 < 2 ^ 32 ∧
      ∀ k, k < unitLength 1073741824 →
        State.nextNibble { v67 with eSpace := cells 0 [0x88, 0x88, 0x88, 0x88, 0, 0, 0x10, 0x88] } k =
          some (unitNibble 1073741824 k) := by decide

theorem witness_VleContGoesOn_faulted : faulted.faulted = true := rfl
theorem witness_VleContGoesOn_bounds :
    State.reset.faulted = false ∧ (⟨0, 8⟩ : VleUnit).k.val + 1 < 10 ∧
      (⟨0, 9⟩ : VleUnit) = (State.vle { State.reset with vle := some ⟨0, 9⟩ }).getD ⟨0, 0⟩ := by decide
theorem witness_VleEndDeliversValue : faulted.faulted = true ∧ State.reset.faulted = false := ⟨rfl, rfl⟩
theorem witness_NibbleFormsDeliverUnitValue :
    State.reset.faulted = false ∧ State.reset.vle = none ∧ isUnit [8, 8, 8, 8, 8, 8, 8, 8, 8, 1] = true ∧
      [(8 : Nibble), 8, 8, 8, 8, 8, 8, 8, 8, 1].length ≤ 10 := by decide

theorem witness_ScanzConsumesZeroRun :
    v40.faulted = false ∧ v40.e.si ≤ v40.numPixels ∧
      (State.e { v40 with e := { EncCtx.zero with si := 7 } }).si ≤ v40.numPixels := by decide
theorem witness_ScannzCountsNonzeroRun : v40.faulted = false ∧ v40.e.si ≤ v40.numPixels := by decide
theorem witness_EncvalCodesOneSample :
    v1.faulted = false ∧ v1.memoriesCanonical ∧ v1.encoderSound ∧ v1.e.si < v1.numPixels ∧
      v1.roomFor (unitOf (zigzagInt ((v1.sSpace.read 0).toInt - v1.e.prev.toInt))).length ∧
      ¬ State.roomFor { v10 with outCap := 3 } (unitOf (zigzagInt 5)).length ∧
      State.encoderSound { v10 with numPixels := 1 } ∧ (State.e { v10 with numPixels := 1 }).si < 1 := by decide

theorem witness_CompressWritesCanonicalStream :
    v1.faulted = false ∧ v1.memoriesCanonical ∧ v1.numPixels.toNat ≤ 2 ^ 30 - 1 ∧
      streamBytes (streamOf v1.samples).length ≤ v1.outCap.toNat := by decide
theorem witness_CompressFaultsWithoutRoom :
    State.faulted { v1 with outCap := 3 } = false ∧ v1.memoriesCanonical ∧ v1.numPixels.toNat ≤ 2 ^ 30 - 1 ∧
      (State.outCap { v1 with outCap := 3 }).toNat < streamBytes (streamOf v1.samples).length := by decide
theorem witness_CompressFitsFourBytesPerSample :
    State.faulted { v1 with outCap := 16 } = false ∧ v1.memoriesCanonical ∧ v1.numPixels.toNat ≤ 2 ^ 30 - 1 ∧
      4 * v1.numPixels.toNat ≤ (State.outCap { v1 with outCap := 16 }).toNat := by decide
theorem witness_AllZeroStream : 0 < 1 := by decide
theorem witness_EmptyStreamTouchesNothing : State.reset.faulted = false ∧ State.reset.numPixels = 0 := ⟨rfl, rfl⟩

theorem witness_WrzWritesZeroRun :
    State.faulted { v50 with arg := 4 } = false ∧ State.memoriesCanonical { v50 with arg := 4 } ∧
      State.arg { v50 with arg := 4 } ≤ v50.d.rem ∧ v50.d.rem < State.arg { v50 with arg := 5 } := by decide
theorem witness_NzrunAccountsForRun :
    v50.faulted = false ∧ State.arg { v50 with arg := 4 } ≤ v50.d.rem ∧
      v50.d.rem < State.arg { v50 with arg := 5 } := by decide
theorem witness_DecvalWritesOneSample :
    v51.faulted = false ∧ v51.memoriesCanonical ∧ v51.decoderSound ∧ v51.d.so < v51.numPixels ∧
      isUnit [4] = true ∧ v51.nextNibble 0 = some 4 ∧
      (7 : Sample) = BitVec.ofInt 16 (v51.d.prev.toInt + unzigzagInt (unitValue [4])) := by decide

theorem witness_DecompressDecodesCanonicalStream :
    v1Decode.faulted = false ∧ v1Decode.memoriesCanonical ∧ v1Decode.numPixels.toNat ≤ 2 ^ 30 - 1 ∧
      [(5 : Sample), 0, 0, 7].length = v1Decode.numPixels.toNat ∧
      (∀ i (h : i < (streamOf [5, 0, 0, 7]).length), v1Decode.eNibble i = (streamOf [5, 0, 0, 7])[i]) ∧
      streamBytes (streamOf [5, 0, 0, 7]).length ≤ v1Decode.inLen.toNat := by decide
theorem witness_DecompressDecodesEveryStream :
    vAccepted.faulted = false ∧ vAccepted.memoriesCanonical ∧ vAccepted.numPixels.toNat ≤ 2 ^ 30 - 1 ∧
      (∀ g ∈ vGroups, g.legal = true) ∧ (vGroups.map Group.size).sum = vAccepted.numPixels.toNat ∧
      (∀ g ∈ vGroups.getLast?, 0 < g.size) ∧ vAccepted.inputBegins (vGroups.flatMap Group.nibbles) := by decide
theorem witness_DecompressRaisesEachFault_truncated :
    State.faulted { v67 with inLen := 7 } = false ∧ State.numPixels { v67 with inLen := 7 } = 1 ∧
      groupGoesOn 1 [] = true ∧ (∀ c ∈ List.replicate 8 (8 : Nibble), c.getLsbD 3 = true) ∧
      State.inputBegins { v67 with inLen := 7 } (List.replicate 8 8) ∧
      (List.replicate 8 (8 : Nibble)).length = 8 * ((State.inLen { v67 with inLen := 7 }).toNat / 4) := by decide
theorem witness_DecompressRaisesEachFault_overlong :
    v67.faulted = false ∧ v67.numPixels = 1 ∧ groupGoesOn 1 [] = true ∧
      (∀ c ∈ List.replicate 10 (8 : Nibble), c.getLsbD 3 = true) ∧ v67.inputBegins (List.replicate 10 8) := by decide
theorem witness_DecompressRaisesEachFault_overrun_zeros :
    Group.legal ⟨[0], [1], [[0xA, 1]]⟩ = true ∧ Group.size ⟨[0], [1], [[0xA, 1]]⟩ + 1 = 2 ∧
      State.inputBegins { v1Decode with numPixels := 2 } [0, 1, 0xA, 1, 2] ∧ isShortUnit [2] = true ∧
      1 < unitValue [2] := by decide
theorem witness_DecompressRaisesEachFault_overrun_nonzeros :
    Group.legal ⟨[0], [1], [[0xA, 1]]⟩ = true ∧ Group.size ⟨[0], [1], [[0xA, 1]]⟩ + 2 = 3 ∧
      groupGoesOn 2 [[2]] = true ∧ State.inputBegins { v1Decode with numPixels := 3 } [0, 1, 0xA, 1, 2, 1] ∧
      isShortUnit [1] = true ∧ 2 < unitValue [2] + unitValue [1] := by decide
theorem witness_DecompressRaisesEachFault_cut :
    [(5 : Sample), 0, 0, 7].length = v1Decode.numPixels.toNat ∧
      (State.inLen { v1Decode with inLen := 3 }).toNat < streamBytes (streamOf [5, 0, 0, 7]).length ∧
      State.inputBegins { v1Decode with inLen := 3 } ((streamOf [5, 0, 0, 7]).take (8 * (3 / 4))) := by decide
theorem witness_CompressDecompressRoundTrip :
    v1.faulted = false ∧ v1.memoriesCanonical ∧ v1.numPixels.toNat ≤ 2 ^ 30 - 1 ∧
      streamBytes (streamOf v1.samples).length ≤ v1.outCap.toNat ∧
      Memory.wf (cells 0 [(9 : Sample), 9, 9, 9]) = true ∧ (∃ t, exec .compress v1 = .next t ∧ t.res ≤ 4) :=
  ⟨by decide, by decide, by decide, by decide, by decide, _, rfl, by decide⟩
theorem witness_DecompressEndsOnEveryInput :
    v67.faulted = false ∧ v67.numPixels.toNat ≤ 2 ^ 30 - 1 := by decide
theorem witness_GroupLoopsEndByThemselves : v1.numPixels.toNat ≤ 4 ∧ v1Decode.inLen.toNat + 1 ≤ 5 := by decide

theorem witness_OperationsRaiseOnlyTheirFaults :
    State.reset.faulted = false ∧ ∃ t, exec .takenib State.reset = .next t ∧ t.faulted = true :=
  ⟨rfl, takeFault .nowhere .truncatedInput 0 State.reset, rfl, faulted_takeFault _ _ _ _⟩
theorem witness_FaultIsSticky :
    faulted.faulted = true ∧ ∃ t, step (faulted.withFetchWord 32 0) = .next t := ⟨rfl, _, rfl⟩
theorem witness_InstructionsNeverWriteInputs : ∃ t, exec .nop State.reset = .next t := ⟨_, rfl⟩
theorem witness_AccessMatrix : ∃ t, exec .takenib v1Decode = .next t ∧ t.faulted = false := ⟨_, rfl, by decide⟩
theorem witness_OrchestratorsStayInRange :
    (∃ t, exec .compress v1 = .next t) ∧ ∃ t, exec .decompress v1Decode = .next t := ⟨⟨_, rfl⟩, _, rfl⟩
theorem witness_ContextsDoNotInfluenceStreams :
    (∃ t, exec .compress v1 = .next t ∧ t.faulted = false) ∧
      ∃ t, exec .decompress v1Decode = .next t ∧ t.faulted = false :=
  ⟨⟨_, rfl, by decide⟩, _, rfl, by decide⟩

theorem witness_StepKeepsMemoriesCanonical :
    (v1.withFetchWord 32 1).memoriesCanonical ∧ ∃ t, step (v1.withFetchWord 32 1) = .next t := ⟨by decide, _, rfl⟩
theorem witness_StepKeepsStatusLegal :
    (faulted.withFetchWord 32 3).statusLegal ∧ ∃ t, step (faulted.withFetchWord 32 3) = .next t := ⟨by decide, _, rfl⟩
theorem witness_StepKeepsContextsSound :
    (v10.withFetchWord 32 9).contextsSound ∧ ∃ t, step (v10.withFetchWord 32 9) = .next t :=
  ⟨fun _ => by decide, _, rfl⟩

end Sys2Proof.Tests
end

section
/-! PROOFS. Host steps: what one action of the host does, and what a step can do when it answers a next state. -/

open Sys2Proof Sys2Proof.Machine

namespace Sys2Proof.Machine

variable {s t : State}

/-! ### Register writes -/

/-- R35, R40: the four registers a host write can change, each by its own number. -/
theorem storeRegister_eq {n : BitVec 3} (s : State) (v : Word) :
    s.storeRegister n v = { s with
      arg := if n = 1 then v else s.arg
      numPixels := if n = 3 then v else s.numPixels
      outCap := if n = 4 then v else s.outCap
      inLen := if n = 5 then v else s.inLen } := by
  have numbers : ∀ n : BitVec 3, n = 0 ∨ n = 1 ∨ n = 2 ∨ n = 3 ∨ n = 4 ∨ n = 5 ∨ n = 6 ∨ n = 7 := by decide
  rcases numbers n with rfl | rfl | rfl | rfl | rfl | rfl | rfl | rfl <;> rfl

/-- R35 to R40: with all six stored registers 0, every interface register reads 0. -/
theorem readRegister_eq_zero (ha : s.arg = 0) (hr : s.res = 0) (hn : s.numPixels = 0) (ho : s.outCap = 0)
    (hi : s.inLen = 0) (hs : s.status = 0) (n : BitVec 3) : s.readRegister n = 0 := by
  unfold State.readRegister
  split
  · exact ha
  · exact hr
  · exact hn
  · exact ho
  · exact hi
  · exact hs
  · rfl

/-! ### Codes -/

theorem runCode_of_decode {x : Code} {i : Instr} (h : decode x = .ok i) (s : State) : runCode x s = exec i s := by
  simp [runCode, h]

theorem runCode_eq_next {x : Code} : runCode x s = .next t ↔ ∃ i, decode x = .ok i ∧ exec i s = .next t := by
  cases h : decode x <;> simp [runCode, h]

/-- R36: handing a code to the block runs it. -/
@[simp] theorem perform_ofCode (x : Code) (s : State) : perform (.ofCode x) s = runCode x s := by
  cases x <;> rfl

theorem hostWrite_cmd (v : Word) (s : State) : hostWrite 0 v s = runCode (.cmd v) s := rfl

theorem hostWrite_register {n : BitVec 3} (h : n ≠ 0) (v : Word) (s : State) :
    hostWrite n v s = .next (s.storeRegister n v) :=
  if_neg h

/-- The entry `decodeTableWord` reads is the decoding of the row's code. -/
theorem decode_of_decodeTableWord {nbits w : Nat} {i : Instr} (h : decodeTableWord nbits w = some i) :
    decode (codeOfTableWord nbits w) = .ok i := by
  unfold decodeTableWord at h
  obtain ⟨-, h⟩ := Option.ite_none_right_eq_some.mp h
  cases hx : decode (codeOfTableWord nbits w) <;> simp_all [Except.toOption]

/-! ### Steps -/

theorem step_of_host_cons {a : HostAction} {rest : List HostAction} (h : s.host = a :: rest) :
    step s = perform a { s with host := rest, tick := s.tick + 1 } := by
  simp [step, stepHost, State.afterFetch, h]

/-- R63, R243: everything a step can do when it answers a next state. -/
theorem step_eq_next :
    step s = .next t ↔
      (s.host = [] ∧ t = s) ∨ ∃ a rest, s.host = a :: rest ∧ perform a s.afterFetch = .next t := by
  cases h : s.host with
  | nil => simp [step, stepHost, h, eq_comm]
  | cons a rest => simp [step, stepHost, h]

/-- R35, R36, R60, R260: everything a host action can do when it answers a next state: run an instruction, store a
register, fill a cell or a byte, reset. -/
theorem perform_eq_next {a : HostAction} (h : perform a s = .next t) :
    (∃ x i, a = .ofCode x ∧ decode x = .ok i ∧ exec i s = .next t) ∨
      (∃ n v, a = .writeRegister n v ∧ t = s.storeRegister n v) ∨
      (∃ i v, a = .putSample i v ∧ t = { s with sSpace := s.sSpace.write i.toNat v }) ∨
      (∃ o v, a = .putByte o v ∧ t = { s with eSpace := s.eSpace.write o.toNat v }) ∨
      (a = .reset ∧ t = resetBlock s) := by
  cases a with
  | writeRegister n v =>
    by_cases hn : n = 0
    · subst hn
      obtain ⟨i, hi, h⟩ := runCode_eq_next.mp h
      exact .inl ⟨.cmd v, i, rfl, hi, h⟩
    · rw [perform, hostWrite_register hn] at h
      cases h
      exact .inr (.inl ⟨n, v, rfl, rfl⟩)
  | putSample i v => cases h; exact .inr (.inr (.inl ⟨i, v, rfl, rfl⟩))
  | putByte o v => cases h; exact .inr (.inr (.inr (.inl ⟨o, v, rfl, rfl⟩)))
  | reset => cases h; exact .inr (.inr (.inr (.inr ⟨rfl, rfl⟩)))
  | nibble n =>
    have h : runCode (.nib n) s = .next t := h
    obtain ⟨i, hi, h⟩ := runCode_eq_next.mp h
    exact .inl ⟨.nib n, i, rfl, hi, h⟩

/-- A property of the contexts and STATUS holds after every step once the reset event gives it and every instruction
keeps it: the host's other actions write neither. -/
theorem step_keeps {P : State → Prop}
    (hcongr : ∀ {s t : State}, P s → t.e = s.e → t.d = s.d → t.status = s.status → P t)
    (hreset : ∀ s, P (resetBlock s)) (hexec : ∀ {i : Instr} {s t : State}, P s → exec i s = .next t → P t)
    (hs : P s) (h : step s = .next t) : P t := by
  rcases step_eq_next.mp h with ⟨-, rfl⟩ | ⟨a, rest, -, ha⟩
  · exact hs
  have hf : P s.afterFetch := hcongr hs rfl rfl rfl
  rcases perform_eq_next ha with ⟨x, i, -, -, hi⟩ | ⟨n, v, -, rfl⟩ | ⟨i, v, -, rfl⟩ | ⟨o, v, -, rfl⟩ | ⟨-, rfl⟩
  · exact hexec hf hi
  · rw [storeRegister_eq]
    exact hcongr hf rfl rfl rfl
  · exact hcongr hf rfl rfl rfl
  · exact hcongr hf rfl rfl rfl
  · exact hreset _

end Sys2Proof.Machine

/-- Settles O5: the code's host action is taken off the queue, counted, and handed to the decoder. -/
theorem stepRunsTheDecodedInstruction : Obligations.StepRunsTheDecodedInstruction := by
  intro s x i rest hhost hdec
  rw [step_of_host_cons hhost, perform_ofCode, runCode_of_decode hdec]

/-- Settles O6: `withFetchWord` puts the row's code first in the queue. -/
theorem stepRunsTheFetchWord : Obligations.StepRunsTheFetchWord := by
  intro s nbits w i h
  exact stepRunsTheDecodedInstruction (s.withFetchWord nbits w) _ i s.host rfl (decode_of_decodeTableWord h)

/-- Settles O7: a write to a register other than CMD is `storeRegister`. -/
theorem hostWritesRegister : Obligations.HostWritesRegister := by
  intro s n v rest hhost hn
  refine ⟨_, (step_of_host_cons hhost).trans (hostWrite_register hn v _), ?_⟩
  simp [storeRegister_eq, State.readRegister]

/-- Settles O9: the reset event leaves `resetBlock`. -/
theorem resetZeroesEveryRegister : Obligations.ResetZeroesEveryRegister := by
  intro s rest hhost
  exact ⟨_, step_of_host_cons hhost, rfl, readRegister_eq_zero rfl rfl rfl rfl rfl rfl⟩

/-- Settles O49: the four words, evaluated. -/
theorem faultStatusWords : Obligations.FaultStatusWords := by
  refine ⟨?_, ?_, ?_, ?_⟩ <;> rfl

/-- Settles O58: the state after reset, evaluated. -/
theorem resetStateIsSound : Obligations.ResetStateIsSound := by
  have encoder : State.reset.encoderSound := by decide
  have decoder : State.reset.decoderSound := by decide
  exact ⟨by decide, by decide, fun _ => ⟨encoder, decoder⟩, encoder, decoder, rfl, rfl, rfl,
    readRegister_eq_zero rfl rfl rfl rfl rfl rfl⟩

end

section
/-! PROOFS. What each instruction writes: the registers and the memory its body can change, one case per group of
instructions, and the inversion of exec over it. -/

open Sys2Proof Sys2Proof.Machine

namespace Sys2Proof.Machine

variable {s t u : State}

/-! ### What the shared bodies write -/

/-- R112, R113: of a state, the packer writes no more than `E.word`, `E.cnt`, `E.wp` and E-space. -/
def PackerWrites (s t : State) : Prop :=
  ∃ word cnt wp m, t = { s with e := { s.e with word := word, cnt := cnt, wp := wp }, eSpace := m }

/-- R116, R134: of a state, the unpacker and the VLE decoder write no more than `D.word`, `D.cnt`, `D.rp` and the
transients of R33. -/
def UnpackerWrites (s t : State) : Prop :=
  ∃ word cnt rp vle, t = { s with d := { s.d with word := word, cnt := cnt, rp := rp }, vle := vle }

theorem PackerWrites.refl (s : State) : PackerWrites s s := ⟨_, _, _, _, rfl⟩

theorem PackerWrites.trans (h : PackerWrites s t) (k : PackerWrites t u) : PackerWrites s u := by
  obtain ⟨_, _, _, _, rfl⟩ := h
  obtain ⟨_, _, _, _, rfl⟩ := k
  exact ⟨_, _, _, _, rfl⟩

theorem UnpackerWrites.trans (h : UnpackerWrites s t) (k : UnpackerWrites t u) : UnpackerWrites s u := by
  obtain ⟨_, _, _, _, rfl⟩ := h
  obtain ⟨_, _, _, _, rfl⟩ := k
  exact ⟨_, _, _, _, rfl⟩

theorem emitNibble_writes {n : Nibble} (h : emitNibble n s = .done () t) : PackerWrites s t := by
  rcases emitNibble_eq_done.mp h with ⟨-, rfl⟩ | ⟨-, -, rfl⟩ <;> exact ⟨_, _, _, _, rfl⟩

theorem encodeVleLoop_writes {fuel : Nat} {v : Word} (h : encodeVleLoop fuel v s = .done () t) : PackerWrites s t := by
  induction fuel generalizing v s with
  | zero => cases h; exact .refl _
  | succ fuel ih =>
    obtain ⟨_, u, hu, h⟩ := Run.bind_eq_done.mp h
    split at h
    · cases h; exact emitNibble_writes hu
    · exact (emitNibble_writes hu).trans (ih h)

theorem encodeVle_writes {v : Word} (h : encodeVle v s = .done () t) : PackerWrites s t := encodeVleLoop_writes h

theorem flushPacker_writes (h : flushPacker s = .done () t) : PackerWrites s t := by
  by_cases hc : s.e.cnt = 0
  · rw [flushPacker_empty hc] at h; cases h; exact .refl _
  · rcases Nat.lt_or_ge s.outCap.toNat (4 * s.e.wp.toNat + 4) with hr | hr
    · rw [flushPacker_overflow hc hr] at h; cases h
    · rw [flushPacker_full hc hr] at h; cases h; exact ⟨_, _, _, _, rfl⟩

theorem takeNibble_writes {n : Nibble} (h : takeNibble s = .done n t) : UnpackerWrites s t := by
  rcases takeNibble_eq_done.mp h with ⟨-, -, rfl⟩ | ⟨-, -, -, rfl⟩ <;> exact ⟨_, _, _, _, rfl⟩

/-- R134: a pass on a nibble `1ppp` writes the unit in progress alone. -/
theorem vleContinue_writes {p : Payload} (h : vleContinue p s = .done () t) : ∃ v, t = { s with vle := v } := by
  by_cases hk : s.vleUnit.k.val + 1 < 10
  · rw [vleContinue_more hk] at h; cases h; exact ⟨_, rfl⟩
  · rw [vleContinue_overlong hk] at h; cases h

/-- R134: a pass on a nibble `0ppp` drops the unit in progress and writes nothing else. -/
theorem vleFinish_writes {p : Payload} {v : Word} (h : vleFinish p s = .done v t) : t = { s with vle := none } := by
  cases h; rfl

theorem decodeVleLoop_writes {fuel : Nat} {v : Word} (h : decodeVleLoop fuel s = .done v t) : UnpackerWrites s t := by
  induction fuel generalizing s with
  | zero => cases h
  | succ fuel ih =>
    obtain ⟨n, u, hu, h⟩ := Run.bind_eq_done.mp h
    split at h
    · obtain ⟨_, u', hu', h⟩ := Run.bind_eq_done.mp h
      obtain ⟨_, rfl⟩ := vleContinue_writes hu'
      exact (takeNibble_writes hu).trans (.trans ⟨_, _, _, _, rfl⟩ (ih h))
    · obtain rfl := vleFinish_writes h
      exact (takeNibble_writes hu).trans ⟨_, _, _, _, rfl⟩

theorem decodeVle_writes {v : Word} (h : decodeVle s = .done v t) : UnpackerWrites s t :=
  .trans (t := { s with vle := none }) ⟨_, _, _, _, rfl⟩ (decodeVleLoop_writes h)

/-- R170: SCANZ writes its cursor alone. -/
theorem scanZerosLoop_writes {fuel : Nat} {z r : Word} (h : scanZerosLoop fuel z s = .done r t) :
    ∃ si, t = { s with e := { s.e with si := si } } := by
  induction fuel generalizing z s with
  | zero => cases h; exact ⟨_, rfl⟩
  | succ fuel ih =>
    rw [scanZerosLoop] at h
    split at h
    · obtain ⟨_, rfl⟩ := ih h; exact ⟨_, rfl⟩
    · cases h; exact ⟨_, rfl⟩

/-- R190: the loop of WRZ writes its cursor and S-space alone. -/
theorem writeZeros_writes (n : Nat) (s : State) :
    ∃ so m, writeZeros n s = { s with d := { s.d with so := so }, sSpace := m } := by
  induction n generalizing s with
  | zero => exact ⟨_, _, rfl⟩
  | succ n ih =>
    obtain ⟨_, _, h⟩ := ih { sWrite s s.d.so 0 with d := { s.d with so := s.d.so + 1 } }
    exact ⟨_, _, h⟩

theorem writeZeroRun_writes {c : Word} (h : writeZeroRun c s = .done () t) :
    ∃ so rem m, t = { s with d := { s.d with so := so, rem := rem }, sSpace := m } := by
  obtain ⟨-, rfl⟩ := writeZeroRun_eq_done.mp h
  obtain ⟨_, _, hz⟩ := writeZeros_writes c.toNat s
  rw [hz]
  exact ⟨_, _, _, rfl⟩

theorem accountNonzeroRun_writes {c : Word} (h : accountNonzeroRun c s = .done () t) :
    ∃ rem, t = { s with d := { s.d with rem := rem } } := by
  obtain ⟨-, rfl⟩ := accountNonzeroRun_eq_done.mp h
  exact ⟨_, rfl⟩

/-- R192: DECVAL leaves `D.rem` alone. -/
theorem decodeValue_writes {v : Word} (h : decodeValue s = .done v t) :
    ∃ d m vle, d.rem = s.d.rem ∧ t = { s with d := d, sSpace := m, vle := vle } := by
  obtain ⟨_, u, hu, h⟩ := Run.bind_eq_done.mp h
  obtain ⟨_, _, _, _, rfl⟩ := decodeVle_writes hu
  cases h
  refine ⟨_, _, _, ?_, rfl⟩
  rfl

/-! ### What each instruction writes -/

/-- R45, R52: `u` is a state the body of `i`, run in `s` to its end, can leave, as far as the registers and the memory
it may write go. NOP and CLRF have no body. -/
inductive BodyWrites (s : State) : Instr → State → Prop where
  | nothing {i : Instr} (hi : i = .zzenc ∨ i = .zzdec ∨ i = .scannz) : BodyWrites s i s
  | encoder {i : Instr} (hi : i = .compress ∨ i = .encval) (e : EncCtx) (m : Memory 8) :
      BodyWrites s i { s with e := e, eSpace := m }
  | encinit (e : EncCtx) : BodyWrites s .encinit { s with e := e }
  | packer {i : Instr} {u : State} (hi : i = .emitnib ∨ i = .flush ∨ i = .encvle) (h : PackerWrites s u) :
      BodyWrites s i u
  | scanz (si : Word) : BodyWrites s .scanz { s with e := { s.e with si := si } }
  | decompress (d : DecCtx) (m : Memory 16) (vle : Option VleUnit) :
      BodyWrites s .decompress { s with d := d, sSpace := m, vle := vle }
  | decinit (d : DecCtx) : BodyWrites s .decinit { s with d := d }
  | unpacker {i : Instr} {u : State} (hi : i = .takenib ∨ i = .decvle) (h : UnpackerWrites s u) :
      BodyWrites s i u
  | wrz (so rem : Word) (m : Memory 16) :
      BodyWrites s .wrz { s with d := { s.d with so := so, rem := rem }, sSpace := m }
  | nzrun (rem : Word) : BodyWrites s .nzrun { s with d := { s.d with rem := rem } }
  | decval (d : DecCtx) (m : Memory 16) (vle : Option VleUnit) (h : d.rem = s.d.rem) :
      BodyWrites s .decval { s with d := d, sSpace := m, vle := vle }
  | vleCont (p : Payload) (vle : Option VleUnit) : BodyWrites s (.vleCont p) { s with vle := vle }
  | vleEnd (p : Payload) (vle : Option VleUnit) : BodyWrites s (.vleEnd p) { s with vle := vle }

/-- What the body of `i`, run in `s` to its end, leaves: what it writes, and that it keeps to one of the two paths, with
a canonical memory staying canonical and a sound context sound. -/
structure BodyEnds (i : Instr) (s u : State) : Prop where
  writes : BodyWrites s i u
  path : EncFrame s u ∨ DecFrame s u

/-- Everything an instruction can do when it answers a next state. -/
inductive ExecEnds (i : Instr) (s t : State) : Prop where
  /-- R211. -/
  | nop (hi : i = .nop) (ht : t = s)
  /-- R212. -/
  | clrf (hi : i = .clrf) (ht : t = leaveFault s)
  /-- R210: the operation completes. -/
  | completes (hs : s.faulted = false) (r : Word) (u : State) (hu : BodyEnds i s u) (ht : t = complete r u)
  /-- R81: a nibble form whose unit goes on. -/
  | goesOn (hs : s.faulted = false) (p : Payload) (hi : i = .vleCont p) (hu : BodyEnds i s t)
  /-- R234 to R236: the instruction raises a fault. -/
  | faults (hs : s.faulted = false) (f : FaultCause) (info : Word) (ht : t = takeFault (outputRange i) f info s)

/-- An issued operation ends as its body does. -/
theorem ExecEnds.of_issue {i : Instr} {p : Option Refusal} {b : State → Run Word}
    (h : exec i s = .next t) (hi : exec i s = issue s (outputRange i) p b)
    (hb : ∀ r u, p = none → b s = .done r u → BodyEnds i s u) : ExecEnds i s t := by
  obtain ⟨hs, hp, ⟨r, u, hu, ht⟩ | ⟨f, info, -, ht⟩⟩ := issue_eq_next.mp (hi ▸ h)
  · exact .completes hs r u (hb r u hp hu) ht
  · exact .faults hs f info ht

/-- A body that delivers its result from the state it ends in ends where the run before that ends. -/
theorem Run.exists_of_bind_result_eq_done {α β : Type} {x : Run α} {g : α → State → β} {r : β}
    (h : (x.bind fun a t => .done (g a t) t) = .done r u) : ∃ a, x = .done a u := by
  obtain ⟨a, _, hx, h⟩ := Run.bind_eq_done.mp h
  cases h
  exact ⟨a, hx⟩

/-- R151, R152, R171: a body that delivers a result and writes nothing. -/
theorem BodyEnds.of_result {i : Instr} {v r : Word} (hi : i = .zzenc ∨ i = .zzdec ∨ i = .scannz)
    (h : Run.done v s = .done r u) : BodyEnds i s u := by
  cases h
  exact ⟨.nothing hi, .inl (.refl _)⟩

theorem vleCont_ends {p : Payload} (h : exec (.vleCont p) s = .next t) : ExecEnds (.vleCont p) s t := by
  rw [exec_vleCont] at h
  cases hs : s.faulted with
  | true => simp [hs] at h
  | false =>
    rw [hs, if_neg Bool.false_ne_true] at h
    split at h
    next hu =>
      cases h
      obtain ⟨_, rfl⟩ := vleContinue_writes hu
      exact .goesOn hs p rfl ⟨.vleCont p _, .inr (vleContinue_frame hu)⟩
    next => cases h; exact .faults hs _ _ rfl

/-- The inversion of `exec`: what each instruction can do when it answers a next state. -/
theorem exec_ends {i : Instr} (h : exec i s = .next t) : ExecEnds i s t := by
  cases i with
  | nop => cases h; exact .nop rfl rfl
  | clrf => cases h; exact .clrf rfl rfl
  | zzenc => exact .of_issue h (exec_zzenc s) fun _ _ _ hu => .of_result (by simp) hu
  | zzdec => exact .of_issue h (exec_zzdec s) fun _ _ _ hu => .of_result (by simp) hu
  | scannz => exact .of_issue h (exec_scannz s) fun _ _ _ hu => .of_result (by simp) hu
  | compress =>
    refine .of_issue h (exec_compress s) fun r u _ hu => ?_
    have frame := compressStream_frame hu
    exact ⟨frame.rest ▸ .encoder (by simp) _ _, .inl frame⟩
  | encval =>
    refine .of_issue h (exec_encval s) fun r u _ hu => ?_
    have frame := encodeValue_frame hu
    exact ⟨frame.rest ▸ .encoder (by simp) _ _, .inl frame⟩
  | encinit =>
    refine .of_issue h (exec_encinit s) fun r u _ hu => ?_
    cases hu
    exact ⟨.encinit _, .inl (encInit_frame s)⟩
  | emitnib =>
    refine .of_issue h (exec_emitnib s) fun r u _ hu => ?_
    obtain ⟨_, hu⟩ := Run.exists_of_bind_result_eq_done hu
    exact ⟨.packer (by simp) (emitNibble_writes hu), .inl (emitNibble_frame hu)⟩
  | flush =>
    refine .of_issue h (exec_flush s) fun r u _ hu => ?_
    obtain ⟨_, hu⟩ := Run.exists_of_bind_result_eq_done hu
    exact ⟨.packer (by simp) (flushPacker_writes hu), .inl (flushPacker_frame hu)⟩
  | encvle =>
    refine .of_issue h (exec_encvle s) fun r u _ hu => ?_
    obtain ⟨_, hu⟩ := Run.exists_of_bind_result_eq_done hu
    exact ⟨.packer (by simp) (encodeVle_writes hu), .inl (encodeVle_frame hu)⟩
  | scanz =>
    refine .of_issue h (exec_scanz s) fun r u _ hu => ?_
    obtain ⟨_, rfl⟩ := scanZerosLoop_writes hu
    exact ⟨.scanz _, .inl (scanZeros_frame hu)⟩
  | decompress =>
    refine .of_issue h (exec_decompress s) fun r u hp hu => ?_
    obtain ⟨_, hu⟩ := Run.exists_of_bind_result_eq_done hu
    have frame := decompressStream_frame (streamStartRefusal_none.mp hp) hu
    exact ⟨frame.rest ▸ .decompress _ _ _, .inr frame⟩
  | decinit =>
    refine .of_issue h (exec_decinit s) fun r u hp hu => ?_
    cases hu
    exact ⟨.decinit _, .inr (decInit_frame (streamStartRefusal_none.mp hp))⟩
  | takenib =>
    refine .of_issue h (exec_takenib s) fun r u _ hu => ?_
    obtain ⟨_, hu⟩ := Run.exists_of_bind_result_eq_done hu
    exact ⟨.unpacker (by simp) (takeNibble_writes hu), .inr (takeNibble_frame hu)⟩
  | decvle =>
    refine .of_issue h (exec_decvle s) fun r u _ hu => ?_
    exact ⟨.unpacker (by simp) (decodeVle_writes hu), .inr (decodeVle_frame hu)⟩
  | wrz =>
    refine .of_issue h (exec_wrz s) fun r u _ hu => ?_
    obtain ⟨_, hu⟩ := Run.exists_of_bind_result_eq_done hu
    obtain ⟨_, _, _, rfl⟩ := writeZeroRun_writes hu
    exact ⟨.wrz _ _ _, .inr (writeZeroRun_frame hu)⟩
  | nzrun =>
    refine .of_issue h (exec_nzrun s) fun r u _ hu => ?_
    obtain ⟨_, hu⟩ := Run.exists_of_bind_result_eq_done hu
    obtain ⟨_, rfl⟩ := accountNonzeroRun_writes hu
    exact ⟨.nzrun _, .inr (accountNonzeroRun_frame hu)⟩
  | decval =>
    refine .of_issue h (exec_decval s) fun r u _ hu => ?_
    obtain ⟨_, _, _, hrem, rfl⟩ := decodeValue_writes hu
    exact ⟨.decval _ _ _ hrem, .inr (decodeValue_frame hu)⟩
  | vleCont p => exact vleCont_ends h
  | vleEnd p =>
    refine .of_issue h (exec_vleEnd s p) fun r u _ hu => ?_
    obtain rfl := vleFinish_writes hu
    exact ⟨.vleEnd p _, .inr (vleFinish_frame hu)⟩

/-! ### Frames of exec -/

/-- A body leaves the input registers, RES, STATUS, ENDIAN and the host's pending actions alone. -/
theorem BodyEnds.rest {i : Instr} (h : BodyEnds i s u) :
    u = { s with e := u.e, d := u.d, sSpace := u.sSpace, eSpace := u.eSpace, vle := u.vle } := by
  rcases h.path with frame | frame <;> rw [frame.rest]

/-- An instruction writes the contexts, RES, STATUS, the memories and the VLE decoder's transients alone. -/
theorem exec_rest {i : Instr} (h : exec i s = .next t) :
    t = { s with
      e := t.e, d := t.d, res := t.res, status := t.status, sSpace := t.sSpace, eSpace := t.eSpace, vle := t.vle } := by
  cases exec_ends h with
  | nop hi ht => rw [ht]
  | clrf hi ht => rw [ht]; rfl
  | completes hs r u hu ht => rw [ht, hu.rest]; rfl
  | goesOn hs p hi hu => rw [hu.rest]
  | faults hs f info ht => rw [ht]; rfl

/-- R210, R211, R212, R234: the values of STATUS an instruction can leave. -/
theorem exec_status {i : Instr} (h : exec i s = .next t) :
    t.status = s.status ∨ t.status = statusIdle ∨ t.status = statusDone ∨ ∃ f, t.status = statusFaulted f := by
  cases exec_ends h with
  | nop hi ht => exact .inl (by rw [ht])
  | clrf hi ht => exact .inr (.inl (by rw [ht, leaveFault_status]))
  | completes hs r u hu ht => exact .inr (.inr (.inl (by rw [ht, complete_status])))
  | goesOn hs p hi hu => exact .inl (by rw [hu.rest])
  | faults hs f info ht => exact .inr (.inr (.inr ⟨f, by rw [ht, takeFault_status]⟩))

/-- An instruction that ends without a fault leaves the contexts as its body, if it has one, leaves them. -/
theorem exec_contexts {i : Instr} (h : exec i s = .next t) (hf : t.faulted = false) :
    (i = .nop ∧ t = s) ∨ (i = .clrf ∧ t = leaveFault s) ∨ ∃ u, BodyWrites s i u ∧ t.e = u.e ∧ t.d = u.d := by
  cases exec_ends h with
  | nop hi ht => exact .inl ⟨hi, ht⟩
  | clrf hi ht => exact .inr (.inl ⟨hi, ht⟩)
  | completes hs r u hu ht => exact .inr (.inr ⟨u, hu.writes, by rw [ht, complete_e], by rw [ht, complete_d]⟩)
  | goesOn hs p hi hu => exact .inr (.inr ⟨t, hu.writes, rfl, rfl⟩)
  | faults hs f info ht => rw [ht, faulted_takeFault] at hf; cases hf

theorem BodyWrites.eSpace {i : Instr} (hw : BodyWrites s i u) (hi : outputRange i ≠ .eSpace) : u.eSpace = s.eSpace := by
  cases hw with
  | encoder mem e m => rcases mem with rfl | rfl <;> exact absurd rfl hi
  | packer mem h => rcases mem with rfl | rfl | rfl <;> exact absurd rfl hi
  | unpacker mem h => obtain ⟨_, _, _, _, rfl⟩ := h; rfl
  | _ => rfl

theorem BodyWrites.sSpace {i : Instr} (hw : BodyWrites s i u) (hi : outputRange i ≠ .sSpace) : u.sSpace = s.sSpace := by
  cases hw with
  | decompress | wrz | decval => exact absurd rfl hi
  | packer mem h => obtain ⟨_, _, _, _, rfl⟩ := h; rfl
  | unpacker mem h => obtain ⟨_, _, _, _, rfl⟩ := h; rfl
  | _ => rfl

/-- R52: an instruction that does not write E-space leaves it alone, whether it completes or faults. -/
theorem exec_eSpace {i : Instr} (h : exec i s = .next t) (hi : outputRange i ≠ .eSpace) : t.eSpace = s.eSpace := by
  cases exec_ends h with
  | nop _ ht => rw [ht]
  | clrf _ ht => rw [ht, leaveFault_eSpace]
  | completes hs r u hu ht => rw [ht, complete_eSpace, hu.writes.eSpace hi]
  | goesOn hs p _ hu => exact hu.writes.eSpace hi
  | faults hs f info ht => rw [ht, takeFault_eSpace, if_neg hi]

/-- R52: an instruction that does not write S-space leaves it alone, whether it completes or faults. -/
theorem exec_sSpace {i : Instr} (h : exec i s = .next t) (hi : outputRange i ≠ .sSpace) : t.sSpace = s.sSpace := by
  cases exec_ends h with
  | nop _ ht => rw [ht]
  | clrf _ ht => rw [ht, leaveFault_sSpace]
  | completes hs r u hu ht => rw [ht, complete_sSpace, hu.writes.sSpace hi]
  | goesOn hs p _ hu => exact hu.writes.sSpace hi
  | faults hs f info ht => rw [ht, takeFault_sSpace, if_neg hi]

/-! ### Invariants -/

theorem statusLegal_congr (h : t.status = s.status) (hs : s.statusLegal) : t.statusLegal := by
  rwa [State.statusLegal, h]

theorem statusLegal_of_faulted {f : FaultCause} (h : s.status = statusFaulted f) : s.statusLegal := by
  rw [State.statusLegal, h]
  cases f <;> decide

/-- R46: reset leaves STATUS IDLE. -/
theorem statusLegal_resetBlock (s : State) : (resetBlock s).statusLegal := by
  rw [State.statusLegal, resetBlock_status]
  decide

theorem exec_statusLegal {i : Instr} (hs : s.statusLegal) (h : exec i s = .next t) : t.statusLegal := by
  rcases exec_status h with ht | ht | ht | ⟨f, ht⟩
  · exact statusLegal_congr ht hs
  · rw [State.statusLegal, ht]; decide
  · rw [State.statusLegal, ht]; decide
  · exact statusLegal_of_faulted ht

/-- The soundness of the contexts reads nothing but the contexts and STATUS. -/
theorem contextsSound_congr (hs : s.contextsSound) (he : t.e = s.e) (hd : t.d = s.d) (h : t.status = s.status) :
    t.contextsSound := by
  simpa only [State.contextsSound, State.encoderSound, State.decoderSound, faulted_congr h, he, hd] using hs

/-- R46, R212: the zeroed contexts are sound. -/
theorem contextsSound_of_zero (he : s.e = EncCtx.zero) (hd : s.d = DecCtx.zero) : s.contextsSound := by
  intro _
  simp only [State.encoderSound, State.decoderSound, he, hd]
  decide

theorem BodyEnds.sound {i : Instr} (h : BodyEnds i s u) (he : s.encoderSound) (hd : s.decoderSound) :
    u.encoderSound ∧ u.decoderSound := by
  rcases h.path with frame | frame
  · refine ⟨frame.sound he, ?_⟩
    rw [frame.rest]
    exact hd
  · refine ⟨?_, frame.sound hd⟩
    rw [frame.rest]
    exact he

theorem exec_contextsSound {i : Instr} (hs : s.contextsSound) (h : exec i s = .next t) : t.contextsSound := by
  cases exec_ends h with
  | nop _ ht => rwa [ht]
  | clrf _ ht => rw [ht]; exact contextsSound_of_zero rfl rfl
  | completes hf r u hu ht =>
    obtain ⟨he, hd⟩ := hs hf
    rw [ht]
    exact fun _ => hu.sound he hd
  | goesOn hf p _ hu =>
    obtain ⟨he, hd⟩ := hs hf
    exact fun _ => hu.sound he hd
  | faults hf f info ht =>
    intro ht'
    rw [ht, faulted_takeFault] at ht'
    cases ht'

end Sys2Proof.Machine

/-- Settles O56: an instruction leaves STATUS as it was, IDLE, DONE, or at a fault's word. -/
theorem stepKeepsStatusLegal : Obligations.StepKeepsStatusLegal := by
  intro s t hs h
  exact step_keeps (fun hs _ _ hst => statusLegal_congr hst hs) statusLegal_resetBlock exec_statusLegal hs h

/-- Settles O57: a body keeps a sound context sound along its path, and a fault ends in FAULTED. -/
theorem stepKeepsContextsSound : Obligations.StepKeepsContextsSound := by
  intro s t hs h
  exact step_keeps contextsSound_congr (fun _ => contextsSound_of_zero rfl rfl) exec_contextsSound hs h

/-- Settles O51: the inputs are outside what an instruction writes. -/
theorem instructionsNeverWriteInputs : Obligations.InstructionsNeverWriteInputs := by
  intro i s t h
  rw [exec_rest h]
  exact ⟨rfl, rfl, rfl, rfl, rfl, rfl, rfl⟩

/-- Settles O52: the memories by `outputRange`, the contexts by what each body writes. -/
theorem accessMatrix : Obligations.AccessMatrix := by
  intro i s t h
  refine ⟨fun hi => exec_eSpace h ?_, fun hi => exec_sSpace h ?_, fun hf => ?_⟩
  · cases i <;> simp_all [outputRange]
  · cases i <;> simp_all [outputRange]
  rcases exec_contexts h hf with ⟨rfl, rfl⟩ | ⟨rfl, rfl⟩ | ⟨u, hw, he, hd⟩
  · simp
  · simp
  rw [he, hd]
  cases hw with
  | nothing mem => rcases mem with rfl | rfl | rfl <;> simp
  | encoder mem e m => rcases mem with rfl | rfl <;> simp
  | packer mem hw =>
    obtain ⟨_, _, _, _, rfl⟩ := hw
    rcases mem with rfl | rfl | rfl <;> simp
  | unpacker mem hw =>
    obtain ⟨_, _, _, _, rfl⟩ := hw
    rcases mem with rfl | rfl <;> simp
  | decval d m vle hrem => simp [hrem]
  | _ => simp
end

section
/-! PROOFS. Earlier contexts: a body that neither reads nor writes a part of the state runs the same whatever that part
holds, and the two orchestrators start from contexts of their own (R47). -/

open Sys2Proof Sys2Proof.Machine

namespace Sys2Proof.Machine

/-! ### Runs over a changed state -/

/-- Replace the state a run ends in; a raise has none. -/
def Run.mapState {α : Type} (g : State → State) : Run α → Run α
  | .done r s => .done r (g s)
  | .raised f info => .raised f info

/-- The body `x` runs the same on a state changed by `g`: the same result or raise, the end state changed by `g`. -/
def Blind (g : State → State) {α : Type} (x : State → Run α) : Prop := ∀ s, x (g s) = (x s).mapState g

section
variable {g : State → State} {α β : Type}

theorem Blind.done (r : α) : Blind g (Run.done r) := fun _ => rfl

theorem Blind.bind {x : State → Run α} {f : α → State → Run β} (hx : Blind g x) (hf : ∀ a, Blind g (f a)) :
    Blind g fun s => (x s).bind f := by
  intro s
  show (x (g s)).bind f = ((x s).bind f).mapState g
  rw [hx s]
  cases x s with
  | done a t => exact hf a t
  | raised c info => rfl

/-- A body that starts by reading a value `g` does not change. -/
theorem Blind.read {c : State → α} {f : α → State → Run β} (hf : ∀ a, Blind g (f a)) (hc : ∀ s, c (g s) = c s) :
    Blind g fun s => f (c s) s := by
  intro s
  show f (c (g s)) (g s) = _
  rw [hc s]
  exact hf _ s

/-- A body that starts by an update which commutes with `g`. -/
theorem Blind.update {h : State → State} {x : State → Run α} (hx : Blind g x) (hh : ∀ s, h (g s) = g (h s)) :
    Blind g fun s => x (h s) := by
  intro s
  show x (h (g s)) = _
  rw [hh s]
  exact hx _

theorem Blind.ite {c : State → Prop} [∀ s, Decidable (c s)] {x y : State → Run α} (hc : ∀ s, c (g s) ↔ c s)
    (hx : Blind g x) (hy : Blind g y) : Blind g fun s => if c s then x s else y s := by
  intro s
  by_cases h : c s
  · simp only [if_pos ((hc s).mpr h), if_pos h, hx s]
  · simp only [if_neg (mt (hc s).mp h), if_neg h, hy s]

end

/-- The state with another encoder context. -/
def State.withEnc (e : EncCtx) (s : State) : State := { s with e := e }

/-- The state with another decoder context. -/
def State.withDec (d : DecCtx) (s : State) : State := { s with d := d }

/-! ### The compress path does not meet the decoder context -/

section
variable (d : DecCtx)

theorem emitNibble_blind (n : Nibble) : Blind (State.withDec d) (emitNibble n) := by
  intro s
  by_cases h : s.e.cnt + 1 = 8
  · rcases Nat.lt_or_ge s.outCap.toNat (4 * s.e.wp.toNat + 4) with hr | hr
    · rw [emitNibble_overflow h hr]; exact emitNibble_overflow (s := s.withDec d) h hr
    · rw [emitNibble_full h hr]; exact emitNibble_full (s := s.withDec d) h hr
  · rw [emitNibble_short h]; exact emitNibble_short (s := s.withDec d) h

theorem flushPacker_blind : Blind (State.withDec d) flushPacker := by
  intro s
  by_cases h : s.e.cnt = 0
  · rw [flushPacker_empty h]; exact flushPacker_empty (s := s.withDec d) h
  · rcases Nat.lt_or_ge s.outCap.toNat (4 * s.e.wp.toNat + 4) with hr | hr
    · rw [flushPacker_overflow h hr]; exact flushPacker_overflow (s := s.withDec d) h hr
    · rw [flushPacker_full h hr]; exact flushPacker_full (s := s.withDec d) h hr

theorem encodeVleLoop_blind (fuel : Nat) (v : Word) : Blind (State.withDec d) (encodeVleLoop fuel v) := by
  induction fuel generalizing v with
  | zero => exact .done ()
  | succ fuel ih => exact (emitNibble_blind d _).bind fun _ => .ite (fun _ => Iff.rfl) (.done ()) (ih _)

theorem encodeVle_blind (v : Word) : Blind (State.withDec d) (encodeVle v) := encodeVleLoop_blind d 11 v

theorem scanZerosLoop_blind (fuel : Nat) (z : Word) : Blind (State.withDec d) (scanZerosLoop fuel z) := by
  induction fuel generalizing z with
  | zero => exact .done z
  | succ fuel ih => exact .ite (fun _ => Iff.rfl) (.update (ih _) fun _ => rfl) (.done z)

theorem scanZeros_blind : Blind (State.withDec d) scanZeros :=
  .read (c := fun s => (s.numPixels - s.e.si).toNat) (fun fuel => scanZerosLoop_blind d fuel 0) fun _ => rfl

theorem countNonzerosLoop_withDec (s : State) (fuel : Nat) (p n : Word) :
    countNonzerosLoop (s.withDec d) fuel p n = countNonzerosLoop s fuel p n := by
  induction fuel generalizing p n with
  | zero => rfl
  | succ fuel ih => rw [countNonzerosLoop, countNonzerosLoop, ih]; rfl

theorem countNonzeros_withDec (s : State) : countNonzeros (s.withDec d) = countNonzeros s :=
  countNonzerosLoop_withDec d s _ _ _

theorem encodeValue_blind : Blind (State.withDec d) encodeValue :=
  .read (c := fun s => (sRead s s.e.si, s.e.prev)) (fun c =>
    ((encodeVle_blind d (zigzagEncode (sampleDelta c.1 c.2))).update
      (h := fun s => { s with e := { s.e with si := s.e.si + 1 } }) fun _ => rfl).bind fun _ =>
      (Blind.done (sampleResult c.1)).update (h := fun t => { t with e := { t.e with prev := c.1 } }) fun _ => rfl)
    fun _ => rfl

theorem encodeValues_blind (n : Nat) : Blind (State.withDec d) (encodeValues n) := by
  induction n with
  | zero => exact .done ()
  | succ n ih => exact (encodeValue_blind d).bind fun _ => ih

theorem encodeGroup_blind : Blind (State.withDec d) encodeGroup :=
  (scanZeros_blind d).bind fun zeros => (encodeVle_blind d zeros).bind fun _ =>
    .read (fun n => (encodeVle_blind d n).bind fun _ => encodeValues_blind d n.toNat) (countNonzeros_withDec d)

theorem encodeGroups_blind (fuel : Nat) : Blind (State.withDec d) (encodeGroups fuel) := by
  induction fuel with
  | zero => exact .done ()
  | succ fuel ih => exact .ite (fun _ => Iff.rfl) ((encodeGroup_blind d).bind fun _ => ih) (.done ())

theorem compressStream_blind : Blind (State.withDec d) compressStream :=
  .read (c := fun s => s.numPixels.toNat) (fun fuel =>
    ((encodeGroups_blind d fuel).update (h := encInit) fun _ => rfl).bind fun _ =>
      (flushPacker_blind d).bind fun _ => .read (c := bytesWritten) .done fun _ => rfl) fun _ => rfl

end

/-! ### The decompress path does not meet the encoder context -/

section
variable (e : EncCtx)

theorem takeNibble_blind : Blind (State.withEnc e) takeNibble := by
  intro s
  by_cases h : s.d.cnt = 0
  · rcases Nat.lt_or_ge s.inLen.toNat (4 * s.d.rp.toNat + 4) with hr | hr
    · rw [takeNibble_truncated h hr]; exact takeNibble_truncated (s := s.withEnc e) h hr
    · rw [takeNibble_load h hr]; exact takeNibble_load (s := s.withEnc e) h hr
  · rw [takeNibble_shift h]; exact takeNibble_shift (s := s.withEnc e) h

theorem vleContinue_blind (p : Payload) : Blind (State.withEnc e) (vleContinue p) := by
  intro s
  by_cases h : s.vleUnit.k.val + 1 < 10
  · rw [vleContinue_more h]; exact vleContinue_more (s := s.withEnc e) h
  · rw [vleContinue_overlong h]; exact vleContinue_overlong (s := s.withEnc e) h

theorem vleFinish_blind (p : Payload) : Blind (State.withEnc e) (vleFinish p) := fun _ => rfl

theorem decodeVleLoop_blind (fuel : Nat) : Blind (State.withEnc e) (decodeVleLoop fuel) := by
  induction fuel with
  | zero => exact fun _ => rfl
  | succ fuel ih =>
    exact (takeNibble_blind e).bind fun _ =>
      .ite (fun _ => Iff.rfl) ((vleContinue_blind e _).bind fun _ => ih) (vleFinish_blind e _)

theorem decodeVle_blind : Blind (State.withEnc e) decodeVle :=
  (decodeVleLoop_blind e Config.vleMaxNibbles).update (h := fun s => { s with vle := none }) fun _ => rfl

theorem writeZeros_withEnc (n : Nat) (s : State) : writeZeros n (s.withEnc e) = (writeZeros n s).withEnc e := by
  induction n generalizing s with
  | zero => rfl
  | succ n ih => exact ih { sWrite s s.d.so 0 with d := { s.d with so := s.d.so + 1 } }

theorem writeZeroRun_blind (c : Word) : Blind (State.withEnc e) (writeZeroRun c) :=
  .ite (fun _ => Iff.rfl) (fun _ => rfl)
    (.update (h := writeZeros c.toNat) (.update (h := fun t => { t with d := { t.d with rem := t.d.rem - c } })
      (.done ()) fun _ => rfl) (writeZeros_withEnc e c.toNat))

theorem accountNonzeroRun_blind (c : Word) : Blind (State.withEnc e) (accountNonzeroRun c) :=
  .ite (fun _ => Iff.rfl) (fun _ => rfl) (fun _ => rfl)

theorem decodeValue_blind : Blind (State.withEnc e) decodeValue := (decodeVle_blind e).bind fun _ _ => rfl

theorem decodeValues_blind (n : Nat) : Blind (State.withEnc e) (decodeValues n) := by
  induction n with
  | zero => exact .done ()
  | succ n ih => exact (decodeValue_blind e).bind fun _ => ih

theorem decodeGroup_blind : Blind (State.withEnc e) decodeGroup :=
  (decodeVle_blind e).bind fun zeros => (writeZeroRun_blind e zeros).bind fun _ =>
    (decodeVle_blind e).bind fun nonzeros => (accountNonzeroRun_blind e nonzeros).bind fun _ =>
      decodeValues_blind e nonzeros.toNat

theorem decodeGroups_blind (fuel : Nat) : Blind (State.withEnc e) (decodeGroups fuel) := by
  induction fuel with
  | zero => exact .ite (fun _ => Iff.rfl) (fun _ => rfl) (.done ())
  | succ fuel ih => exact .ite (fun _ => Iff.rfl) ((decodeGroup_blind e).bind fun _ => ih) (.done ())

theorem decompressStream_blind : Blind (State.withEnc e) decompressStream :=
  .read (c := fun s => s.inLen.toNat + 1) (fun fuel => (decodeGroups_blind e fuel).update (h := decompressStart)
    fun _ => rfl) fun _ => rfl

end

/-! ### The orchestrators start from contexts of their own -/

theorem compressStream_withEnc (e : EncCtx) (s : State) : compressStream (s.withEnc e) = compressStream s := rfl

theorem decompressStream_withDec (d : DecCtx) (s : State) : decompressStream (s.withDec d) = decompressStream s := rfl

/-- R210: an issued operation that ends without a fault has completed. -/
theorem issue_completed {s t : State} {out : OutputRange} {p : Option Refusal} {b : State → Run Word}
    (h : issue s out p b = .next t) (hf : t.faulted = false) :
    s.faulted = false ∧ p = none ∧ ∃ r u, b s = .done r u ∧ t = complete r u := by
  obtain ⟨hs, hp, done | ⟨f, info, -, rfl⟩⟩ := issue_eq_next.mp h
  · exact ⟨hs, hp, done⟩
  · rw [faulted_takeFault] at hf; cases hf

end Sys2Proof.Machine

/-- Settles O54: the other context goes through the run untouched, and the operation's own is seeded first. -/
theorem contextsDoNotInfluenceStreams : Obligations.ContextsDoNotInfluenceStreams := by
  intro s t e d hf
  constructor <;> intro h
  · obtain ⟨hs, hp, r, u, hb, rfl⟩ := issue_completed (exec_compress s ▸ h) hf
    have run := compressStream_blind d (s.withEnc e)
    rw [compressStream_withEnc, hb] at run
    show exec .compress ((s.withEnc e).withDec d) = .next (complete r (u.withDec d))
    rw [exec_compress]
    exact issue_next_of_done hs hp run
  · obtain ⟨hs, hp, r, u, hb, rfl⟩ := issue_completed (exec_decompress s ▸ h) hf
    have blind : Blind (State.withEnc e) fun s => (decompressStream s).bind fun _ t => .done (0 : Word) t :=
      (decompressStream_blind e).bind fun _ => .done 0
    have run := blind (s.withDec d)
    simp only [decompressStream_withDec, hb] at run
    show exec .decompress ((s.withDec d).withEnc e) = .next (complete r (u.withEnc e))
    rw [exec_decompress]
    exact issue_next_of_done hs hp run
end

section
/-! PROOFS. The memories: the host's fills and the bytes of a word, the canonical form over every step, and the output
range of the two orchestrators (R62). -/

open Sys2Proof Sys2Proof.Machine

namespace Sys2Proof.Machine

variable {s t u : State}

/-! ### The canonical form -/

/-- The canonical form reads nothing but the memories. -/
theorem memoriesCanonical_congr (hs : s.memoriesCanonical) (hS : t.sSpace = s.sSpace) (hE : t.eSpace = s.eSpace) :
    t.memoriesCanonical := by
  rwa [State.memoriesCanonical, hS, hE]

/-- A body writes one memory at most, and that one in canonical form. -/
theorem BodyEnds.memoriesCanonical {i : Instr} (h : BodyEnds i s u) (hs : s.memoriesCanonical) :
    u.memoriesCanonical := by
  obtain ⟨hS, hE⟩ := hs
  rcases h.path with frame | frame
  · refine ⟨?_, frame.canonical hE⟩
    rw [frame.rest]
    exact hS
  · refine ⟨frame.canonical hS, ?_⟩
    rw [frame.rest]
    exact hE

theorem exec_memoriesCanonical {i : Instr} (hs : s.memoriesCanonical) (h : exec i s = .next t) :
    t.memoriesCanonical := by
  cases exec_ends h with
  | nop _ ht => rwa [ht]
  | clrf _ ht => rw [ht]; exact hs
  | completes _ r u hu ht => rw [ht]; exact hu.memoriesCanonical hs
  | goesOn _ p _ hu => exact hu.memoriesCanonical hs
  | faults _ f info ht => rw [ht]; exact takeFault_memoriesCanonical _ f info hs

/-! ### The samples the decompress path writes -/

/-- From `s` to `t` the decompress path has written `written` samples at its cursor, none at or past NUMPIXELS, and has
taken `accounted` samples off `D.rem` (R32). -/
structure Advances (written accounted : Nat) (s t : State) : Prop where
  numPixels : t.numPixels = s.numPixels
  so : t.d.so.toNat = s.d.so.toNat + written
  rem : t.d.rem.toNat + accounted = s.d.rem.toNat
  outside : ∀ j, s.numPixels.toNat ≤ j → t.sSpace.read j = s.sSpace.read j

theorem Advances.refl (s : State) : Advances 0 0 s s := ⟨rfl, rfl, rfl, fun _ _ => rfl⟩

theorem Advances.trans {m n k l : Nat} (h : Advances m k s t) (h' : Advances n l t u) :
    Advances (m + n) (k + l) s u where
  numPixels := h'.numPixels.trans h.numPixels
  so := by rw [h'.so, h.so, Nat.add_assoc]
  rem := by rw [← h.rem, ← h'.rem]; omega
  outside j hj := (h'.outside j (h.numPixels ▸ hj)).trans (h.outside j hj)

/-- R116, R134: parsing a unit writes no sample and accounts for none. -/
theorem UnpackerWrites.advances (h : UnpackerWrites s t) : Advances 0 0 s t := by
  obtain ⟨_, _, _, _, rfl⟩ := h
  exact ⟨rfl, rfl, rfl, fun _ _ => rfl⟩

/-- R190, R192: a sample written at the cursor, with the cursor inside S-space. -/
theorem sWrite_advances (h : s.d.so.toNat < s.numPixels.toNat) (v prev : Sample) :
    Advances 1 0 s { sWrite s s.d.so v with d := { s.d with so := s.d.so + 1, prev := prev } } where
  numPixels := rfl
  so := by
    have := s.numPixels.isLt
    show (s.d.so + 1).toNat = s.d.so.toNat + 1
    bv_omega
  rem := rfl
  outside _ hj := sWrite_read_other _ v (by omega)

theorem writeZeros_advances (n : Nat) (h : s.d.so.toNat + n ≤ s.numPixels.toNat) :
    Advances n 0 s (writeZeros n s) := by
  induction n generalizing s with
  | zero => exact .refl s
  | succ n ih =>
    have one := sWrite_advances (s := s) (by omega) 0 s.d.prev
    have more := one.trans (ih (by rw [one.so, one.numPixels]; omega))
    rwa [Nat.add_comm 1 n] at more

/-- R190: WRZ writes as many samples as it accounts for. -/
theorem writeZeroRun_advances {c : Word} (hs : s.d.so.toNat + s.d.rem.toNat ≤ s.numPixels.toNat)
    (h : writeZeroRun c s = .done () t) : Advances c.toNat c.toNat s t := by
  obtain ⟨hc, rfl⟩ := writeZeroRun_eq_done.mp h
  have hle : c.toNat ≤ s.d.rem.toNat := BitVec.le_def.mp hc
  have zeros := writeZeros_advances (s := s) c.toNat (by omega)
  refine ⟨zeros.numPixels, zeros.so, ?_, zeros.outside⟩
  show ((writeZeros c.toNat s).d.rem - c).toNat + c.toNat = s.d.rem.toNat
  rw [writeZeros_rem, BitVec.toNat_sub_of_le hc, Nat.sub_add_cancel hle]

/-- R191: NZRUN accounts for samples that are still to be written. -/
theorem accountNonzeroRun_advances {c : Word} (h : accountNonzeroRun c s = .done () t) :
    Advances 0 c.toNat s t := by
  obtain ⟨hc, rfl⟩ := accountNonzeroRun_eq_done.mp h
  refine ⟨rfl, rfl, ?_, fun _ _ => rfl⟩
  show (s.d.rem - c).toNat + c.toNat = s.d.rem.toNat
  rw [BitVec.toNat_sub_of_le hc, Nat.sub_add_cancel (BitVec.le_def.mp hc)]

theorem decodeValue_advances {v : Word} (hs : s.d.so.toNat < s.numPixels.toNat) (h : decodeValue s = .done v t) :
    Advances 1 0 s t := by
  obtain ⟨_, u, hu, h⟩ := Run.bind_eq_done.mp h
  have parsed := (decodeVle_writes hu).advances
  cases h
  exact parsed.trans (sWrite_advances (by rwa [parsed.so, parsed.numPixels]) _ _)

theorem decodeValues_advances {n : Nat} (hs : s.d.so.toNat + n ≤ s.numPixels.toNat)
    (h : decodeValues n s = .done () t) : Advances n 0 s t := by
  induction n generalizing s with
  | zero => cases h; exact .refl _
  | succ n ih =>
    obtain ⟨_, u, hu, h⟩ := Run.bind_eq_done.mp h
    have one := decodeValue_advances (by omega) hu
    have more := one.trans (ih (by rw [one.so, one.numPixels]; omega) h)
    rwa [Nat.add_comm 1 n] at more

/-- R200: a group accounts for its two runs before it writes the second, so with `D.so + D.rem` within S-space every
sample of the group has room, and the sum is the same at its end. -/
theorem decodeGroup_advances (hs : s.d.so.toNat + s.d.rem.toNat ≤ s.numPixels.toNat)
    (h : decodeGroup s = .done () t) : ∃ n, Advances n n s t := by
  obtain ⟨zeros, s1, h1, h⟩ := Run.bind_eq_done.mp h
  obtain ⟨_, s2, h2, h⟩ := Run.bind_eq_done.mp h
  obtain ⟨nonzeros, s3, h3, h⟩ := Run.bind_eq_done.mp h
  obtain ⟨_, s4, h4, h⟩ := Run.bind_eq_done.mp h
  have parsed := (decodeVle_writes h1).advances
  have zeroRun := writeZeroRun_advances (by rw [parsed.so, parsed.numPixels]; have := parsed.rem; omega) h2
  have counted := ((parsed.trans zeroRun).trans (decodeVle_writes h3).advances).trans (accountNonzeroRun_advances h4)
  have group := counted.trans
    (decodeValues_advances (by rw [counted.so, counted.numPixels]; have := counted.rem; omega) h)
  refine ⟨zeros.toNat + nonzeros.toNat, ?_⟩
  simpa only [Nat.zero_add, Nat.add_zero] using group

theorem decodeGroups_advances {fuel : Nat} (hs : s.d.so.toNat + s.d.rem.toNat ≤ s.numPixels.toNat)
    (h : decodeGroups fuel s = .done () t) : ∃ n, Advances n n s t := by
  induction fuel generalizing s with
  | zero =>
    rw [decodeGroups] at h
    split at h <;> cases h
    exact ⟨0, .refl _⟩
  | succ fuel ih =>
    rw [decodeGroups] at h
    split at h
    · obtain ⟨_, u, hu, h⟩ := Run.bind_eq_done.mp h
      obtain ⟨m, group⟩ := decodeGroup_advances hs hu
      obtain ⟨n, groups⟩ := ih (by rw [group.so, group.numPixels]; have := group.rem; omega) h
      exact ⟨m + n, group.trans groups⟩
    · cases h
      exact ⟨0, .refl _⟩

/-- R62: DECOMPRESS starts with `D.so` = 0 and `D.rem` = NUMPIXELS, and writes no cell past them. -/
theorem decompressStream_outside (h : decompressStream s = .done () t) {j : Nat} (hj : s.numPixels.toNat ≤ j) :
    t.sSpace.read j = s.sSpace.read j := by
  have start : (decompressStart s).d.so.toNat + (decompressStart s).d.rem.toNat ≤ (decompressStart s).numPixels.toNat :=
    (Nat.zero_add _).le
  obtain ⟨_, groups⟩ := decodeGroups_advances start h
  exact groups.outside j hj

/-! ### The output range of the orchestrators -/

/-- R62, R236: COMPRESS writes no byte at or past OUT_CAP, on a fault as on completion. -/
theorem exec_compress_outside (h : exec .compress s = .next t) {a : Nat} (ha : s.outCap.toNat ≤ a) :
    t.eSpace.read a = s.eSpace.read a := by
  obtain ⟨-, -, ⟨r, u, hu, rfl⟩ | ⟨f, info, -, rfl⟩⟩ := issue_eq_next.mp (exec_compress s ▸ h)
  · exact (compressStream_frame hu).outside a ha
  · exact (takeFault_faultTaken .eSpace f info s).eSpace.2 a ha

/-- R62, R236: DECOMPRESS writes no cell at or past NUMPIXELS, on a fault as on completion. -/
theorem exec_decompress_outside (h : exec .decompress s = .next t) {j : Nat} (hj : s.numPixels.toNat ≤ j) :
    t.sSpace.read j = s.sSpace.read j := by
  obtain ⟨-, -, ⟨r, u, hu, rfl⟩ | ⟨f, info, -, rfl⟩⟩ := issue_eq_next.mp (exec_decompress s ▸ h)
  · obtain ⟨_, hu⟩ := Run.exists_of_bind_result_eq_done hu
    exact decompressStream_outside hu hj
  · exact (takeFault_faultTaken .sSpace f info s).sSpace.2 j hj

end Sys2Proof.Machine

/-- Settles O55: an instruction keeps the canonical form by its frame or by the fault entry, a host fill because a write
does, and the host's other actions leave the memories alone. -/
theorem stepKeepsMemoriesCanonical : Obligations.StepKeepsMemoriesCanonical := by
  intro s t hs h
  rcases step_eq_next.mp h with ⟨-, rfl⟩ | ⟨a, rest, -, ha⟩
  · exact hs
  have fetched : s.afterFetch.memoriesCanonical := memoriesCanonical_congr hs rfl rfl
  rcases perform_eq_next ha with ⟨x, i, -, -, hi⟩ | ⟨n, v, -, rfl⟩ | ⟨i, v, -, rfl⟩ | ⟨o, v, -, rfl⟩ | ⟨-, rfl⟩
  · exact exec_memoriesCanonical fetched hi
  · rw [storeRegister_eq]
    exact memoriesCanonical_congr fetched rfl rfl
  · exact ⟨Memory.wf_write fetched.1 _ v, fetched.2⟩
  · exact ⟨fetched.1, Memory.wf_write fetched.2 _ v⟩
  · exact memoriesCanonical_congr fetched rfl rfl

/-- Settles O53: the memory an orchestrator does not write by `outputRange`, the other one outside its range. -/
theorem orchestratorsStayInRange : Obligations.OrchestratorsStayInRange := by
  intro s t
  constructor <;> intro h
  · exact ⟨exec_sSpace h (by decide), fun _ => exec_compress_outside h⟩
  · exact ⟨exec_eSpace h (by decide), fun _ => exec_decompress_outside h⟩

/-- Settles O8: a fill is one write to a canonical memory, and an empty queue idles. -/
theorem hostFillsMemoryAndIdles : Obligations.HostFillsMemoryAndIdles := by
  refine ⟨fun s i v rest hs hhost => ?_, fun s o v rest hs hhost => ?_, fun s hhost => ?_⟩
  · obtain ⟨hS, -⟩ := hs
    exact ⟨_, step_of_host_cons hhost, rfl, Memory.read_write_same hS _ v, fun _ => Memory.read_write_other v⟩
  · obtain ⟨-, hE⟩ := hs
    exact ⟨_, step_of_host_cons hhost, rfl, Memory.read_write_same hE _ v, fun _ => Memory.read_write_other v⟩
  · exact step_eq_next.mpr (.inl ⟨hhost, rfl⟩)

/-- Settles O20: byte `j` of the written word is `wordByte`, which is the byte table of R54. -/
theorem wordByteOrder : Obligations.WordByteOrder := by
  intro m a w hm
  have byte (en : Endian) (j : Fin 4) : (m.writeWord en a w).read (a + j) = wordByte en w j :=
    Memory.read_writeWord_byte hm en a w j.isLt
  exact ⟨⟨byte .little 0, byte .little 1, byte .little 2, byte .little 3⟩,
    ⟨byte .big 0, byte .big 1, byte .big 2, byte .big 3⟩, fun en =>
    ⟨Memory.readWord_writeWord hm en a w, fun b => Memory.read_writeWord_other m en w, Memory.wf_writeWord hm en a w⟩⟩
end

section
/-! PROOFS. Encodings: each direction of the round trip between instructions and codes, the reserved commands, and the
two nibble forms run alone. -/

open Sys2Proof Sys2Proof.Machine

namespace Sys2Proof

/-! ### Nibbles -/

/-- R81: the continuation bit of a nibble put together from it and a payload. -/
theorem decodeNibble_append (b : BitVec 1) (p : Payload) :
    decodeNibble (b ++ p) = if b.getLsbD 0 then .vleCont p else .vleEnd p := by
  have bit : (b ++ p).getLsbD 3 = b.getLsbD 0 := by rw [BitVec.getLsbD_append]; rfl
  have payload : (b ++ p).extractLsb' 0 3 = p := by
    ext i hi
    rw [BitVec.getElem_extractLsb', Nat.zero_add, BitVec.getLsbD_append, if_pos hi, BitVec.getLsbD_eq_getElem hi]
  rw [decodeNibble, bit, payload]

/-- R81: a nibble is its continuation bit before its payload. -/
theorem nibble_eq_append (n : Nibble) : n = BitVec.ofBool (n.getLsbD 3) ++ n.extractLsb' 0 3 := by
  apply BitVec.eq_of_getLsbD_eq
  intro i hi
  rw [BitVec.getLsbD_append]
  split
  next low => simp [low]
  next high =>
    obtain rfl : i = 3 := by omega
    simp

theorem encode_decodeNibble (n : Nibble) : encode (decodeNibble n) = .nib n := by
  have split := nibble_eq_append n
  cases h : n.getLsbD 3 <;> rw [h] at split <;> simp only [decodeNibble, h] <;> exact congrArg Code.nib split.symm

/-! ### Command words -/

/-- R97: a command word with bits 31:5 zero is its operation-select code. -/
theorem setWidth_extract_of_upperBits {c : Word} (h : c.extractLsb' 5 27 = 0) :
    (c.extractLsb' 0 5).setWidth 32 = c := by
  apply BitVec.eq_of_getLsbD_eq
  intro i hi
  rw [BitVec.getLsbD_setWidth, BitVec.getLsbD_extractLsb', Nat.zero_add]
  by_cases low : i < 5
  · simp [low, hi]
  · have upper := congrArg (·.getLsbD (i - 5)) h
    simp only [BitVec.getLsbD_extractLsb', show 5 + (i - 5) = i by omega, show i - 5 < 27 by omega] at upper
    simpa [low] using upper.symm

/-- R96: the table of operation-select codes and the table of command words are one. -/
theorem encode_of_opOfCode {op : BitVec 5} {i : Instr} (h : opOfCode op = some i) :
    encode i = .cmd (op.setWidth 32) := by
  have table : ∀ op : BitVec 5, ∀ i ∈ opOfCode op, encode i = .cmd (op.setWidth 32) := by decide
  exact table op i h

/-- R99: the reserved codes are those that select no operation. -/
theorem opOfCode_eq_none (op : BitVec 5) :
    opOfCode op = none ↔
      op.toNat ∈ [0x04, 0x05, 0x06, 0x07, 0x0B, 0x0E, 0x0F, 0x12, 0x13, 0x16, 0x17, 0x1B, 0x1F] := by
  revert op
  decide

/-- R97, R210: a command word decodes when its upper bits are zero and its code selects an operation. -/
theorem decodeCommand_eq_ok {c : Word} {i : Instr} :
    decodeCommand c = .ok i ↔ c.extractLsb' 5 27 = 0 ∧ opOfCode (c.extractLsb' 0 5) = some i := by
  unfold decodeCommand
  split
  next h => exact iff_of_false nofun fun ⟨zero, _⟩ => h zero
  next h => cases opOfCode (c.extractLsb' 0 5) <;> simp_all

/-- R213: a write to CMD of a word that does not decode is refused. -/
theorem step_refused_of_not_decoded {s : Machine.State} {c : Word} (hhost : s.host.head? = some (.writeRegister 0 c))
    (h : ∀ i, decode (.cmd c) ≠ .ok i) : ∃ r, step s = .refused r := by
  cases hd : decode (.cmd c) with
  | ok i => exact absurd hd (h i)
  | error e => exact ⟨refusalOf e, by rw [step, stepHost, hhost]; simp only [perform, hostWrite_cmd, runCode, hd]⟩

end Sys2Proof

/-- Settles O2: each operation's command word by evaluation, a nibble form by its bit and its payload. -/
theorem decodeOfEncode : Obligations.DecodeOfEncode := by
  intro i _
  cases i with
  | vleCont p => exact ⟨congrArg Except.ok (decodeNibble_append 1#1 p), rfl⟩
  | vleEnd p => exact ⟨congrArg Except.ok (decodeNibble_append 0#1 p), rfl⟩
  | _ => exact ⟨rfl, rfl⟩

/-- Settles O3: a command word that decodes is its operation-select code, and a nibble is its bit and its payload. -/
theorem encodeOfDecode : Obligations.EncodeOfDecode := by
  intro x i h
  cases x with
  | cmd c =>
    obtain ⟨upper, op⟩ := decodeCommand_eq_ok.mp h
    rw [encode_of_opOfCode op, setWidth_extract_of_upperBits upper]
  | nib n =>
    obtain rfl : decodeNibble n = i := Except.ok.inj h
    exact encode_decodeNibble n

/-- Settles O4: the reserved codes are exactly those that select no operation. -/
theorem reservedCommandsRefused : Obligations.ReservedCommandsRefused := by
  intro c
  simp only [← opOfCode_eq_none]
  refine ⟨fun reserved s hhost => step_refused_of_not_decoded hhost fun i h => ?_, fun h => ?_⟩
  · obtain ⟨upper, op⟩ := decodeCommand_eq_ok.mp h
    rcases reserved with hu | hop
    · exact hu upper
    · rw [hop] at op
      cases op
  · push Not at h
    obtain ⟨upper, op⟩ := h
    obtain ⟨i, hi⟩ := Option.ne_none_iff_exists'.mp op
    exact ⟨i, decodeCommand_eq_ok.mpr ⟨upper, hi⟩⟩

/-- Settles O1: the ten words, evaluated. -/
theorem wordsOfTheTablesDecode : Obligations.WordsOfTheTablesDecode := by
  refine ⟨?_, ?_, ?_, ?_, ?_, ?_, ?_, ?_, ?_, ?_⟩ <;> rfl

end

section
/-! PROOFS. VLE units: the unit in progress as the list of the nibbles it is made of, and the nibble forms run alone. -/

open Sys2Proof Sys2Proof.Machine

namespace Sys2Proof.Machine

variable {s : State}

/-! ### Units as lists -/

/-- R83: every nibble of the list has its continuation bit set. -/
def allContinue (cs : List Nibble) : Prop := ∀ c ∈ cs, c.getLsbD 3 = true

theorem allContinue_cons {c : Nibble} {cs : List Nibble} :
    allContinue (c :: cs) ↔ c.getLsbD 3 = true ∧ allContinue cs :=
  List.forall_mem_cons

theorem isUnit_cons {n : Nibble} {ns : List Nibble} (h : ns ≠ []) : isUnit (n :: ns) = (n.getLsbD 3 && isUnit ns) := by
  cases ns with
  | nil => exact absurd rfl h
  | cons => rfl

/-- R83: a unit is continuing nibbles and one that ends it. -/
theorem isUnit_iff {ns : List Nibble} :
    isUnit ns = true ↔ ∃ cs n, ns = cs ++ [n] ∧ allContinue cs ∧ n.getLsbD 3 = false := by
  constructor
  · intro h
    induction ns with
    | nil => cases h
    | cons n ns ih =>
      by_cases hns : ns = []
      · subst hns
        exact ⟨[], n, rfl, by simp [allContinue], by simpa [isUnit] using h⟩
      · rw [isUnit_cons hns, Bool.and_eq_true] at h
        obtain ⟨hn, h⟩ := h
        obtain ⟨cs, e, rfl, hcs, he⟩ := ih h
        exact ⟨n :: cs, e, rfl, allContinue_cons.mpr ⟨hn, hcs⟩, he⟩
  · rintro ⟨cs, n, rfl, hcs, hn⟩
    induction cs with
    | nil => rw [List.nil_append, isUnit, hn]; rfl
    | cons c cs ih =>
      obtain ⟨hc, hcs⟩ := allContinue_cons.mp hcs
      rw [List.cons_append, isUnit_cons (by simp), hc, ih hcs, Bool.and_true]

theorem unitValue_lt (ns : List Nibble) : unitValue ns < 8 ^ ns.length := by
  induction ns with
  | nil => exact Nat.one_pos
  | cons n ns ih =>
    rw [unitValue, List.length_cons, Nat.pow_succ]
    omega

/-- R87: the nibbles that follow stand above those before them. -/
theorem unitValue_append (ns ms : List Nibble) :
    unitValue (ns ++ ms) = unitValue ns + 8 ^ ns.length * unitValue ms := by
  induction ns with
  | nil => simp [unitValue]
  | cons n ns ih => simp only [List.cons_append, unitValue, ih, List.length_cons, Nat.pow_succ]; ring

theorem toNat_payload (n : Nibble) : (n.extractLsb' 0 3).toNat = n.toNat % 8 := by
  simp [BitVec.extractLsb'_toNat]

theorem decodeNibble_of_continue {n : Nibble} (h : n.getLsbD 3 = true) :
    decodeNibble n = .vleCont (n.extractLsb' 0 3) :=
  if_pos h

theorem decodeNibble_of_end {n : Nibble} (h : n.getLsbD 3 = false) : decodeNibble n = .vleEnd (n.extractLsb' 0 3) := by
  simp only [decodeNibble, h, Bool.false_eq_true, if_false]

/-! ### The unit in progress -/

/-- R134: a payload placed at group `k` above what the unit holds. -/
theorem VleUnit.toNat_place {u : VleUnit} (h : u.value.toNat < 8 ^ u.k.val) (p : Payload) :
    (u.place p).toNat = u.value.toNat + 8 ^ u.k.val * p.toNat := by
  have hp := p.isLt
  have hk : 8 ^ u.k.val ≤ 8 ^ 9 := Nat.pow_le_pow_right (by omega) (by omega)
  have hlt : 8 ^ u.k.val * p.toNat ≤ 8 ^ 9 * 7 := Nat.mul_le_mul hk (by omega)
  have pow : 8 ^ u.k.val = 2 ^ (3 * u.k.val) := (Nat.pow_mul 2 3 u.k.val).symm
  rw [pow] at h hlt ⊢
  rw [VleUnit.place, BitVec.toNat_or, BitVec.toNat_shiftLeft, BitVec.toNat_setWidth,
    Nat.mod_eq_of_lt (a := p.toNat) (by omega), Nat.shiftLeft_eq, Nat.mul_comm p.toNat, Nat.mod_eq_of_lt (by omega),
    Nat.or_comm, ← Nat.two_pow_add_eq_or_of_lt h, Nat.add_comm]

/-- `s` with the transients of R33 set to `v`. -/
def State.withVle (s : State) (v : Option VleUnit) : State := { s with vle := v }

@[simp] theorem withVle_d (v : Option VleUnit) : (s.withVle v).d = s.d := rfl

theorem withVle_withVle (v w : Option VleUnit) : (s.withVle v).withVle w = s.withVle w := rfl

/-- R33: the unit in progress is made of the nibbles `cs`. -/
structure State.InUnit (s : State) (cs : List Nibble) : Prop where
  k : s.vleUnit.k.val = cs.length
  value : s.vleUnit.value.toNat = unitValue cs

theorem State.InUnit.of_none (h : s.vle = none) : s.InUnit [] := by
  constructor <;> simp [State.vleUnit, h, VleUnit.start, unitValue]

theorem State.InUnit.toNat_place {cs : List Nibble} (h : s.InUnit cs) (n : Nibble) :
    (s.vleUnit.place (n.extractLsb' 0 3)).toNat = unitValue (cs ++ [n]) := by
  rw [VleUnit.toNat_place (by rw [h.k, h.value]; exact unitValue_lt cs), toNat_payload, h.k, h.value, unitValue_append]
  rfl

/-- R87: what the unit delivers when `n` ends it. -/
theorem State.InUnit.place_eq {cs : List Nibble} (h : s.InUnit cs) (n : Nibble) :
    s.vleUnit.place (n.extractLsb' 0 3) = BitVec.ofNat 32 (unitValue (cs ++ [n])) := by
  rw [← h.toNat_place n, BitVec.ofNat_toNat, BitVec.setWidth_eq]

/-- R134: a continuing nibble is added to the unit in progress, which stays below its tenth. -/
theorem State.InUnit.continue {cs : List Nibble} (h : s.InUnit cs) (n : Nibble) (hlen : cs.length + 1 < 10) :
    ∃ v, vleContinue (n.extractLsb' 0 3) s = .done () (s.withVle v) ∧ (s.withVle v).InUnit (cs ++ [n]) := by
  refine ⟨_, vleContinue_more (by rw [h.k]; exact hlen), ?_, ?_⟩
  · rw [List.length_append]
    exact congrArg (· + 1) h.k
  · exact h.toNat_place n

/-! ### The forms run alone -/

theorem exec_vleCont_faulted (h : s.faulted = true) (p : Payload) : exec (.vleCont p) s = .refused .faultPending := by
  rw [exec_vleCont, if_pos h]

theorem exec_vleCont_done {p : Payload} {t : State} (hf : s.faulted = false) (h : vleContinue p s = .done () t) :
    exec (.vleCont p) s = .next t := by
  simp [exec_vleCont, hf, h]

theorem exec_vleCont_raised {p : Payload} {f : FaultCause} {info : Word} (hf : s.faulted = false)
    (h : vleContinue p s = .raised f info) : exec (.vleCont p) s = .next (takeFault .nowhere f info s) := by
  simp [exec_vleCont, hf, h]

theorem exec_vleEnd_done (hf : s.faulted = false) (p : Payload) :
    exec (.vleEnd p) s = .next { s with vle := none, res := s.vleUnit.place p, status := 0x01 } :=
  issue_run hf .nowhere (vleFinish p)

/-- R81: a form that goes on, then the others. -/
theorem execNibbles_of_next {n : Nibble} {ns : List Nibble} {t : State} (h : exec (decodeNibble n) s = .next t) :
    execNibbles (n :: ns) s = execNibbles ns t := by
  rw [execNibbles, h]

/-- The forms of continuing nibbles add them to the unit in progress and write nothing else. -/
theorem execNibbles_continue {pre cs : List Nibble} (hf : s.faulted = false) (hs : s.InUnit pre) (hcs : allContinue cs)
    (hlen : pre.length + cs.length < 10) :
    ∃ v, (s.withVle v).InUnit (pre ++ cs) ∧ ∀ ns, execNibbles (cs ++ ns) s = execNibbles ns (s.withVle v) := by
  induction cs generalizing s pre with
  | nil => exact ⟨s.vle, by rwa [List.append_nil], fun _ => rfl⟩
  | cons c cs ih =>
    obtain ⟨hc, hcs⟩ := allContinue_cons.mp hcs
    rw [List.length_cons] at hlen
    obtain ⟨v, hv, hin⟩ := hs.continue c (by omega)
    have first : exec (decodeNibble c) s = .next (s.withVle v) := by
      rw [decodeNibble_of_continue hc, exec_vleCont_done hf hv]
    obtain ⟨w, hw, rest⟩ := ih (s := s.withVle v) hf hin hcs (by simp; omega)
    rw [List.append_assoc] at hw
    exact ⟨w, hw, fun ns => (execNibbles_of_next first).trans (rest ns)⟩

end Sys2Proof.Machine

/-- Settles O29: one pass of the decoder's loop, with `k` below 9 and at 9. -/
theorem vleContGoesOn : Obligations.VleContGoesOn := by
  rintro s p u rfl
  refine ⟨fun hf => exec_vleCont_faulted hf p, fun hf => ⟨fun h => ?_, fun hk => ?_⟩⟩
  · exact exec_vleCont_done hf (vleContinue_more h)
  · have overlong : ¬ s.vleUnit.k.val + 1 < 10 := Nat.not_lt.mpr (Nat.succ_le_succ hk.ge)
    exact ⟨_, exec_vleCont_raised hf (vleContinue_overlong overlong), takeFault_faultTaken _ _ _ s⟩

/-- Settles O30: the form is issued like an operation, and its body is one pass of the decoder's loop. -/
theorem vleEndDeliversValue : Obligations.VleEndDeliversValue := by
  rintro s p u rfl
  exact ⟨fun hf => issue_faulted hf .nowhere none (vleFinish p), fun hf => exec_vleEnd_done hf p⟩

/-- Settles O31: the forms of the continuing nibbles gather the unit, the last one delivers it. -/
theorem nibbleFormsDeliverUnitValue : Obligations.NibbleFormsDeliverUnitValue := by
  intro s ns hf hvle hunit hlen
  obtain ⟨cs, n, rfl, hcs, hn⟩ := isUnit_iff.mp hunit
  rw [List.length_append, List.length_singleton] at hlen
  obtain ⟨v, hin, gathered⟩ := execNibbles_continue hf (.of_none hvle) hcs (by rw [List.length_nil]; omega)
  have last : exec (decodeNibble n) (s.withVle v) = .next { s with
      vle := none, res := BitVec.ofNat 32 (unitValue (cs ++ [n])), status := 0x01 } := by
    rw [decodeNibble_of_end hn, exec_vleEnd_done (s := s.withVle v) hf, hin.place_eq n, List.nil_append]
    rfl
  rw [gathered, execNibbles_of_next last, execNibbles, ← hvle]

end

section
/-! PROOFS. The unpacker: what a sound decoder context has ahead of it (`State.nextNibble`), the state after some of it was
taken, and the unpacker law (R118). -/

open Sys2Proof Sys2Proof.Machine

namespace Sys2Proof.Machine

variable {s t u : State}

/-! ### Nibbles of a word -/

theorem nibbleOf_shiftLeft (w : Word) {j : Nat} (h : j + 1 ≤ 7) : nibbleOf (w <<< 4) j = nibbleOf w (j + 1) := by
  apply BitVec.eq_of_getLsbD_eq
  intro i hi
  have inside : ¬ 28 - 4 * j + i < 4 := by omega
  have bit : 28 - 4 * j + i - 4 = 28 - 4 * (j + 1) + i := by omega
  have bound : 28 - 4 * j + i < 32 := by omega
  simp only [nibbleOf, BitVec.getLsbD_extractLsb', BitVec.getLsbD_shiftLeft, hi, inside, bit, bound, decide_true,
    decide_false, Bool.true_and, Bool.not_false]

/-! ### What lies ahead -/

/-- R118: `s` after `m` nibbles were taken. -/
def State.taking (s : State) (m : Nat) : State := { s with d := s.afterTaking m }

/-- The next nibbles the unpacker of `s` returns are `ns`. -/
def State.Ahead (s : State) (ns : List Nibble) : Prop := ∀ k, k < ns.length → s.nextNibble k = ns[k]?

theorem nextNibble_pending {k : Nat} (h : k < s.d.cnt.toNat) : s.nextNibble k = some (nibbleOf s.d.word (k + 1)) :=
  if_pos h

theorem nextNibble_input {k : Nat} (h : s.d.cnt.toNat ≤ k) :
    s.nextNibble k =
      if 4 * ((8 * s.d.rp.toNat + (k - s.d.cnt.toNat)) / 8) + 4 ≤ s.inLen.toNat then
        some (s.eNibble (8 * s.d.rp.toNat + (k - s.d.cnt.toNat)))
      else none :=
  if_neg (Nat.not_lt.mpr h)

theorem ahead_cons {n : Nibble} {ns : List Nibble} :
    s.Ahead (n :: ns) ↔ s.nextNibble 0 = some n ∧ ∀ k, k < ns.length → s.nextNibble (k + 1) = ns[k]? := by
  constructor
  · intro h
    exact ⟨h 0 (Nat.succ_pos _), fun k hk => h (k + 1) (Nat.succ_lt_succ hk)⟩
  · rintro ⟨first, others⟩ k hk
    cases k with
    | zero => exact first
    | succ k => exact others k (Nat.lt_of_succ_lt_succ hk)

theorem State.Ahead.left {ns ms : List Nibble} (h : s.Ahead (ns ++ ms)) : s.Ahead ns := by
  intro k hk
  rw [h k (by rw [List.length_append]; omega), List.getElem?_append_left hk]

/-- What `s` has ahead, a state that stands `ns.length` nibbles further on has without its beginning. -/
theorem State.Ahead.of_shift {ns ms : List Nibble} (h : s.Ahead (ns ++ ms))
    (shift : ∀ k, t.nextNibble k = s.nextNibble (ns.length + k)) : t.Ahead ms := by
  intro k hk
  rw [shift, h _ (by rw [List.length_append]; omega), List.getElem?_append_right (Nat.le_add_right _ _),
    Nat.add_sub_cancel_left]

/-! ### One nibble taken -/

theorem afterTaking_zero (s : State) : s.afterTaking 0 = s.d := by
  simp [State.afterTaking]

theorem afterTaking_of_le {m : Nat} (h : m ≤ s.d.cnt.toNat) :
    s.afterTaking m = { s.d with word := s.d.word <<< (4 * m), cnt := BitVec.ofNat 4 (s.d.cnt.toNat - m) } :=
  if_pos h

theorem afterTaking_of_lt {m : Nat} (h : s.d.cnt.toNat < m) :
    s.afterTaking m = { s.d with
      word := s.eSpace.readWord s.endian (4 * (s.d.rp.toNat + s.wordsFor m - 1)) <<<
        (4 * (7 - (8 * s.wordsFor m - (m - s.d.cnt.toNat))))
      cnt := BitVec.ofNat 4 (8 * s.wordsFor m - (m - s.d.cnt.toNat))
      rp := BitVec.ofNat 32 (s.d.rp.toNat + s.wordsFor m) } :=
  if_neg (Nat.not_le.mpr h)

theorem afterTaking_writes (s : State) (m : Nat) :
    s.afterTaking m = { s.d with
      word := (s.afterTaking m).word, cnt := (s.afterTaking m).cnt, rp := (s.afterTaking m).rp } := by
  rcases Nat.lt_or_ge s.d.cnt.toNat m with h | h
  · rw [afterTaking_of_lt h]
  · rw [afterTaking_of_le h]

theorem taking_zero (s : State) : s.taking 0 = s := by
  rw [State.taking, afterTaking_zero]

theorem afterTaking_one_shift (h : s.d.cnt ≠ 0) :
    s.afterTaking 1 = { s.d with word := s.d.word <<< 4, cnt := s.d.cnt - 1 } := by
  have pos : 1 ≤ s.d.cnt.toNat := by bv_omega
  have cnt : BitVec.ofNat 4 (s.d.cnt.toNat - 1) = s.d.cnt - 1 := by
    apply BitVec.eq_of_toNat_eq
    bv_omega
  rw [afterTaking_of_le pos, cnt]

theorem afterTaking_one_load (h : s.d.cnt = 0) :
    s.afterTaking 1 = { s.d with
      word := s.eSpace.readWord s.endian (4 * s.d.rp.toNat), cnt := 7, rp := s.d.rp + 1 } := by
  have one : s.wordsFor 1 = 1 := by simp [State.wordsFor, h]
  rw [afterTaking_of_lt (by simp [h]), one]
  simp only [h, BitVec.ofNat_add, BitVec.ofNat_toNat, BitVec.setWidth_eq]
  congr 1
  exact BitVec.shiftLeft_zero _

/-- R116: the two ways in which a nibble is ahead: one of the current word is left, or a whole word of the input is. Then
the context after it. -/
theorem next_cases {n : Nibble} (hs : s.d.cnt.toNat ≤ 7) (h : s.nextNibble 0 = some n) :
    (0 < s.d.cnt.toNat ∧ n = nibbleOf (s.d.word <<< 4) 0 ∧ (s.taking 1).d.cnt.toNat = s.d.cnt.toNat - 1 ∧
        (s.taking 1).d = { s.d with word := s.d.word <<< 4, cnt := s.d.cnt - 1 }) ∨
      (s.d.cnt.toNat = 0 ∧ n = s.eNibble (8 * s.d.rp.toNat) ∧ 4 * s.d.rp.toNat + 4 ≤ s.inLen.toNat ∧
        (s.taking 1).d.rp.toNat = s.d.rp.toNat + 1 ∧
        (s.taking 1).d = { s.d with
          word := s.eSpace.readWord s.endian (4 * s.d.rp.toNat), cnt := 7, rp := s.d.rp + 1 }) := by
  by_cases hc : s.d.cnt = 0
  · have zero : s.d.cnt.toNat = 0 := by simp [hc]
    have hd : (s.taking 1).d = _ := afterTaking_one_load hc
    rw [nextNibble_input zero.le, zero, Option.ite_none_right_eq_some, Nat.sub_zero, Nat.add_zero] at h
    obtain ⟨room, hn⟩ := h
    have hlt := s.inLen.isLt
    exact .inr ⟨zero, (Option.some.inj hn).symm, by omega, by rw [hd]; bv_omega, hd⟩
  · have pos : 0 < s.d.cnt.toNat := by bv_omega
    have hd : (s.taking 1).d = _ := afterTaking_one_shift hc
    rw [nextNibble_pending pos, ← nibbleOf_shiftLeft _ (by omega)] at h
    exact .inl ⟨pos, (Option.some.inj h).symm, by rw [hd]; bv_omega, hd⟩

/-- R116: the nibble ahead is returned. -/
theorem takeNibble_of_next {n : Nibble} (hs : s.d.cnt.toNat ≤ 7) (h : s.nextNibble 0 = some n) :
    takeNibble s = .done n (s.taking 1) := by
  rcases next_cases hs h with ⟨pos, rfl, -, hd⟩ | ⟨zero, rfl, room, -, hd⟩
  · rw [takeNibble_shift (by bv_omega), ← hd]
    rfl
  · have cell : s.eNibble (8 * s.d.rp.toNat) = nibbleOf (s.eSpace.readWord s.endian (4 * s.d.rp.toNat)) 0 := by
      simp [State.eNibble]
    rw [takeNibble_load (by bv_omega) room, ← hd, cell]
    rfl

/-- R116: nothing is ahead, so a word is needed that does not lie within IN_LEN. -/
theorem takeNibble_of_end (h : s.nextNibble 0 = none) : takeNibble s = .raised .truncatedInput s.d.rp := by
  by_cases pos : 0 < s.d.cnt.toNat
  · rw [nextNibble_pending pos] at h
    cases h
  · have zero : s.d.cnt.toNat = 0 := by omega
    rw [nextNibble_input zero.le, zero, Nat.sub_zero, Nat.add_zero] at h
    exact takeNibble_truncated (by bv_omega) (by split at h <;> [cases h; omega])

theorem cnt_taking_one_le {n : Nibble} (hs : s.d.cnt.toNat ≤ 7) (h : s.nextNibble 0 = some n) :
    (s.taking 1).d.cnt.toNat ≤ 7 := by
  rcases next_cases hs h with ⟨-, -, cnt, -⟩ | ⟨-, -, -, -, hd⟩
  · omega
  · rw [hd]
    exact le_rfl

/-- R118: the stream ahead after one nibble of it. -/
theorem nextNibble_taking_one {n : Nibble} (hs : s.d.cnt.toNat ≤ 7) (h : s.nextNibble 0 = some n) (k : Nat) :
    (s.taking 1).nextNibble k = s.nextNibble (1 + k) := by
  rcases next_cases hs h with ⟨pos, -, cnt, hd⟩ | ⟨zero, -, room, rp, hd⟩
  · rcases Nat.lt_or_ge (1 + k) s.d.cnt.toNat with hk | hk
    · rw [nextNibble_pending hk, nextNibble_pending (by omega), hd, nibbleOf_shiftLeft _ (by omega), Nat.add_comm 1 k]
    · have same : k - (s.d.cnt.toNat - 1) = 1 + k - s.d.cnt.toNat := by omega
      have rp : (s.taking 1).d.rp = s.d.rp := by rw [hd]
      rw [nextNibble_input hk, nextNibble_input (by omega), cnt, same, rp]
      rfl
  · have cnt : (s.taking 1).d.cnt.toNat = 7 := by rw [hd]; rfl
    rw [nextNibble_input (k := 1 + k) (by omega), zero, Nat.sub_zero]
    rcases Nat.lt_or_ge k 7 with hk | hk
    · have word : (8 * s.d.rp.toNat + (1 + k)) / 8 = s.d.rp.toNat := by omega
      have place : (8 * s.d.rp.toNat + (1 + k)) % 8 = k + 1 := by omega
      rw [nextNibble_pending (by omega), State.eNibble, word, place, if_pos room, hd]
    · have same : 8 * (s.d.rp.toNat + 1) + (k - 7) = 8 * s.d.rp.toNat + (1 + k) := by omega
      rw [nextNibble_input (by omega), cnt, rp, same]
      rfl

/-- R118: one nibble, then `m` more. -/
theorem taking_one_taking {n : Nibble} (hs : s.d.cnt.toNat ≤ 7) (h : s.nextNibble 0 = some n) (m : Nat) :
    (s.taking 1).taking m = s.taking (1 + m) := by
  suffices same : (s.taking 1).afterTaking m = s.afterTaking (1 + m) by
    simp only [State.taking] at same ⊢
    rw [same]
  rcases next_cases hs h with ⟨pos, -, cnt, hd⟩ | ⟨zero, -, room, rp, hd⟩
  · rcases Nat.lt_or_ge s.d.cnt.toNat (1 + m) with hm | hm
    · have words : (s.taking 1).wordsFor m = s.wordsFor (1 + m) := by
        simp only [State.wordsFor, cnt]
        congr 2
        omega
      have taken : m - (s.d.cnt.toNat - 1) = 1 + m - s.d.cnt.toNat := by omega
      rw [afterTaking_of_lt hm, afterTaking_of_lt (by omega), words, cnt, taken, hd]
      rfl
    · have left : s.d.cnt.toNat - 1 - m = s.d.cnt.toNat - (1 + m) := by omega
      rw [afterTaking_of_le hm, afterTaking_of_le (by omega), cnt, left, hd, Nat.mul_add, BitVec.shiftLeft_add]
  · have cnt : (s.taking 1).d.cnt.toNat = 7 := by rw [hd]; rfl
    rw [afterTaking_of_lt (m := 1 + m) (by omega), zero, Nat.sub_zero]
    rcases Nat.lt_or_ge 7 m with hm | hm
    · have words : s.wordsFor (1 + m) = 1 + (s.taking 1).wordsFor m := by
        simp only [State.wordsFor, zero, cnt]
        omega
      have left : 8 * (1 + (s.taking 1).wordsFor m) - (1 + m) = 8 * (s.taking 1).wordsFor m - (m - 7) := by omega
      rw [afterTaking_of_lt (by omega), words, left, cnt, rp, Nat.add_assoc, hd]
      rfl
    · have words : s.wordsFor (1 + m) = 1 := by
        simp only [State.wordsFor, zero]
        omega
      have left : 8 * 1 - (1 + m) = 7 - m := by omega
      have shift : 7 - (7 - m) = m := by omega
      rw [afterTaking_of_le (by omega), words, left, shift, cnt, Nat.add_sub_cancel, ← rp, BitVec.ofNat_toNat,
        BitVec.setWidth_eq, hd]

/-! ### A list of nibbles taken -/

/-- R118: the unpacker of `t` stands `m` nibbles further on in the stream than that of `s`. -/
structure Reads (m : Nat) (s t : State) : Prop where
  cnt : t.d.cnt.toNat ≤ 7
  next : ∀ k, t.nextNibble k = s.nextNibble (m + k)
  position : 8 * t.d.rp.toNat + s.d.cnt.toNat = 8 * s.d.rp.toNat + m + t.d.cnt.toNat

theorem Reads.refl (hs : s.d.cnt.toNat ≤ 7) : Reads 0 s s :=
  ⟨hs, fun k => by rw [Nat.zero_add], rfl⟩

theorem Reads.trans {m n : Nat} (h : Reads m s t) (k : Reads n t u) : Reads (m + n) s u where
  cnt := k.cnt
  next j := by rw [k.next, h.next, Nat.add_assoc]
  position := by have := h.position; have := k.position; omega

theorem Reads.one {n : Nibble} (hs : s.d.cnt.toNat ≤ 7) (h : s.nextNibble 0 = some n) : Reads 1 s (s.taking 1) where
  cnt := cnt_taking_one_le hs h
  next := nextNibble_taking_one hs h
  position := by
    rcases next_cases hs h with ⟨pos, -, cnt, hd⟩ | ⟨zero, -, -, rp, hd⟩
    · have rp : (s.taking 1).d.rp = s.d.rp := by rw [hd]
      rw [rp]
      omega
    · have cnt : (s.taking 1).d.cnt.toNat = 7 := by rw [hd]; rfl
      omega

/-- From a fresh decoder context the position alone fixes both counters. -/
theorem Reads.counters {m : Nat} (h : Reads m s t) (hcnt : s.d.cnt = 0) (hrp : s.d.rp = 0) :
    t.d.rp = BitVec.ofNat 32 ((m + 7) / 8) ∧ t.d.cnt = BitVec.ofNat 4 (8 * ((m + 7) / 8) - m) := by
  have position := h.position
  have cnt := h.cnt
  have cnt0 : s.d.cnt.toNat = 0 := by simp [hcnt]
  have rp0 : s.d.rp.toNat = 0 := by simp [hrp]
  constructor <;> apply BitVec.eq_of_toNat_eq <;> rw [BitVec.toNat_ofNat, Nat.mod_eq_of_lt] <;> omega

/-- R118: what is ahead can be taken one nibble at a time. -/
theorem taking_reads {ns : List Nibble} (hs : s.d.cnt.toNat ≤ 7) (h : s.Ahead ns) :
    Reads ns.length s (s.taking ns.length) := by
  induction ns generalizing s with
  | nil => rw [List.length_nil, taking_zero]; exact .refl hs
  | cons n ns ih =>
    have first := (ahead_cons.mp h).1
    have one := Reads.one hs first
    have rest := ih one.cnt (h.of_shift (ns := [n]) one.next)
    rw [List.length_cons, Nat.add_comm, ← taking_one_taking hs first]
    exact one.trans rest

/-- R118: the nibbles ahead, then `m` more. -/
theorem taking_taking {ns : List Nibble} (hs : s.d.cnt.toNat ≤ 7) (h : s.Ahead ns) (m : Nat) :
    (s.taking ns.length).taking m = s.taking (ns.length + m) := by
  induction ns generalizing s with
  | nil => rw [List.length_nil, taking_zero, Nat.zero_add]
  | cons n ns ih =>
    have first := (ahead_cons.mp h).1
    have one := Reads.one hs first
    have rest := ih one.cnt (h.of_shift (ns := [n]) one.next)
    rw [taking_one_taking hs first, taking_one_taking hs first] at rest
    rw [List.length_cons, Nat.add_comm ns.length, rest, Nat.add_assoc]

/-- R118: the nibbles ahead are returned in order, then the takes that follow run on. -/
theorem takeAll_of_ahead {ns : List Nibble} (hs : s.d.cnt.toNat ≤ 7) (h : s.Ahead ns) (m : Nat) :
    takeAll (ns.length + m) s = (takeAll m (s.taking ns.length)).bind fun ms u => .done (ns ++ ms) u := by
  induction ns generalizing s with
  | nil =>
    rw [List.length_nil, Nat.zero_add, taking_zero]
    cases takeAll m s <;> rfl
  | cons n ns ih =>
    have first := (ahead_cons.mp h).1
    have one := Reads.one hs first
    have rest := ih one.cnt (h.of_shift (ns := [n]) one.next)
    rw [List.length_cons, Nat.add_right_comm, takeAll, takeNibble_of_next hs first, Run.bind_done, rest, Run.bind_assoc,
      taking_one_taking hs first, Nat.add_comm 1]
    rfl

/-! ### A fresh decoder context -/

/-- R82, R118: from a fresh decoder context the nibbles of the whole words of the input are ahead, and no others. -/
theorem nextNibble_fresh (hcnt : s.d.cnt = 0) (hrp : s.d.rp = 0) (k : Nat) :
    s.nextNibble k = if k < 8 * (s.inLen.toNat / 4) then some (s.eNibble k) else none := by
  have room : 4 * (k / 8) + 4 ≤ s.inLen.toNat ↔ k < 8 * (s.inLen.toNat / 4) := by omega
  rw [nextNibble_input (by simp [hcnt])]
  simp [hcnt, hrp, room]

theorem ahead_fresh (hcnt : s.d.cnt = 0) (hrp : s.d.rp = 0) {m : Nat} (h : m ≤ 8 * (s.inLen.toNat / 4)) :
    s.Ahead ((List.range m).map s.eNibble) := by
  intro k hk
  rw [List.length_map, List.length_range] at hk
  rw [nextNibble_fresh hcnt hrp, if_pos (by omega)]
  simp [hk]

end Sys2Proof.Machine

/-- Settles O25: the nibbles of the whole words of the input are ahead, and where they end the next take raises. -/
theorem unpackerReturnsStreamNibbles : Obligations.UnpackerReturnsStreamNibbles := by
  intro s m hcnt hrp
  have hs : s.d.cnt.toNat ≤ 7 := by simp [hcnt]
  constructor
  · intro room
    have ahead := ahead_fresh hcnt hrp (m := m + 1) (by omega)
    have taken := takeAll_of_ahead hs ahead 0
    have reads := taking_reads hs ahead
    rw [List.length_map, List.length_range] at taken reads
    obtain ⟨rp, cnt⟩ := reads.counters hcnt hrp
    rw [show (m + 1 + 7) / 8 = m / 8 + 1 by omega] at rp cnt
    rw [show 8 * (m / 8 + 1) - (m + 1) = 7 - m % 8 by omega] at cnt
    refine ⟨s.taking (m + 1), by simpa [takeAll] using taken, ?_⟩
    rw [← rp, ← cnt]
    exact congrArg (fun d => { s with d := d }) (afterTaking_writes s (m + 1))
  · intro short
    have ahead := ahead_fresh hcnt hrp (m := 8 * (s.inLen.toNat / 4)) le_rfl
    have reads := taking_reads hs ahead
    rw [List.length_map, List.length_range] at reads
    obtain ⟨j, hj⟩ : ∃ j, m + 1 = 8 * (s.inLen.toNat / 4) + (j + 1) := ⟨m - 8 * (s.inLen.toNat / 4), by omega⟩
    have ended : (s.taking (8 * (s.inLen.toNat / 4))).nextNibble 0 = none := by
      rw [reads.next, nextNibble_fresh hcnt hrp, if_neg (by omega)]
    have taken := takeAll_of_ahead hs ahead (j + 1)
    rw [List.length_map, List.length_range, takeAll, takeNibble_of_end ended] at taken
    obtain ⟨rp, -⟩ := reads.counters hcnt hrp
    rw [hj, taken, rp, show (8 * (s.inLen.toNat / 4) + 7) / 8 = s.inLen.toNat / 4 by omega]
    rfl

end

section
/-! PROOFS. Parsing units: what DECVLE does with the nibbles ahead of a sound decoder context (R134, R135): it delivers a
unit, or raises where the unit is overlong or the input ends in it. -/

open Sys2Proof Sys2Proof.Machine

namespace Sys2Proof.Machine

variable {s t u : State}

/-- The unpacker does not meet the transients of R33. -/
theorem withVle_taking (s : State) (v : Option VleUnit) (m : Nat) :
    (s.withVle v).taking m = (s.taking m).withVle v := rfl

/-- The passes on continuing nibbles add them to the unit in progress. -/
theorem decodeVleLoop_continue {pre cs : List Nibble} (hs : s.d.cnt.toNat ≤ 7) (hin : s.InUnit pre)
    (hcs : allContinue cs) (h : s.Ahead cs) (hlen : pre.length + cs.length < 10) :
    ∃ v, ((s.taking cs.length).withVle v).InUnit (pre ++ cs) ∧
      ∀ fuel, decodeVleLoop (cs.length + fuel) s = decodeVleLoop fuel ((s.taking cs.length).withVle v) := by
  induction cs generalizing s pre with
  | nil =>
    rw [List.append_nil, List.length_nil, taking_zero]
    exact ⟨s.vle, hin, fun fuel => by rw [Nat.zero_add]; rfl⟩
  | cons c cs ih =>
    obtain ⟨hc, hcs⟩ := allContinue_cons.mp hcs
    rw [List.length_cons] at hlen
    have first := (ahead_cons.mp h).1
    have one := Reads.one hs first
    obtain ⟨v, hv, hin'⟩ := State.InUnit.continue (s := s.taking 1) ⟨hin.k, hin.value⟩ c (by omega)
    obtain ⟨w, hw, rest⟩ := ih (s := (s.taking 1).withVle v) one.cnt hin'
      hcs (h.of_shift (ns := [c]) one.next) (by rw [List.length_append, List.length_singleton]; omega)
    rw [List.append_assoc, withVle_taking, withVle_withVle, taking_one_taking hs first] at hw
    rw [withVle_taking, withVle_withVle, taking_one_taking hs first] at rest
    rw [List.length_cons, Nat.add_comm cs.length]
    refine ⟨w, hw, fun fuel => ?_⟩
    rw [Nat.add_comm 1, Nat.add_right_comm, decodeVleLoop, takeNibble_of_next hs first, Run.bind_done, if_pos hc, hv,
      Run.bind_done, rest, Nat.add_comm 1]

/-- R134, R135: DECVLE gathers the continuing nibbles ahead, and its loop goes on with the nibble after them. -/
theorem decodeVle_continue {cs : List Nibble} (hs : s.d.cnt.toNat ≤ 7) (hcs : allContinue cs) (h : s.Ahead cs)
    (hlen : cs.length < 10) :
    ∃ v fuel, ((s.taking cs.length).withVle v).InUnit cs ∧
      decodeVle s = decodeVleLoop (fuel + 1) ((s.taking cs.length).withVle v) := by
  obtain ⟨v, hin, rest⟩ := decodeVleLoop_continue (s := s.withVle none) hs (.of_none rfl) hcs h
    (by rwa [List.length_nil, Nat.zero_add])
  obtain ⟨fuel, hfuel⟩ := Nat.exists_eq_add_of_lt hlen
  refine ⟨v, fuel, hin, ?_⟩
  rw [Nat.add_assoc] at hfuel
  exact (congrArg (decodeVleLoop · (s.withVle none)) hfuel).trans (rest (fuel + 1))

/-- R134, R135: continuing nibbles ahead and one more: the pass on that one. -/
theorem decodeVle_pass {cs : List Nibble} {n : Nibble} (hs : s.d.cnt.toNat ≤ 7) (hcs : allContinue cs)
    (h : s.Ahead (cs ++ [n])) (hlen : cs.length < 10) :
    ∃ u fuel, u.d = (s.taking (cs.length + 1)).d ∧ u.InUnit cs ∧
      u.withVle none = (s.taking (cs.length + 1)).withVle none ∧
      decodeVle s =
        if n.getLsbD 3 then (vleContinue (n.extractLsb' 0 3) u).bind fun _ w => decodeVleLoop fuel w
        else vleFinish (n.extractLsb' 0 3) u := by
  obtain ⟨v, fuel, hin, gathered⟩ := decodeVle_continue hs hcs h.left hlen
  have reads := taking_reads hs h.left
  have last := (ahead_cons.mp (h.of_shift reads.next)).1
  have taken := takeNibble_of_next (s := (s.taking cs.length).withVle v) reads.cnt last
  rw [withVle_taking, taking_taking hs h.left] at taken
  refine ⟨(s.taking (cs.length + 1)).withVle v, fuel, rfl, ⟨hin.k, hin.value⟩, rfl, ?_⟩
  rw [gathered, decodeVleLoop, taken, Run.bind_done]

theorem isShortUnit_iff {ns : List Nibble} : isShortUnit ns = true ↔ isUnit ns = true ∧ ns.length ≤ 10 := by
  simp [isShortUnit]

theorem unitValue_lt_of_isShortUnit {ns : List Nibble} (h : isShortUnit ns = true) : unitValue ns < 2 ^ 30 :=
  (unitValue_lt ns).trans_le (Nat.pow_le_pow_right (by omega : 0 < 8) (isShortUnit_iff.mp h).2)

/-- R135: DECVLE takes the nibbles of the unit ahead and delivers its value. -/
theorem decodeVle_of_unit {ns : List Nibble} (hs : s.d.cnt.toNat ≤ 7) (hunit : isShortUnit ns = true) (h : s.Ahead ns) :
    decodeVle s = .done (BitVec.ofNat 32 (unitValue ns)) ((s.taking ns.length).withVle none) := by
  obtain ⟨hunit, hlen⟩ := isShortUnit_iff.mp hunit
  obtain ⟨cs, n, rfl, hcs, hn⟩ := isUnit_iff.mp hunit
  rw [List.length_append, List.length_singleton] at hlen ⊢
  obtain ⟨u, fuel, -, hin, hu, pass⟩ := decodeVle_pass hs hcs h (by omega)
  rw [pass, hn, if_neg (by decide), vleFinish, hin.place_eq n]
  exact congrArg (Run.done _) hu

/-- R138: the input ends in a unit. -/
theorem decodeVle_truncated {cs : List Nibble} (hs : s.d.cnt.toNat ≤ 7) (hcs : allContinue cs) (h : s.Ahead cs)
    (hlen : cs.length < 10) (hend : s.nextNibble cs.length = none) :
    decodeVle s = .raised .truncatedInput (s.taking cs.length).d.rp := by
  obtain ⟨v, fuel, -, gathered⟩ := decodeVle_continue hs hcs h hlen
  have ended : State.nextNibble ((s.taking cs.length).withVle v) 0 = none :=
    ((taking_reads hs h).next 0).trans hend
  rw [gathered, decodeVleLoop, takeNibble_of_end ended, Run.bind_raised, withVle_d]

/-- R134: the tenth nibble of a unit goes on. -/
theorem decodeVle_overlong {cs : List Nibble} (hs : s.d.cnt.toNat ≤ 7) (hcs : allContinue cs) (h : s.Ahead cs)
    (hlen : cs.length = 10) : decodeVle s = .raised .vleOverlong (s.taking cs.length).d.rp := by
  obtain ⟨init, c, rfl⟩ : ∃ init c, cs = init ++ [c] :=
    ⟨cs.dropLast, cs.getLast (by rintro rfl; cases hlen), (List.dropLast_append_getLast _).symm⟩
  rw [List.length_append, List.length_singleton] at hlen ⊢
  have hc : c.getLsbD 3 = true := hcs c (by simp)
  obtain ⟨u, fuel, hd, hin, -, pass⟩ := decodeVle_pass hs (fun x hx => hcs x (by simp [hx])) h (by omega)
  rw [pass, if_pos hc, vleContinue_overlong (by rw [hin.k]; omega), Run.bind_raised, hd]

end Sys2Proof.Machine

end

section
/-! PROOFS. Decoding: what the bodies of DECOMPRESS do with legal groups ahead, and the samples they write (R190 to R192,
R200). -/

open Sys2Proof Sys2Proof.Machine

namespace Sys2Proof.Machine

variable {s t u : State}

/-! ### Reconstruction -/

/-- R152, R160: on the 32 bits the inverse zigzag map is the one on integers. -/
theorem toInt_zigzagDecode (v : Word) : (zigzagDecode v).toInt = unzigzagInt v.toNat := by
  have hv := v.isLt
  have low : (v &&& 1).toNat = v.toNat % 2 := by simp
  have half : (v >>> 1).toNat = v.toNat / 2 := by simp [Nat.shiftRight_one]
  rcases Nat.mod_two_eq_zero_or_one v.toNat with h | h
  · have bit : v &&& 1 = 0 := BitVec.eq_of_toNat_eq (low.trans h)
    have value : zigzagDecode v = v >>> 1 := by rw [zigzagDecode, bit]; simp
    rw [value, unzigzagInt, if_pos h, BitVec.toInt_eq_toNat_of_lt (by omega), half]
  · have bit : v &&& 1 = 1 := BitVec.eq_of_toNat_eq (low.trans h)
    have value : zigzagDecode v = ~~~(v >>> 1) := by rw [zigzagDecode, bit, ← BitVec.xor_allOnes]; rfl
    rw [value, unzigzagInt, if_neg (by omega), BitVec.toInt_eq_toNat_cond, BitVec.toNat_not, half]
    split <;> omega

/-- R10: truncation to 16 bits is the value modulo 2^16. -/
theorem truncSample_eq (x : Word) : truncSample x = BitVec.ofInt 16 x.toInt := by
  apply BitVec.eq_of_toInt_eq
  rw [truncSample, BitVec.toInt_setWidth, BitVec.toInt_ofInt, BitVec.toInt_eq_toNat_bmod,
    Int.bmod_bmod_of_dvd (by decide)]

/-- R154: the reconstructed sample, as cursor plus delta modulo 2^16. -/
theorem reconstruct_eq (prev : Sample) (delta : Word) :
    reconstruct prev delta = BitVec.ofInt 16 (prev.toInt + delta.toInt) := by
  rw [reconstruct, truncSample_eq]
  apply BitVec.eq_of_toInt_eq
  rw [sampleResult, BitVec.toInt_add, BitVec.toInt_signExtend_of_le (by decide), BitVec.toInt_ofInt, BitVec.toInt_ofInt,
    Int.bmod_bmod_of_dvd (by decide)]

theorem toNat_unitValue {ns : List Nibble} (h : isShortUnit ns = true) :
    (BitVec.ofNat 32 (unitValue ns)).toNat = unitValue ns := by
  have := unitValue_lt_of_isShortUnit h
  rw [BitVec.toNat_ofNat, Nat.mod_eq_of_lt (by omega)]

/-! ### The samples written -/

/-- R31: the samples before the write cursor. -/
def State.written (s : State) : List Sample := (List.range s.d.so.toNat).map s.sSpace.read

theorem written_congr (hso : t.d.so = s.d.so) (hS : t.sSpace = s.sSpace) : t.written = s.written := by
  rw [State.written, hso, hS, State.written]

/-- R190, R192: `s` after `v` was written at the cursor, with `D.prev` set to `prev`. -/
def State.push (s : State) (v prev : Sample) : State :=
  { sWrite s s.d.so v with d := { s.d with so := s.d.so + 1, prev := prev } }

theorem push_advances (h : s.d.so.toNat < s.numPixels.toNat) (v prev : Sample) : Advances 1 0 s (s.push v prev) :=
  sWrite_advances h v prev

theorem writeZeros_succ (n : Nat) (s : State) : writeZeros (n + 1) s = writeZeros n (s.push 0 s.d.prev) := rfl

theorem push_written (hm : Memory.wf s.sSpace = true) (h : s.d.so.toNat < s.numPixels.toNat) (v prev : Sample) :
    (s.push v prev).written = s.written ++ [v] := by
  have so : (s.push v prev).d.so.toNat = s.d.so.toNat + 1 := (push_advances h v prev).so
  have before : ∀ j ∈ List.range s.d.so.toNat, (s.push v prev).sSpace.read j = s.sSpace.read j :=
    fun j hj => sWrite_read_other _ v (List.mem_range.mp hj).ne
  have cell : (s.push v prev).sSpace.read s.d.so.toNat = v := by
    show (sWrite s s.d.so v).sSpace.read s.d.so.toNat = v
    rw [sWrite_inside (BitVec.lt_def.mpr h)]
    exact Memory.read_write_same hm _ v
  rw [State.written, so, List.range_succ, List.map_append, List.map_congr_left before, List.map_singleton, cell,
    State.written]

theorem writeZeros_written (n : Nat) (hm : Memory.wf s.sSpace = true) (h : s.d.so.toNat + n ≤ s.numPixels.toNat) :
    (writeZeros n s).written = s.written ++ List.replicate n 0 := by
  induction n generalizing s with
  | zero => rw [List.replicate_zero, List.append_nil]; rfl
  | succ n ih =>
    have one := push_advances (s := s) (by omega) 0 s.d.prev
    have wf : Memory.wf (s.push 0 s.d.prev).sSpace = true := sWrite_wf hm s.d.so 0
    rw [writeZeros_succ, ih wf (by rw [one.so, one.numPixels]; omega), push_written hm (by omega), List.replicate_succ,
      List.append_assoc]
    rfl

/-- R154, R192: the sample the value unit `ns` codes against the cursor `prev`. -/
def sampleFrom (prev : Sample) (ns : List Nibble) : Sample :=
  BitVec.ofInt 16 (prev.toInt + unzigzagInt (unitValue ns))

theorem valuesFrom_cons (prev : Sample) (ns : List Nibble) (us : List (List Nibble)) :
    valuesFrom prev (ns :: us) = sampleFrom prev ns :: valuesFrom (sampleFrom prev ns) us := rfl

/-! ### What decoding does -/

/-- R118, R190 to R192: from `s` to `t` the decompress path has taken `m` nibbles, written the samples `xs` at its cursor,
and taken `accounted` samples off `D.rem`. -/
structure Decodes (m : Nat) (xs : List Sample) (accounted : Nat) (s t : State) : Prop extends Reads m s t where
  frame : DecFrame s t
  vle : s.vle = none → t.vle = none
  advances : Advances xs.length accounted s t
  written : Memory.wf s.sSpace = true → t.written = s.written ++ xs

theorem Decodes.refl (hs : s.d.cnt.toNat ≤ 7) : Decodes 0 [] 0 s s where
  toReads := .refl hs
  frame := .refl s
  vle := id
  advances := .refl s
  written _ := (List.append_nil _).symm

theorem Decodes.trans {m n k l : Nat} {xs ys : List Sample} (h : Decodes m xs k s t) (h' : Decodes n ys l t u) :
    Decodes (m + n) (xs ++ ys) (k + l) s u where
  toReads := h.toReads.trans h'.toReads
  frame := h.frame.trans h'.frame
  vle := h'.vle ∘ h.vle
  advances := by rw [List.length_append]; exact h.advances.trans h'.advances
  written hm := by rw [h'.written (h.frame.canonical hm), h.written hm, List.append_assoc]

/-- R135: a unit ahead is parsed. -/
theorem decodeVle_decodes {ns : List Nibble} (hs : s.d.cnt.toNat ≤ 7) (hunit : isShortUnit ns = true) (h : s.Ahead ns) :
    ∃ t, decodeVle s = .done (BitVec.ofNat 32 (unitValue ns)) t ∧ Decodes ns.length [] 0 s t ∧
      t.d.prev = s.d.prev := by
  have done := decodeVle_of_unit hs hunit h
  have reads := taking_reads hs h
  obtain ⟨_, _, _, _, ht⟩ := decodeVle_writes done
  have prev := congrArg (·.d.prev) ht
  have so := congrArg (·.d.so) ht
  refine ⟨_, done, ⟨⟨reads.cnt, reads.next, reads.position⟩, decodeVle_frame done, fun _ => rfl,
    (decodeVle_writes done).advances, fun _ => ?_⟩, prev⟩
  rw [List.append_nil]
  exact written_congr so rfl

/-- The unpacker's position is in three registers of D and in the input. -/
theorem Reads.of_eq (hs : s.d.cnt.toNat ≤ 7) (ht : t = { s with d := t.d, sSpace := t.sSpace, vle := t.vle })
    (word : t.d.word = s.d.word) (cnt : t.d.cnt = s.d.cnt) (rp : t.d.rp = s.d.rp) : Reads 0 s t where
  cnt := cnt ▸ hs
  next k := by
    rw [ht, Nat.zero_add]
    simp only [State.nextNibble, State.eNibble, word, cnt, rp]
  position := by rw [cnt, rp, Nat.add_zero]

/-- R190: a zero-run that fits is written and accounted for. -/
theorem writeZeroRun_decodes {c : Word} (hs : s.d.cnt.toNat ≤ 7)
    (hfit : s.d.so.toNat + s.d.rem.toNat ≤ s.numPixels.toNat) (hc : c ≤ s.d.rem) :
    ∃ t, writeZeroRun c s = .done () t ∧ Decodes 0 (List.replicate c.toNat 0) c.toNat s t ∧
      t.d.prev = s.d.prev := by
  have hle : c.toNat ≤ s.d.rem.toNat := hc
  have done := writeZeroRun_eq_done.mpr ⟨hc, rfl⟩
  obtain ⟨_, _, hz⟩ := writeZeros_writes c.toNat s
  have prev : (writeZeros c.toNat s).d.prev = s.d.prev := by rw [hz]
  refine ⟨_, done, ⟨?_, writeZeroRun_frame done, fun h => ?_, ?_, fun hm => ?_⟩, prev⟩
  · rw [hz]
    exact .of_eq hs rfl rfl rfl rfl
  · rw [hz]
    exact h
  · rw [List.length_replicate]
    exact writeZeroRun_advances hfit done
  · exact writeZeros_written c.toNat hm (by omega)

/-- R191: a nonzero-run that fits is accounted for. -/
theorem accountNonzeroRun_decodes {c : Word} (hs : s.d.cnt.toNat ≤ 7) (hc : c ≤ s.d.rem) :
    ∃ t, accountNonzeroRun c s = .done () t ∧ Decodes 0 [] c.toNat s t ∧ t.d.prev = s.d.prev := by
  have done := accountNonzeroRun_eq_done.mpr ⟨hc, rfl⟩
  refine ⟨_, done, ⟨.of_eq hs rfl rfl rfl rfl, accountNonzeroRun_frame done, id, accountNonzeroRun_advances done,
    fun _ => ?_⟩, rfl⟩
  rw [List.append_nil]
  rfl

/-- R192: the sample the unit ahead codes is written. -/
theorem decodeValue_decodes {ns : List Nibble} (hs : s.d.cnt.toNat ≤ 7) (hso : s.d.so.toNat < s.numPixels.toNat)
    (hunit : isShortUnit ns = true) (h : s.Ahead ns) :
    ∃ v t, decodeValue s = .done v t ∧ Decodes ns.length [sampleFrom s.d.prev ns] 0 s t ∧
      t.d.prev = sampleFrom s.d.prev ns := by
  obtain ⟨u, parsed, hu, prev⟩ := decodeVle_decodes hs hunit h
  have cur : reconstruct u.d.prev (zigzagDecode (BitVec.ofNat 32 (unitValue ns))) = sampleFrom s.d.prev ns := by
    rw [reconstruct_eq, toInt_zigzagDecode, toNat_unitValue hunit, prev, sampleFrom]
  have done : decodeValue s = .done (sampleResult (sampleFrom s.d.prev ns))
      (u.push (sampleFrom s.d.prev ns) (sampleFrom s.d.prev ns)) := by
    rw [decodeValue, parsed, Run.bind_done, cur]
    rfl
  have inside : u.d.so.toNat < u.numPixels.toNat := by rwa [hu.advances.so, hu.advances.numPixels]
  refine ⟨_, _, done, ⟨?_, decodeValue_frame done, hu.vle, decodeValue_advances hso done, fun hm => ?_⟩, rfl⟩
  · have pushed : Reads 0 u (u.push (sampleFrom s.d.prev ns) (sampleFrom s.d.prev ns)) :=
      .of_eq hu.cnt rfl rfl rfl rfl
    exact hu.toReads.trans pushed
  · rw [push_written (hu.frame.canonical hm) inside, hu.written hm, List.append_nil]

/-- R200 step 2: the value units ahead are decoded, and the loop goes on with those that follow. -/
theorem decodeValues_decodes {us : List (List Nibble)} (hs : s.d.cnt.toNat ≤ 7)
    (hso : s.d.so.toNat + us.length ≤ s.numPixels.toNat) (hunits : ∀ v ∈ us, isShortUnit v = true)
    (h : s.Ahead us.flatten) :
    ∃ t, Decodes us.flatten.length (valuesFrom s.d.prev us) 0 s t ∧
      t.d.prev = (valuesFrom s.d.prev us).getLastD s.d.prev ∧
      ∀ n, decodeValues (us.length + n) s = decodeValues n t := by
  induction us generalizing s with
  | nil => exact ⟨s, .refl hs, rfl, fun n => by rw [List.length_nil, Nat.zero_add]⟩
  | cons v us ih =>
    obtain ⟨hv, hunits⟩ := List.forall_mem_cons.mp hunits
    rw [List.length_cons] at hso
    rw [List.flatten_cons] at h
    obtain ⟨r, t, done, one, prev⟩ := decodeValue_decodes hs (by omega) hv h.left
    obtain ⟨u, more, last, rest⟩ :=
      ih one.cnt (by rw [one.advances.so, one.advances.numPixels, List.length_singleton]; omega) hunits
        (h.of_shift one.next)
    rw [prev] at more last
    refine ⟨u, ?_, ?_, fun n => ?_⟩
    · rw [List.flatten_cons, List.length_append]
      exact one.trans more
    · rw [last, valuesFrom_cons, List.getLastD_cons]
    · rw [List.length_cons, Nat.add_right_comm, decodeValues, done, Run.bind_done, rest]

end Sys2Proof.Machine

end

section
/-! PROOFS. DECOMPRESS on legal groups: one group in two stages, the loop over the groups, and the samples they code (R91,
R93, R200). -/

open Sys2Proof Sys2Proof.Machine

namespace Sys2Proof.Machine

variable {s t u : State}

/-! ### One group -/

/-- R191, R200: a group after its zero-run: the nonzero-run length, and the values. -/
def decodeNonzeros (s : State) : Run Unit :=
  (decodeVle s).bind fun nonzeros s1 =>
  (accountNonzeroRun nonzeros s1).bind fun _ s2 =>
  decodeValues nonzeros.toNat s2

theorem decodeGroup_eq (s : State) :
    decodeGroup s = (decodeVle s).bind fun zeros s1 => (writeZeroRun zeros s1).bind fun _ s2 => decodeNonzeros s2 := rfl

/-- R91: the groups' bodies keep what is needed of a decoder context: a current word of eight nibbles at most, and room
in S-space for every sample not accounted for. -/
def State.Decoding (s : State) : Prop := s.d.cnt.toNat ≤ 7 ∧ s.d.so.toNat + s.d.rem.toNat ≤ s.numPixels.toNat

/-- A stretch that writes what it accounts for leaves room for the rest. -/
theorem Decodes.decoding {m n : Nat} {xs : List Sample} (h : Decodes m xs n s t) (hs : s.Decoding)
    (hlen : xs.length ≤ n) : t.Decoding := by
  obtain ⟨-, room⟩ := hs
  have so := h.advances.so
  have rem := h.advances.rem
  have numPixels := h.advances.numPixels
  refine ⟨h.cnt, ?_⟩
  rw [numPixels]
  omega

/-- R200 step 1, R190: the zero-run of a group. -/
theorem decodeGroup_of_zeros {z : List Nibble} (hs : s.Decoding) (hz : isShortUnit z = true) (h : s.Ahead z)
    (hfit : unitValue z ≤ s.d.rem.toNat) :
    ∃ t, Decodes z.length (List.replicate (unitValue z) 0) (unitValue z) s t ∧ t.d.prev = s.d.prev ∧
      decodeGroup s = decodeNonzeros t := by
  obtain ⟨t, parsed, ht, prev⟩ := decodeVle_decodes hs.1 hz h
  obtain ⟨-, room⟩ := ht.decoding hs le_rfl
  have fits : BitVec.ofNat 32 (unitValue z) ≤ t.d.rem := by
    rw [BitVec.le_def, toNat_unitValue hz]
    have := ht.advances.rem
    omega
  obtain ⟨u, done, hu, prev'⟩ := writeZeroRun_decodes ht.cnt room fits
  rw [toNat_unitValue hz] at hu
  refine ⟨u, ?_, prev'.trans prev, by rw [decodeGroup_eq, parsed, Run.bind_done, done, Run.bind_done]⟩
  simpa using ht.trans hu

/-- R200 step 1, R191: the nonzero-run length of a group. -/
theorem decodeNonzeros_of_run {k : List Nibble} (hs : s.d.cnt.toNat ≤ 7) (hk : isShortUnit k = true) (h : s.Ahead k)
    (hfit : unitValue k ≤ s.d.rem.toNat) :
    ∃ t, Decodes k.length [] (unitValue k) s t ∧ t.d.prev = s.d.prev ∧
      decodeNonzeros s = decodeValues (unitValue k) t := by
  obtain ⟨t, parsed, ht, prev⟩ := decodeVle_decodes hs hk h
  have fits : BitVec.ofNat 32 (unitValue k) ≤ t.d.rem := by
    rw [BitVec.le_def, toNat_unitValue hk]
    have := ht.advances.rem
    omega
  obtain ⟨u, done, hu, prev'⟩ := accountNonzeroRun_decodes ht.cnt fits
  rw [toNat_unitValue hk] at hu
  refine ⟨u, ?_, prev'.trans prev, ?_⟩
  · simpa using ht.trans hu
  · rw [decodeNonzeros, parsed, Run.bind_done, done, Run.bind_done, toNat_unitValue hk]

/-- R91, R200: the units of a group up to its values `vs`, of which there are no more than the nonzero-run length says. -/
theorem decodeGroup_of_units {z k : List Nibble} {vs : List (List Nibble)} (hs : s.Decoding)
    (hz : isShortUnit z = true) (hk : isShortUnit k = true) (hvs : ∀ v ∈ vs, isShortUnit v = true)
    (h : s.Ahead (z ++ k ++ vs.flatten)) (hfit : unitValue z + unitValue k ≤ s.d.rem.toNat)
    (hlen : vs.length ≤ unitValue k) :
    ∃ t, Decodes (z ++ k ++ vs.flatten).length (List.replicate (unitValue z) 0 ++ valuesFrom s.d.prev vs)
        (unitValue z + unitValue k) s t ∧
      t.d.prev = (valuesFrom s.d.prev vs).getLastD s.d.prev ∧
      decodeGroup s = decodeValues (unitValue k - vs.length) t := by
  rw [List.append_assoc] at h ⊢
  obtain ⟨s1, h1, prev1, zeros⟩ := decodeGroup_of_zeros hs hz h.left (by omega)
  have ahead1 := h.of_shift h1.next
  have rem1 := h1.advances.rem
  obtain ⟨s2, h2, prev2, run⟩ := decodeNonzeros_of_run h1.cnt hk ahead1.left (by omega)
  have both := h1.trans h2
  obtain ⟨-, room⟩ := hs
  have so2 := both.advances.so
  have rem2 := both.advances.rem
  have pixels2 := both.advances.numPixels
  rw [List.append_nil, List.length_replicate] at so2
  obtain ⟨t, h3, last, rest⟩ :=
    decodeValues_decodes h2.cnt (by rw [so2, pixels2]; omega) hvs (ahead1.of_shift h2.next)
  rw [prev2, prev1] at h3 last
  refine ⟨t, ?_, last, ?_⟩
  · have all := both.trans h3
    rw [List.append_nil, Nat.add_zero, Nat.add_assoc, ← List.length_append, ← List.length_append] at all
    exact all
  · rw [zeros, run, ← rest, Nat.add_sub_of_le hlen]

/-! ### Whole groups -/

theorem legal_iff {g : Group} :
    g.legal = true ↔ isShortUnit g.zeros = true ∧ isShortUnit g.nonzeros = true ∧
      (∀ v ∈ g.values, isShortUnit v = true) ∧ unitValue g.nonzeros = g.values.length := by
  simp [Group.legal, and_assoc]

theorem length_valuesFrom (prev : Sample) (us : List (List Nibble)) : (valuesFrom prev us).length = us.length := by
  induction us generalizing prev with
  | nil => rfl
  | cons u us ih => rw [valuesFrom_cons, List.length_cons, List.length_cons, ih]

/-- R91, R192: the samples one group codes. -/
def Group.samples (prev : Sample) (g : Group) : List Sample :=
  List.replicate (unitValue g.zeros) 0 ++ valuesFrom prev g.values

theorem Group.length_samples (prev : Sample) (g : Group) : (g.samples prev).length = g.size := by
  rw [Group.samples, List.length_append, List.length_replicate, length_valuesFrom, Group.size]

theorem samplesFrom_cons (prev : Sample) (g : Group) (gs : List Group) :
    samplesFrom prev (g :: gs) = g.samples prev ++ samplesFrom (g.cursor prev) gs := rfl

theorem length_samplesFrom (prev : Sample) (gs : List Group) :
    (samplesFrom prev gs).length = (gs.map Group.size).sum := by
  induction gs generalizing prev with
  | nil => rfl
  | cons g gs ih => rw [samplesFrom_cons, List.length_append, g.length_samples, ih, List.map_cons, List.sum_cons]

/-- R91, R200: a legal group ahead is decoded. -/
theorem decodeGroup_of_legal {g : Group} (hs : s.Decoding) (hg : g.legal = true) (h : s.Ahead g.nibbles)
    (hfit : g.size ≤ s.d.rem.toNat) :
    ∃ t, decodeGroup s = .done () t ∧ Decodes g.nibbles.length (g.samples s.d.prev) g.size s t ∧
      t.d.prev = g.cursor s.d.prev := by
  obtain ⟨hz, hk, hvs, hlen⟩ := legal_iff.mp hg
  rw [Group.size, ← hlen] at hfit ⊢
  obtain ⟨t, ht, prev, done⟩ := decodeGroup_of_units hs hz hk hvs h hfit hlen.ge
  rw [hlen, Nat.sub_self] at done
  exact ⟨t, done, ht, prev⟩

/-- R201: the last group, or what is left after it, keeps samples unaccounted for at the start of every group. -/
theorem sum_size_pos {gs : List Group} {left : Nat} (hne : gs ≠ []) (hlast : ∀ g ∈ gs.getLast?, 0 < g.size + left) :
    0 < (gs.map Group.size).sum + left := by
  have last := hlast _ (List.getLast?_eq_some_getLast hne)
  have mem := List.le_sum_of_mem (List.mem_map_of_mem (f := Group.size) (List.getLast_mem hne))
  omega

/-- R200, R201: the loop decodes the legal groups ahead, as long as each begins with samples unaccounted for; then it goes
on with what follows. -/
theorem decodeGroups_of_legal {gs : List Group} {left : Nat} (hs : s.Decoding) (hgs : ∀ g ∈ gs, g.legal = true)
    (h : s.Ahead (gs.flatMap Group.nibbles)) (hrem : (gs.map Group.size).sum + left = s.d.rem.toNat)
    (hlast : ∀ g ∈ gs.getLast?, 0 < g.size + left) :
    ∃ t, Decodes (gs.flatMap Group.nibbles).length (samplesFrom s.d.prev gs) (gs.map Group.size).sum s t ∧
      t.Decoding ∧ t.d.prev = gs.foldl Group.cursor s.d.prev ∧
      ∀ fuel, decodeGroups (gs.length + fuel) s = decodeGroups fuel t := by
  induction gs generalizing s with
  | nil => exact ⟨s, .refl hs.1, hs, rfl, fun fuel => by rw [List.length_nil, Nat.zero_add]⟩
  | cons g gs ih =>
    obtain ⟨hg, hgs⟩ := List.forall_mem_cons.mp hgs
    rw [List.map_cons, List.sum_cons] at hrem ⊢
    rw [List.flatMap_cons] at h ⊢
    have pos : s.d.rem > 0 := by
      have sum := sum_size_pos (List.cons_ne_nil g gs) hlast
      rw [List.map_cons, List.sum_cons] at sum
      exact BitVec.lt_def.mpr (by rw [← hrem]; exact sum)
    have hlast' : ∀ g' ∈ gs.getLast?, 0 < g'.size + left := fun g' hg' => hlast g' (by
      rw [Option.mem_def] at hg' ⊢
      rw [List.getLast?_cons, hg', Option.getD_some])
    obtain ⟨t, done, ht, prev⟩ := decodeGroup_of_legal hs hg h.left (by omega)
    have rem := ht.advances.rem
    have decoding := ht.decoding hs (g.length_samples _).le
    obtain ⟨u, hu, decoding', prev', rest⟩ := ih decoding hgs (h.of_shift ht.next) (by omega) hlast'
    rw [prev] at hu prev'
    refine ⟨u, ?_, decoding', prev', fun fuel => ?_⟩
    · rw [List.length_append, samplesFrom_cons]
      exact ht.trans hu
    · rw [List.length_cons, Nat.add_right_comm, decodeGroups, if_pos pos, done, Run.bind_done, rest]

/-! ### The start -/

theorem decompressStart_decoding (s : State) : (decompressStart s).Decoding :=
  ⟨Nat.zero_le 7, (Nat.zero_add _).le⟩

/-- R71, R82: what the input begins with is ahead of DECOMPRESS. -/
theorem ahead_decompressStart {ns : List Nibble} (h : s.inputBegins ns) : (decompressStart s).Ahead ns := by
  obtain ⟨hlen, hcells⟩ := h
  intro k hk
  rw [nextNibble_fresh (s := decompressStart s) rfl rfl, decompressStart_inLen, if_pos (by omega),
    List.getElem?_eq_getElem hk, ← hcells k hk]
  rfl

/-- R91: a group has a unit for each of its two run lengths. -/
theorem two_le_length_nibbles {g : Group} (h : g.legal = true) : 2 ≤ g.nibbles.length := by
  obtain ⟨hz, hk, -, -⟩ := legal_iff.mp h
  have pos {ns : List Nibble} (hns : isShortUnit ns = true) : 0 < ns.length := by
    obtain ⟨cs, n, rfl, -, -⟩ := isUnit_iff.mp (isShortUnit_iff.mp hns).1
    simp
  have := pos hz
  have := pos hk
  rw [Group.nibbles, List.length_append, List.length_append]
  omega

/-- R203: the passes of DECOMPRESS are enough for the groups an input can hold. -/
theorem length_le_inLen {gs : List Group} (hgs : ∀ g ∈ gs, g.legal = true)
    (h : (gs.flatMap Group.nibbles).length ≤ 8 * (s.inLen.toNat / 4)) : gs.length ≤ s.inLen.toNat := by
  have two : 2 * gs.length ≤ (gs.flatMap Group.nibbles).length := by
    clear h
    induction gs with
    | nil => exact le_rfl
    | cons g gs ih =>
      obtain ⟨hg, hgs⟩ := List.forall_mem_cons.mp hgs
      have := two_le_length_nibbles hg
      have := ih hgs
      rw [List.flatMap_cons, List.length_append, List.length_cons]
      omega
  omega

/-- R214 (b): NUMPIXELS_MAX does not refuse DECOMPRESS. -/
theorem numPixels_le_max (h : s.numPixels.toNat ≤ 2 ^ 30 - 1) : s.numPixels ≤ Config.numPixelsMax := h

end Sys2Proof.Machine

/-- Settles O59: the loop decodes the groups the input begins with, and ends with no sample left. -/
theorem decompressDecodesEveryStream : Obligations.DecompressDecodesEveryStream := by
  intro s gs hf hm hn hgs hsum hlast hin
  have ahead := ahead_decompressStart hin
  obtain ⟨t, ht, -, prev, rest⟩ := decodeGroups_of_legal (left := 0) (decompressStart_decoding s) hgs ahead
    (by rw [Nat.add_zero, hsum]; rfl) (by simpa using hlast)
  have rem : t.d.rem.toNat = 0 := by
    have : t.d.rem.toNat + _ = s.numPixels.toNat := ht.advances.rem
    omega
  have so : t.d.so = s.numPixels := by
    apply BitVec.eq_of_toNat_eq
    rw [ht.advances.so, length_samplesFrom, hsum]
    exact Nat.zero_add _
  have enough := length_le_inLen hgs hin.1
  have done : decompressStream s = .done () t := by
    rw [decompressStream, show s.inLen.toNat + 1 = gs.length + (s.inLen.toNat - gs.length + 1) by omega, rest,
      decodeGroups, if_neg]
    rw [gt_iff_lt, BitVec.lt_def, rem]
    exact Nat.lt_irrefl 0
  refine ⟨complete 0 t, ?_, ?_, ?_, ?_, ?_, so, prev, ?_⟩
  · rw [exec_decompress]
    exact issue_next_of_done hf (streamStartRefusal_none.mpr (numPixels_le_max hn)) (by rw [done, Run.bind_done])
  · have vle : t.vle = none := ht.vle rfl
    have frame := ht.frame.rest
    rw [vle] at frame
    exact congrArg (complete 0) frame
  · have written : t.written = samplesFrom 0 gs := ht.written hm.1
    rw [State.written, so] at written
    rw [State.samples, complete_numPixels, ht.advances.numPixels]
    exact written
  · exact ht.advances.outside
  · exact BitVec.eq_of_toNat_eq rem
  · have position : 8 * t.d.rp.toNat + 0 = 0 + _ + t.d.cnt.toNat := ht.position
    rwa [Nat.zero_add] at position

end

section
/-! PROOFS. Canonical streams as groups: the minimal unit of a value is a unit of that value (R83, R131, R132), the
canonical stream of a sample list is legal groups that cover it (R91, R92), and legal groups cut short are whole groups,
whole units of a group that goes on, and continuing nibbles. -/

open Sys2Proof Sys2Proof.Machine

namespace Sys2Proof.Machine

/-! ### Minimal units -/

theorem unitLength_of_lt {v : Nat} (h : v < 8) : unitLength v = 1 := by
  by_cases zero : v = 0
  · rw [unitLength, if_pos zero]
  · have := (Nat.log2_lt zero (k := 3)).mpr h
    rw [unitLength, if_neg zero]
    omega

theorem unitLength_of_le {v : Nat} (h : 8 ≤ v) : unitLength v = unitLength (v / 8) + 1 := by
  have log : v.log2 = (v / 8).log2 + 3 := by
    rw [Nat.log2_def v, if_pos (by omega), Nat.log2_def (v / 2), if_pos (by omega), Nat.log2_def (v / 2 / 2),
      if_pos (by omega), Nat.div_div_eq_div_mul, Nat.div_div_eq_div_mul]
  rw [unitLength, unitLength, if_neg (by omega), if_neg (by omega), log]
  omega

theorem unitNibble_succ (v k : Nat) : unitNibble v (k + 1) = unitNibble (v / 8) k := by
  rw [unitNibble, unitNibble, Nat.pow_succ' (n := k + 1), Nat.pow_succ' (n := k), Nat.div_div_eq_div_mul,
    Nat.div_div_eq_div_mul]

theorem unitOf_of_lt {v : Nat} (h : v < 8) : unitOf v = [BitVec.ofNat 4 v] := by
  have all : v / 8 = 0 := by omega
  rw [unitOf, unitLength_of_lt h, List.range_one, List.map_singleton, unitNibble]
  simp [all, Nat.mod_eq_of_lt h]

/-- R132: the first group of three bits continues, and the rest is the unit of the value above it. -/
theorem unitOf_of_le {v : Nat} (h : 8 ≤ v) : unitOf v = BitVec.ofNat 4 (v % 8 + 8) :: unitOf (v / 8) := by
  have first : unitNibble v 0 = BitVec.ofNat 4 (v % 8 + 8) := by
    have more : v / 8 ≠ 0 := by omega
    simp [unitNibble, more]
  rw [unitOf, unitLength_of_le h, List.range_succ_eq_map, List.map_cons, List.map_map, first, unitOf]
  exact congrArg (_ :: ·) (List.map_congr_left fun k _ => unitNibble_succ v k)

theorem getLsbD_three_ofNat {x : Nat} (h : x < 16) : (BitVec.ofNat 4 x).getLsbD 3 = decide (8 ≤ x) := by
  interval_cases x <;> rfl

theorem isUnit_unitOf (v : Nat) : isUnit (unitOf v) = true := by
  induction v using Nat.strongRecOn with
  | ind v ih =>
    rcases Nat.lt_or_ge v 8 with h | h
    · rw [unitOf_of_lt h, isUnit, getLsbD_three_ofNat (by omega)]
      simpa using h
    · have rest := ih (v / 8) (by omega)
      have ne : unitOf (v / 8) ≠ [] := by
        intro empty
        rw [empty] at rest
        cases rest
      rw [unitOf_of_le h, isUnit_cons ne, rest, getLsbD_three_ofNat (by omega)]
      simp

/-- R87, R132: the minimal unit of a value codes it. -/
theorem unitValue_unitOf (v : Nat) : unitValue (unitOf v) = v := by
  induction v using Nat.strongRecOn with
  | ind v ih =>
    rcases Nat.lt_or_ge v 8 with h | h
    · rw [unitOf_of_lt h, unitValue, unitValue, BitVec.toNat_ofNat]
      omega
    · rw [unitOf_of_le h, unitValue, ih (v / 8) (by omega), BitVec.toNat_ofNat]
      omega

theorem length_unitOf (v : Nat) : (unitOf v).length = unitLength v := by
  rw [unitOf, List.length_map, List.length_range]

/-- R138: values below 2^30 have a unit of at most ten nibbles. -/
theorem isShortUnit_unitOf {v : Nat} (h : v < 2 ^ 30) : isShortUnit (unitOf v) = true := by
  refine isShortUnit_iff.mpr ⟨isUnit_unitOf v, ?_⟩
  rw [length_unitOf, unitLength]
  split
  · decide
  next nonzero =>
    have := (Nat.log2_lt nonzero).mpr h
    omega

/-! ### The groups of a canonical stream -/

/-- R91: the leading zeros of the samples still to be coded. -/
def zerosOf (xs : List Sample) : List Sample := xs.takeWhile (· == 0)

/-- R91: the nonzero-run after them. -/
def nonzerosOf (xs : List Sample) : List Sample := (xs.dropWhile (· == 0)).takeWhile (· != 0)

/-- R91: the samples after the first group. -/
def restOf (xs : List Sample) : List Sample := (xs.dropWhile (· == 0)).dropWhile (· != 0)

theorem length_group_add_rest (xs : List Sample) :
    (zerosOf xs).length + (nonzerosOf xs).length + (restOf xs).length = xs.length := by
  rw [Nat.add_assoc, nonzerosOf, restOf, ← List.length_append, List.takeWhile_append_dropWhile, zerosOf,
    ← List.length_append, List.takeWhile_append_dropWhile]

/-- R92 (b): a group of a canonical stream covers a sample. -/
theorem length_group_pos (x : Sample) (xs : List Sample) :
    0 < (zerosOf (x :: xs)).length + (nonzerosOf (x :: xs)).length := by
  by_cases hx : x = 0
  · simp [zerosOf, hx]
  · have zero : (x == 0) = false := by simpa using hx
    have nonzero : (x != 0) = true := by simpa using hx
    rw [nonzerosOf, List.dropWhile_cons, zero, if_neg (by decide), List.takeWhile_cons, if_pos nonzero]
    simp

/-- R91, R150: the value units of a nonzero-run, one by one. -/
def canonicalValues : Sample → List Sample → List (List Nibble)
  | _, [] => []
  | prev, x :: xs => unitOf (zigzagInt (x.toInt - prev.toInt)) :: canonicalValues x xs

theorem flatten_canonicalValues (prev : Sample) (xs : List Sample) :
    (canonicalValues prev xs).flatten = valueUnits prev xs := by
  induction xs generalizing prev with
  | nil => rfl
  | cons x xs ih => rw [canonicalValues, List.flatten_cons, ih, valueUnits]

theorem length_canonicalValues (prev : Sample) (xs : List Sample) : (canonicalValues prev xs).length = xs.length := by
  induction xs generalizing prev with
  | nil => rfl
  | cons x xs ih => rw [canonicalValues, List.length_cons, ih, List.length_cons]

/-- R150, R160: the zigzag value of a delta has 17 bits. -/
theorem zigzagInt_delta_lt (x prev : Sample) : zigzagInt (x.toInt - prev.toInt) < 2 ^ 30 := by
  have := x.toInt_lt
  have := x.le_toInt
  have := prev.toInt_lt
  have := prev.le_toInt
  rw [zigzagInt]
  split <;> omega

theorem isShortUnit_canonicalValues (prev : Sample) (xs : List Sample) :
    ∀ v ∈ canonicalValues prev xs, isShortUnit v = true := by
  induction xs generalizing prev with
  | nil => exact fun _ hv => absurd hv List.not_mem_nil
  | cons x xs ih => exact List.forall_mem_cons.mpr ⟨isShortUnit_unitOf (zigzagInt_delta_lt x prev), ih x⟩

/-- R91, R92: the first group of the canonical stream of `xs`. -/
def canonicalGroup (prev : Sample) (xs : List Sample) : Group where
  zeros := unitOf (zerosOf xs).length
  nonzeros := unitOf (nonzerosOf xs).length
  values := canonicalValues prev (nonzerosOf xs)

theorem size_canonicalGroup (prev : Sample) (xs : List Sample) :
    (canonicalGroup prev xs).size = (zerosOf xs).length + (nonzerosOf xs).length := by
  rw [Group.size, canonicalGroup, unitValue_unitOf, length_canonicalValues]

theorem legal_canonicalGroup (prev : Sample) {xs : List Sample} (h : xs.length < 2 ^ 30) :
    (canonicalGroup prev xs).legal = true := by
  have := length_group_add_rest xs
  refine legal_iff.mpr ⟨isShortUnit_unitOf (by omega), isShortUnit_unitOf (by omega),
    isShortUnit_canonicalValues prev _, ?_⟩
  rw [canonicalGroup, unitValue_unitOf, length_canonicalValues]

theorem streamGroups_cons (fuel : Nat) (prev x : Sample) (xs : List Sample) :
    streamGroups (fuel + 1) prev (x :: xs) =
      (canonicalGroup prev (x :: xs)).nibbles ++
        streamGroups fuel ((nonzerosOf (x :: xs)).getLastD prev) (restOf (x :: xs)) := by
  rw [Group.nibbles, canonicalGroup, flatten_canonicalValues]
  rfl

/-- R91, R92: a canonical stream is legal groups, each of at least one sample, that cover the samples. -/
theorem exists_groups_streamGroups {fuel : Nat} (prev : Sample) {xs : List Sample} (hfuel : xs.length ≤ fuel)
    (hlen : xs.length < 2 ^ 30) :
    ∃ gs : List Group, streamGroups fuel prev xs = gs.flatMap Group.nibbles ∧ (∀ g ∈ gs, g.legal = true) ∧
      (∀ g ∈ gs, 0 < g.size) ∧ (gs.map Group.size).sum = xs.length := by
  induction fuel generalizing prev xs with
  | zero =>
    obtain rfl := List.length_eq_zero_iff.mp (Nat.le_zero.mp hfuel)
    exact ⟨[], rfl, nofun, nofun, rfl⟩
  | succ fuel ih =>
    cases xs with
    | nil => exact ⟨[], rfl, nofun, nofun, rfl⟩
    | cons x xs =>
      have total := length_group_add_rest (x :: xs)
      have pos := length_group_pos x xs
      obtain ⟨gs, stream, legal, sizes, sum⟩ :=
        ih ((nonzerosOf (x :: xs)).getLastD prev) (xs := restOf (x :: xs)) (by omega) (by omega)
      refine ⟨canonicalGroup prev (x :: xs) :: gs, ?_, ?_, ?_, ?_⟩
      · rw [streamGroups_cons, stream, List.flatMap_cons]
      · exact List.forall_mem_cons.mpr ⟨legal_canonicalGroup prev hlen, legal⟩
      · exact List.forall_mem_cons.mpr ⟨by rwa [size_canonicalGroup], sizes⟩
      · rw [List.map_cons, List.sum_cons, sum, size_canonicalGroup, total]

/-! ### Streams cut short -/

/-- R83: a unit cut short is continuing nibbles. -/
theorem allContinue_take {ns : List Nibble} (h : isUnit ns = true) {m : Nat} (hm : m < ns.length) :
    allContinue (ns.take m) := by
  obtain ⟨cs, n, rfl, hcs, -⟩ := isUnit_iff.mp h
  rw [List.length_append, List.length_singleton] at hm
  rw [List.take_append_of_le_length (by omega)]
  exact fun c hc => hcs c (List.mem_of_mem_take hc)

/-- Units cut short are whole units, not all of them, and continuing nibbles. -/
theorem exists_cut_units {us : List (List Nibble)} (hus : ∀ u ∈ us, isShortUnit u = true) {m : Nat}
    (hm : m < us.flatten.length) :
    ∃ j cs, j < us.length ∧ us.flatten.take m = (us.take j).flatten ++ cs ∧ allContinue cs ∧ cs.length < 10 := by
  induction us generalizing m with
  | nil => cases hm
  | cons u us ih =>
    obtain ⟨hu, hus⟩ := List.forall_mem_cons.mp hus
    rw [List.flatten_cons] at hm ⊢
    rcases Nat.lt_or_ge m u.length with inside | past
    · obtain ⟨unit, short⟩ := isShortUnit_iff.mp hu
      refine ⟨0, u.take m, Nat.succ_pos _, ?_, allContinue_take unit inside, ?_⟩
      · rw [List.take_append_of_le_length inside.le]
        rfl
      · rw [List.length_take]
        omega
    · rw [List.length_append] at hm
      obtain ⟨j, cs, hj, cut, hcs, hlen⟩ := ih hus (m := m - u.length) (by omega)
      refine ⟨j + 1, cs, Nat.succ_lt_succ hj, ?_, hcs, hlen⟩
      rw [List.take_append, List.take_of_length_le past, cut, List.take_succ_cons, List.flatten_cons, List.append_assoc]

/-- R91: the units of a group, in stream order. -/
def Group.units (g : Group) : List (List Nibble) := g.zeros :: g.nonzeros :: g.values

theorem Group.nibbles_eq_flatten (g : Group) : g.nibbles = g.units.flatten := by
  rw [Group.nibbles, Group.units, List.flatten_cons, List.flatten_cons, List.append_assoc]

theorem isShortUnit_of_mem_units {g : Group} (h : g.legal = true) : ∀ u ∈ g.units, isShortUnit u = true := by
  obtain ⟨hz, hk, hvs, -⟩ := legal_iff.mp h
  exact List.forall_mem_cons.mpr ⟨hz, List.forall_mem_cons.mpr ⟨hk, hvs⟩⟩

/-- R190: a group goes on after a zero-run length that fits. -/
theorem groupGoesOn_zeros {left : Nat} {z : List Nibble} :
    groupGoesOn left [z] = true ↔ isShortUnit z = true ∧ unitValue z ≤ left := by
  simp [groupGoesOn]

/-- R190, R191: a group goes on after run lengths that fit and fewer values than the second says. -/
theorem groupGoesOn_values {left : Nat} {z k : List Nibble} {vs : List (List Nibble)} :
    groupGoesOn left (z :: k :: vs) = true ↔
      isShortUnit z = true ∧ isShortUnit k = true ∧ (∀ v ∈ vs, isShortUnit v = true) ∧
        unitValue z + unitValue k ≤ left ∧ vs.length < unitValue k := by
  simp [groupGoesOn, and_assoc]

/-- R190, R191: a legal group that fits goes on after any of its units but the last. -/
theorem groupGoesOn_take {g : Group} (h : g.legal = true) {left j : Nat} (hfit : g.size ≤ left)
    (hj : j < g.units.length) : groupGoesOn left (g.units.take j) = true := by
  obtain ⟨hz, hk, hvs, hlen⟩ := legal_iff.mp h
  rw [Group.size] at hfit
  rw [Group.units] at hj ⊢
  match j with
  | 0 => rfl
  | 1 => exact groupGoesOn_zeros.mpr ⟨hz, by omega⟩
  | j + 2 =>
    rw [List.length_cons, List.length_cons] at hj
    have short : (g.values.take j).length < unitValue g.nonzeros := by
      rw [List.length_take]
      omega
    exact groupGoesOn_values.mpr ⟨hz, hk, fun v hv => hvs v (List.mem_of_mem_take hv), by omega, short⟩

/-- Legal groups cut short are whole groups, whole units of a group that goes on, and continuing nibbles. -/
theorem exists_cut_groups {gs : List Group} (hgs : ∀ g ∈ gs, g.legal = true) (hpos : ∀ g ∈ gs, 0 < g.size) {m : Nat}
    (hm : m < (gs.flatMap Group.nibbles).length) :
    ∃ (whole : List Group) (us : List (List Nibble)) (left : Nat) (cs : List Nibble),
      (gs.flatMap Group.nibbles).take m = whole.flatMap Group.nibbles ++ us.flatten ++ cs ∧
      (∀ g ∈ whole, g.legal = true) ∧ (whole.map Group.size).sum + left = (gs.map Group.size).sum ∧ 0 < left ∧
      groupGoesOn left us = true ∧ allContinue cs ∧ cs.length < 10 := by
  induction gs generalizing m with
  | nil => cases hm
  | cons g gs ih =>
    obtain ⟨hg, hgs⟩ := List.forall_mem_cons.mp hgs
    obtain ⟨pos, hpos⟩ := List.forall_mem_cons.mp hpos
    rw [List.flatMap_cons] at hm ⊢
    rw [List.map_cons, List.sum_cons]
    rcases Nat.lt_or_ge m g.nibbles.length with inside | past
    · rw [List.take_append_of_le_length inside.le]
      rw [g.nibbles_eq_flatten] at inside ⊢
      obtain ⟨j, cs, hj, cut, hcs, hlen⟩ := exists_cut_units (isShortUnit_of_mem_units hg) inside
      exact ⟨[], g.units.take j, _, cs, cut, nofun, Nat.zero_add _, Nat.add_pos_left pos _,
        groupGoesOn_take hg (Nat.le_add_right _ _) hj, hcs, hlen⟩
    · rw [List.length_append] at hm
      obtain ⟨whole, us, left, cs, cut, legal, sum, hleft, goes, hcs, hlen⟩ :=
        ih hgs hpos (m := m - g.nibbles.length) (by omega)
      refine ⟨g :: whole, us, left, cs, ?_, List.forall_mem_cons.mpr ⟨hg, legal⟩, ?_, hleft, goes, hcs, hlen⟩
      · rw [List.take_append, List.take_of_length_le past, cut, List.flatMap_cons, List.append_assoc, List.append_assoc,
          List.append_assoc]
      · rw [List.map_cons, List.sum_cons, Nat.add_assoc, sum]

end Sys2Proof.Machine

end

section
/-! PROOFS. The faults of DECOMPRESS: where the groups stop, the group raises what its next unit or its run length raises
(R94, R190, R191, R222), and DECOMPRESS takes that fault. -/

open Sys2Proof Sys2Proof.Machine

namespace Sys2Proof.Machine

variable {s t : State}

/-! ### A group that stops -/

/-- R190, R191, R200: after whole units of a group that goes on, the group raises what parsing its next unit raises. -/
theorem decodeGroup_stops {us : List (List Nibble)} (hs : s.Decoding) (goes : groupGoesOn s.d.rem.toNat us = true)
    (h : s.Ahead us.flatten) :
    ∃ t, Reads us.flatten.length s t ∧
      ∀ f info, decodeVle t = .raised f info → decodeGroup s = .raised f info := by
  match us with
  | [] =>
    refine ⟨s, .refl hs.1, fun f info raised => ?_⟩
    rw [decodeGroup_eq, raised, Run.bind_raised]
  | [z] =>
    obtain ⟨hz, hfit⟩ := groupGoesOn_zeros.mp goes
    rw [List.flatten_singleton] at h ⊢
    obtain ⟨t, ht, -, zeros⟩ := decodeGroup_of_zeros hs hz h hfit
    refine ⟨t, ht.toReads, fun f info raised => ?_⟩
    rw [zeros, decodeNonzeros, raised, Run.bind_raised]
  | z :: k :: vs =>
    obtain ⟨hz, hk, hvs, hfit, hlen⟩ := groupGoesOn_values.mp goes
    rw [List.flatten_cons, List.flatten_cons, ← List.append_assoc] at h ⊢
    obtain ⟨t, ht, -, values⟩ := decodeGroup_of_units hs hz hk hvs h hfit hlen.le
    refine ⟨t, ht.toReads, fun f info raised => ?_⟩
    obtain ⟨n, hn⟩ := Nat.exists_eq_add_of_lt hlen
    rw [values, show unitValue k - vs.length = n + 1 by omega, decodeValues, decodeValue, raised, Run.bind_raised,
      Run.bind_raised]

/-- R190: a zero-run length above the samples left. -/
theorem decodeGroup_zeros_overrun {z : List Nibble} (hs : s.d.cnt.toNat ≤ 7) (hz : isShortUnit z = true) (h : s.Ahead z)
    (hover : s.d.rem.toNat < unitValue z) :
    decodeGroup s = .raised .runOverrun (BitVec.ofNat 32 (unitValue z)) := by
  obtain ⟨t, parsed, ht, -⟩ := decodeVle_decodes hs hz h
  have rem := ht.advances.rem
  have exceeds : t.d.rem < BitVec.ofNat 32 (unitValue z) := by
    rw [BitVec.lt_def, toNat_unitValue hz]
    omega
  rw [decodeGroup_eq, parsed, Run.bind_done, writeZeroRun_eq_raised.mpr ⟨exceeds, rfl, rfl⟩, Run.bind_raised]

/-- R191: a nonzero-run length above the samples left after the zero-run. -/
theorem decodeGroup_nonzeros_overrun {z k : List Nibble} (hs : s.Decoding) (hz : isShortUnit z = true)
    (hk : isShortUnit k = true) (h : s.Ahead (z ++ k)) (hfit : unitValue z ≤ s.d.rem.toNat)
    (hover : s.d.rem.toNat < unitValue z + unitValue k) :
    decodeGroup s = .raised .runOverrun (BitVec.ofNat 32 (unitValue k)) := by
  obtain ⟨t, ht, -, zeros⟩ := decodeGroup_of_zeros hs hz h.left hfit
  obtain ⟨u, parsed, hu, -⟩ := decodeVle_decodes ht.cnt hk (h.of_shift ht.next)
  have rem := (ht.trans hu).advances.rem
  have exceeds : u.d.rem < BitVec.ofNat 32 (unitValue k) := by
    rw [BitVec.lt_def, toNat_unitValue hk]
    omega
  rw [zeros, decodeNonzeros, parsed, Run.bind_done, accountNonzeroRun_eq_raised.mpr ⟨exceeds, rfl, rfl⟩,
    Run.bind_raised]

/-! ### DECOMPRESS takes the fault -/

theorem exec_decompress_raises {f : FaultCause} {info : Word} (hf : s.faulted = false)
    (hn : s.numPixels.toNat ≤ 2 ^ 30 - 1) (h : decompressStream s = .raised f info) :
    ∃ t, exec .decompress s = .next t ∧ FaultTaken .sSpace f info s t := by
  refine ⟨_, ?_, takeFault_faultTaken .sSpace f info s⟩
  rw [exec_decompress]
  exact issue_next_of_raised hf (streamStartRefusal_none.mpr (numPixels_le_max hn)) (by rw [h, Run.bind_raised])

/-- R200: DECOMPRESS decodes the legal groups the input begins with, and then raises what its next group raises. -/
theorem decompressStream_of_groups {gs : List Group} {left : Nat} {ns : List Nibble} (hgs : ∀ g ∈ gs, g.legal = true)
    (hsum : (gs.map Group.size).sum + left = s.numPixels.toNat) (hleft : 0 < left)
    (hin : s.inputBegins (gs.flatMap Group.nibbles ++ ns)) :
    ∃ t, Reads (gs.flatMap Group.nibbles).length (decompressStart s) t ∧ t.Decoding ∧ t.Ahead ns ∧
      t.d.rem.toNat = left ∧ ∀ f info, decodeGroup t = .raised f info → decompressStream s = .raised f info := by
  have ahead := ahead_decompressStart hin
  obtain ⟨t, ht, decoding, -, rest⟩ := decodeGroups_of_legal (decompressStart_decoding s) hgs ahead.left hsum
    (fun g _ => Nat.add_pos_right _ hleft)
  have rem : t.d.rem.toNat = left := by
    have : t.d.rem.toNat + _ = s.numPixels.toNat := ht.advances.rem
    omega
  have bound := hin.1
  rw [List.length_append] at bound
  have enough := length_le_inLen (s := s) hgs (by omega)
  refine ⟨t, ht.toReads, decoding, ahead.of_shift ht.next, rem, fun f info raised => ?_⟩
  rw [decompressStream, show s.inLen.toNat + 1 = gs.length + (s.inLen.toNat - gs.length + 1) by omega, rest,
    decodeGroups, if_pos, raised, Run.bind_raised]
  rw [gt_iff_lt, BitVec.lt_def, rem]
  exact hleft

/-- R200: after legal groups and whole units of one that goes on, DECOMPRESS raises what parsing the next unit raises. -/
theorem decompressStream_of_units {gs : List Group} {us : List (List Nibble)} {left : Nat} {cs : List Nibble}
    (hgs : ∀ g ∈ gs, g.legal = true) (hsum : (gs.map Group.size).sum + left = s.numPixels.toNat) (hleft : 0 < left)
    (goes : groupGoesOn left us = true) (hin : s.inputBegins (gs.flatMap Group.nibbles ++ us.flatten ++ cs)) :
    ∃ t, Reads (gs.flatMap Group.nibbles ++ us.flatten).length (decompressStart s) t ∧ t.Ahead cs ∧
      ∀ f info, decodeVle t = .raised f info → decompressStream s = .raised f info := by
  rw [List.append_assoc] at hin
  obtain ⟨t, ht, decoding, ahead, rem, raises⟩ := decompressStream_of_groups hgs hsum hleft hin
  obtain ⟨u, hu, stops⟩ := decodeGroup_stops decoding (by rwa [rem]) ahead.left
  rw [List.length_append]
  exact ⟨u, ht.trans hu, ahead.of_shift hu.next, fun f info raised => raises f info (stops f info raised)⟩

/-- R42: the words read for the first `m` nibbles of the input. -/
theorem Reads.rp_of_start {m : Nat} (h : Reads m (decompressStart s) t) : t.d.rp = BitVec.ofNat 32 ((m + 7) / 8) :=
  (h.counters rfl rfl).1

section Raises

variable {gs : List Group} {us : List (List Nibble)} {left : Nat} {cs : List Nibble} (hf : s.faulted = false)
  (hn : s.numPixels.toNat ≤ 2 ^ 30 - 1) (hgs : ∀ g ∈ gs, g.legal = true)
  (hsum : (gs.map Group.size).sum + left = s.numPixels.toNat) (hleft : 0 < left)

include hf hn hgs hsum hleft

/-- R224: the input ends before the unit does. -/
theorem decompress_truncated (goes : groupGoesOn left us = true) (hcs : allContinue cs)
    (hin : s.inputBegins (gs.flatMap Group.nibbles ++ us.flatten ++ cs)) (hlen : cs.length < 10)
    (hend : (gs.flatMap Group.nibbles ++ us.flatten ++ cs).length = 8 * (s.inLen.toNat / 4)) :
    ∃ t, exec .decompress s = .next t ∧
      FaultTaken .sSpace .truncatedInput (BitVec.ofNat 32 (s.inLen.toNat / 4)) s t := by
  obtain ⟨t, ht, ahead, raises⟩ := decompressStream_of_units hgs hsum hleft goes hin
  have taken := ht.trans (taking_reads ht.cnt ahead)
  rw [List.length_append] at hend
  rw [hend] at taken
  have ended : t.nextNibble cs.length = none := by
    rw [ht.next, hend, nextNibble_fresh (s := decompressStart s) rfl rfl]
    exact if_neg (Nat.lt_irrefl _)
  have raised := raises _ _ (decodeVle_truncated ht.cnt hcs ahead hlen ended)
  rw [taken.rp_of_start, show (8 * (s.inLen.toNat / 4) + 7) / 8 = s.inLen.toNat / 4 by omega] at raised
  exact exec_decompress_raises hf hn raised

/-- R134, R232: ten nibbles of the unit continue. -/
theorem decompress_overlong (goes : groupGoesOn left us = true) (hcs : allContinue cs)
    (hin : s.inputBegins (gs.flatMap Group.nibbles ++ us.flatten ++ cs)) (hlen : cs.length = 10) :
    ∃ t, exec .decompress s = .next t ∧
      FaultTaken .sSpace .vleOverlong
        (BitVec.ofNat 32 (((gs.flatMap Group.nibbles ++ us.flatten ++ cs).length + 7) / 8)) s t := by
  obtain ⟨t, ht, ahead, raises⟩ := decompressStream_of_units hgs hsum hleft goes hin
  have taken := ht.trans (taking_reads ht.cnt ahead)
  have raised := raises _ _ (decodeVle_overlong ht.cnt hcs ahead hlen)
  rw [taken.rp_of_start, ← List.length_append] at raised
  exact exec_decompress_raises hf hn raised

/-- R225, R190: the zero-run length of the next group exceeds the samples left. -/
theorem decompress_zeros_overrun {u : List Nibble} (hu : isShortUnit u = true)
    (hin : s.inputBegins (gs.flatMap Group.nibbles ++ u)) (hover : left < unitValue u) :
    ∃ t, exec .decompress s = .next t ∧ FaultTaken .sSpace .runOverrun (BitVec.ofNat 32 (unitValue u)) s t := by
  obtain ⟨t, ht, -, ahead, rem, raises⟩ := decompressStream_of_groups hgs hsum hleft hin
  exact exec_decompress_raises hf hn (raises _ _ (decodeGroup_zeros_overrun ht.cnt hu ahead (by rwa [rem])))

/-- R225, R191: the nonzero-run length of the next group exceeds the samples its zero-run leaves. -/
theorem decompress_nonzeros_overrun {z u : List Nibble} (goes : groupGoesOn left [z] = true) (hu : isShortUnit u = true)
    (hin : s.inputBegins (gs.flatMap Group.nibbles ++ (z ++ u))) (hover : left < unitValue z + unitValue u) :
    ∃ t, exec .decompress s = .next t ∧ FaultTaken .sSpace .runOverrun (BitVec.ofNat 32 (unitValue u)) s t := by
  obtain ⟨hz, hfit⟩ := groupGoesOn_zeros.mp goes
  obtain ⟨t, -, decoding, ahead, rem, raises⟩ := decompressStream_of_groups hgs hsum hleft hin
  exact exec_decompress_raises hf hn
    (raises _ _ (decodeGroup_nonzeros_overrun decoding hz hu ahead (by rwa [rem]) (by rwa [rem])))

end Raises

/-- R224: a canonical stream cut short at the last whole word of the input. -/
theorem decompress_cut_canonical {xs : List Sample} (hf : s.faulted = false) (hn : s.numPixels.toNat ≤ 2 ^ 30 - 1)
    (hxs : xs.length = s.numPixels.toNat) (hshort : s.inLen.toNat < streamBytes (streamOf xs).length)
    (hin : s.inputBegins ((streamOf xs).take (8 * (s.inLen.toNat / 4)))) :
    ∃ t, exec .decompress s = .next t ∧
      FaultTaken .sSpace .truncatedInput (BitVec.ofNat 32 (s.inLen.toNat / 4)) s t := by
  obtain ⟨gs, stream, hgs, hpos, hsum⟩ := exists_groups_streamGroups 0 (xs := xs) le_rfl (by omega)
  rw [streamOf, stream] at hshort hin
  have cutLength : 8 * (s.inLen.toNat / 4) < (gs.flatMap Group.nibbles).length := by
    rw [streamBytes] at hshort
    omega
  obtain ⟨whole, us, left, cs, cut, hwhole, sum, hleft, goes, hcs, hlen⟩ := exists_cut_groups hgs hpos cutLength
  have hend := congrArg List.length cut
  rw [List.length_take_of_le cutLength.le] at hend
  rw [cut] at hin
  exact decompress_truncated hf hn hwhole (by rw [sum, hsum, hxs]) hleft goes hcs hin hlen hend.symm

end Sys2Proof.Machine

/-- Settles O60: each fault is raised by the unit or the run length at which the groups stop; a canonical stream cut short
stops inside a unit, or between two. -/
theorem decompressRaisesEachFault : Obligations.DecompressRaisesEachFault := by
  refine ⟨?_, fun s xs hf hn hxs hshort hin => decompress_cut_canonical hf hn hxs hshort hin⟩
  rintro s gs us left ns hf hn hgs hsum hleft goes rfl
  refine ⟨fun cs hcs hin => ⟨fun hlen hend => ?_, fun hlen => ?_⟩, fun u hu hin hover => ?_⟩
  · exact decompress_truncated hf hn hgs hsum hleft goes hcs hin hlen hend
  · exact decompress_overlong hf hn hgs hsum hleft goes hcs hin hlen
  · rcases hover with ⟨rfl, hover⟩ | ⟨z, rfl, hover⟩
    · rw [List.flatten_nil, List.append_nil] at hin
      exact decompress_zeros_overrun hf hn hgs hsum hleft hu hin hover
    · rw [List.flatten_singleton, List.append_assoc] at hin
      exact decompress_nonzeros_overrun hf hn hgs hsum hleft goes hu hin hover

end

section
/-! PROOFS. The packer: the accumulator and a whole word as lists of nibbles, what the emission of one nibble does to
the stream the packer holds (`Emits`), and the packer law (R112, R117). -/

open Sys2Proof Sys2Proof.Machine

namespace Sys2Proof.Machine

variable {s t u : State}

/-! ### Nibbles of an accumulator -/

/-- The `c` low nibbles of `w`, the highest first (R43). -/
def lowNibbles (c w : Nat) : List Nibble := (List.range c).map fun i => BitVec.ofNat 4 (w / 16 ^ (c - 1 - i))

theorem pending_eq_lowNibbles (s : State) : s.pending = lowNibbles s.e.cnt.toNat s.e.word.toNat := rfl

@[simp] theorem length_lowNibbles (c w : Nat) : (lowNibbles c w).length = c := by simp [lowNibbles]

theorem length_pending (s : State) : s.pending.length = s.e.cnt.toNat := length_lowNibbles _ _

/-- R112: shifting a nibble in appends it. -/
theorem lowNibbles_append (c w : Nat) (n : Nibble) : lowNibbles (c + 1) (16 * w + n.toNat) = lowNibbles c w ++ [n] := by
  have hn := n.isLt
  have last : BitVec.ofNat 4 (16 * w + n.toNat) = n := by bv_omega
  have older : ∀ i ∈ List.range c,
      BitVec.ofNat 4 ((16 * w + n.toNat) / 16 ^ (c - i)) = BitVec.ofNat 4 (w / 16 ^ (c - 1 - i)) := by
    intro i hi
    rw [show c - i = c - 1 - i + 1 by have := List.mem_range.mp hi; omega, Nat.pow_succ', ← Nat.div_div_eq_div_mul,
      show (16 * w + n.toNat) / 16 = w by omega]
  simp only [lowNibbles, List.range_succ, List.map_append, List.map_singleton, Nat.add_sub_cancel, Nat.sub_self,
    Nat.pow_zero, Nat.div_one, last, List.map_congr_left older]

/-- R82: the nibbles of a word in stream order are all its nibbles, the highest first. -/
theorem nibbleOf_eq_getD (w : Word) {j : Nat} (h : j < 8) : nibbleOf w j = (lowNibbles 8 w.toNat).getD j 0 := by
  have place : (2 : Nat) ^ (28 - 4 * j) = 16 ^ (7 - j) := by
    rw [show 28 - 4 * j = 4 * (7 - j) by omega, Nat.pow_mul]
  apply BitVec.eq_of_toNat_eq
  simp [nibbleOf, lowNibbles, h, Nat.shiftRight_eq_div_pow, place]

/-- R112: the accumulator after one more nibble. -/
theorem lowNibbles_shiftIn (hs : s.encoderSound) (n : Nibble) :
    lowNibbles (s.e.cnt.toNat + 1) ((s.e.word <<< 4) ||| n.setWidth 32).toNat = s.pending ++ [n] := by
  obtain ⟨hcnt, hword, -⟩ := hs
  rw [toNat_appendNibble n (hword.trans_le (Nat.pow_le_pow_right (by omega) hcnt)), lowNibbles_append]
  rfl

/-! ### Nibbles of E-space -/

theorem Memory.readWord_congr {m m' : Memory 8} (en : Endian) {a : Nat}
    (h : ∀ b, a ≤ b → b < a + 4 → m.read b = m'.read b) : m.readWord en a = m'.readWord en a := by
  simp only [Memory.readWord]
  rw [h a (by omega) (by omega), h (a + 1) (by omega) (by omega), h (a + 2) (by omega) (by omega),
    h (a + 3) (by omega) (by omega)]

theorem eNibble_eq_nibbleOf (s : State) (p : Nat) {i : Nat} (h : i < 8) :
    s.eNibble (8 * p + i) = nibbleOf (s.eSpace.readWord s.endian (4 * p)) i := by
  rw [State.eNibble, show (8 * p + i) / 8 = p by omega, show (8 * p + i) % 8 = i by omega]

/-! ### What emitting does -/

theorem roomFor_of_le {m n : Nat} (h : s.roomFor n) (hle : m ≤ n) : s.roomFor m := by
  intro full
  have := h (by omega)
  omega

namespace Emits

variable {ns ms : List Nibble}

theorem endian (h : Emits s ns t) : t.endian = s.endian := by rw [h.rest]

theorem outCap (h : Emits s ns t) : t.outCap = s.outCap := by rw [h.rest]

/-- R112: the words written are the whole eights of the pending nibbles and those emitted. -/
theorem wp_eq (h : Emits s ns t) : t.e.wp.toNat = s.e.wp.toNat + (s.e.cnt.toNat + ns.length) / 8 := by
  rw [h.wp, List.length_append, length_pending]

/-- R112: the nibbles left pending. -/
theorem cnt_eq (h : Emits s ns t) : t.e.cnt.toNat = (s.e.cnt.toNat + ns.length) % 8 := by
  rw [← length_pending, h.pending, List.length_drop, List.length_append, length_pending]
  omega

theorem roomFor (h : Emits s ns t) {m : Nat} (hr : s.roomFor (ns.length + m)) : t.roomFor m := by
  intro full
  have wp := h.wp_eq
  have cnt := h.cnt_eq
  have room := hr (by omega)
  rw [h.outCap]
  omega

/-- Nothing emitted. -/
theorem refl (hs : s.encoderSound) (hm : Memory.wf s.eSpace = true) : Emits s [] s := by
  obtain ⟨hcnt, hword, -⟩ := hs
  have whole : (s.pending ++ []).length / 8 = 0 := by
    rw [List.append_nil, length_pending]
    omega
  exact
    { pending := by rw [whole, Nat.mul_zero, List.drop_zero, List.append_nil]
      bound := ⟨hcnt, hword⟩
      wp := by rw [whole, Nat.add_zero]
      words := fun i hi => by omega
      others := fun _ _ => rfl
      canonical := hm
      rest := rfl }

/-- Emission by emission: what the second one writes begins where the words of the first one end. -/
theorem trans (h : Emits s ns t) (k : Emits t ms u) : Emits s (ns ++ ms) u := by
  have all : (s.pending ++ (ns ++ ms)).drop (8 * ((s.pending ++ ns).length / 8)) = t.pending ++ ms := by
    rw [h.pending, ← List.append_assoc, List.drop_append_of_le_length (by omega)]
  have count : 8 * ((s.pending ++ ns).length / 8) + 8 * ((t.pending ++ ms).length / 8) =
      8 * ((s.pending ++ (ns ++ ms)).length / 8) := by
    rw [← all, List.length_drop]
    simp only [List.length_append]
    omega
  have wp := h.wp
  have wp' := k.wp
  exact
    { pending := by rw [k.pending, ← all, List.drop_drop, all, count]
      bound := k.bound
      wp := by omega
      words := fun i hi => by
        rcases Nat.lt_or_ge i (8 * ((s.pending ++ ns).length / 8)) with early | late
        · have kept : u.eNibble (8 * s.e.wp.toNat + i) = t.eNibble (8 * s.e.wp.toNat + i) := by
            rw [State.eNibble, State.eNibble, k.endian,
              Memory.readWord_congr _ fun b _ _ => k.others b (.inl (by omega))]
          rw [kept, h.words i early, ← List.append_assoc, List.getD_append (s.pending ++ ns) ms 0 i (by omega)]
        · obtain ⟨j, rfl⟩ := Nat.exists_eq_add_of_le late
          rw [← Nat.add_assoc, ← Nat.mul_add, ← wp, k.words j (by omega), ← all]
          simp [List.getD_eq_getElem?_getD]
      others := fun a ha => by rw [k.others a (by omega), h.others a (by omega)]
      canonical := k.canonical
      rest := by rw [k.rest, h.rest] }

end Emits

/-- R112: `EMITNIB` appends its nibble to the stream. -/
theorem emitNibble_emits {n : Nibble} (hs : s.encoderSound) (hm : Memory.wf s.eSpace = true) (hr : s.roomFor 1) :
    ∃ t, emitNibble n s = .done () t ∧ Emits s [n] t := by
  have shifted := lowNibbles_shiftIn hs n
  have length : (s.pending ++ [n]).length = s.e.cnt.toNat + 1 := by
    rw [List.length_append, length_pending, List.length_singleton]
  have hcnt := hs.1
  by_cases full : s.e.cnt + 1 = 8
  · have seven : s.e.cnt.toNat = 7 := by bv_omega
    have room : 4 * s.e.wp.toNat + 4 ≤ s.outCap.toNat := by have := hr (by omega); omega
    have one : (s.pending ++ [n]).length / 8 = 1 := by omega
    have wp : (s.e.wp + 1).toNat = s.e.wp.toNat + 1 := by have := s.outCap.isLt; bv_omega
    rw [seven] at shifted
    refine ⟨_, emitNibble_full full room, ?_⟩
    exact
      { pending := by rw [List.drop_eq_nil_of_le (by omega)]; rfl
        bound := ⟨Nat.zero_le _, Nat.one_pos⟩
        wp := by rw [one]; exact wp
        words := fun i hi => by
          rw [one] at hi
          rw [eNibble_eq_nibbleOf _ _ hi, Memory.readWord_writeWord hm, nibbleOf_eq_getD _ hi, shifted]
        others := fun a ha => Memory.read_writeWord_other _ _ _ (by simp only [wp] at ha; omega)
        canonical := Memory.wf_writeWord hm _ _ _
        rest := rfl }
  · have cnt : (s.e.cnt + 1).toNat = s.e.cnt.toNat + 1 := by bv_omega
    have noWord : (s.pending ++ [n]).length / 8 = 0 := by bv_omega
    have done := emitNibble_short (n := n) full
    obtain ⟨hcnt', hword', -⟩ := (emitNibble_frame done).sound hs
    refine ⟨_, done, ?_⟩
    exact
      { pending := by rw [noWord, Nat.mul_zero, List.drop_zero, ← shifted, pending_eq_lowNibbles, cnt]
        bound := ⟨hcnt', hword'⟩
        wp := by rw [noWord, Nat.add_zero]
        words := fun i hi => by omega
        others := fun _ _ => rfl
        canonical := hm
        rest := rfl }

/-- R117: emitting a list, nibble by nibble. -/
theorem emitAll_emits {ns : List Nibble} (hs : s.encoderSound) (hm : Memory.wf s.eSpace = true)
    (hr : s.roomFor ns.length) : ∃ t, emitAll ns s = .done () t ∧ Emits s ns t := by
  induction ns generalizing s with
  | nil => exact ⟨s, rfl, .refl hs hm⟩
  | cons n ns ih =>
    rw [List.length_cons, Nat.add_comm] at hr
    obtain ⟨t, ht, emitted⟩ := emitNibble_emits (n := n) hs hm (roomFor_of_le hr (Nat.le_add_right _ _))
    obtain ⟨u, hu, others⟩ := ih ((emitNibble_frame ht).sound hs) emitted.canonical (emitted.roomFor hr)
    exact ⟨u, by rw [emitAll, ht, Run.bind_done, hu], emitted.trans others⟩

end Sys2Proof.Machine

/-- Settles O21: by induction on the list, one emission after another. -/
theorem packerKeepsNibbleOrder : Obligations.PackerKeepsNibbleOrder := by
  intro s ns hm hs hr
  exact emitAll_emits hs hm.2 hr

end

section
/-! PROOFS. The packer and the unpacker issued by the host: ENCINIT, EMITNIB, FLUSH (R111 to R113) and DECINIT, TAKENIB
(R115, R116), each case of the body as the next state it leaves. -/

open Sys2Proof Sys2Proof.Machine

namespace Sys2Proof.Machine

variable {s : State}

/-! ### The start of a stream -/

/-- R214 (b): a stream is started where NUMPIXELS is in range, and refused above. -/
theorem issue_streamStart {t : State} {out : OutputRange} {b : State → Run Word} {r : Word} (hf : s.faulted = false)
    (hb : b s = .done r t) :
    (s.numPixels.toNat ≤ 2 ^ 30 - 1 → issue s out (streamStartRefusal s) b = .next (complete r t)) ∧
      (2 ^ 30 - 1 < s.numPixels.toNat → issue s out (streamStartRefusal s) b = .refused .numPixelsTooLarge) := by
  refine ⟨fun hn => issue_next_of_done hf (streamStartRefusal_none.mpr (numPixels_le_max hn)) hb, fun hn => ?_⟩
  have above : Config.numPixelsMax < s.numPixels := hn
  rw [streamStartRefusal_some above, issue_refused hf]

/-! ### The partial word -/

/-- R113: the pending nibbles moved to the top of the word. -/
theorem toNat_flushedWord (hs : s.encoderSound) :
    (flushedWord s.e).toNat = s.e.word.toNat * 16 ^ (8 - s.e.cnt.toNat) := by
  obtain ⟨hcnt, hword, -⟩ := hs
  have fits : s.e.word.toNat * 16 ^ (8 - s.e.cnt.toNat) < 2 ^ 32 := by
    calc s.e.word.toNat * 16 ^ (8 - s.e.cnt.toNat)
        < 16 ^ s.e.cnt.toNat * 16 ^ (8 - s.e.cnt.toNat) := Nat.mul_lt_mul_of_pos_right hword (by positivity)
      _ = 16 ^ 8 := by rw [← Nat.pow_add, Nat.add_sub_cancel' (by omega)]
      _ = 2 ^ 32 := rfl
  rw [flushedWord, BitVec.toNat_shiftLeft, Nat.shiftLeft_eq, Nat.pow_mul, Nat.mod_eq_of_lt fits]

end Sys2Proof.Machine

/-- Settles O17: the start of a stream, with the encoder context zeroed. -/
theorem encinitSeedsEncoder : Obligations.EncinitSeedsEncoder := by
  refine ⟨rfl, fun s hf => ?_⟩
  rw [exec_encinit]
  exact issue_streamStart (t := encInit s) (r := 0) hf rfl

/-- Settles O23: the start of a stream, with the decoder context zeroed but for `D.rem`. -/
theorem decinitSeedsDecoder : Obligations.DecinitSeedsDecoder := by
  refine ⟨rfl, fun s hf => ?_⟩
  rw [exec_decinit]
  exact issue_streamStart (t := decInit s) (r := 0) hf rfl

/-- Settles O18: the emission is short of the eighth nibble, or is the eighth with or without room. -/
theorem emitnibAppendsNibble : Obligations.EmitnibAppendsNibble := by
  refine ⟨rfl, fun s hf hm => ?_⟩
  have eighth : s.e.cnt + 1 = 8 ↔ s.e.cnt = 7 := by constructor <;> bv_omega
  rw [exec_emitnib, issue_run hf]
  refine ⟨fun short => ?_, fun seven room => ?_, fun seven noRoom => ?_⟩
  · rw [emitNibble_short (eighth.not.mpr short)]
    rfl
  · rw [emitNibble_full (eighth.mpr seven) room]
    exact ⟨_, rfl, rfl, Memory.readWord_writeWord hm.2 _ _ _, fun _ ha => Memory.read_writeWord_other _ _ _ ha⟩
  · rw [emitNibble_overflow (eighth.mpr seven) noRoom]
    exact ⟨_, rfl, takeFault_faultTaken _ _ _ s⟩

/-- Settles O19: nothing is pending, or there is room for the partial word, or there is none. -/
theorem flushEndsStream : Obligations.FlushEndsStream := by
  refine ⟨rfl, fun s hf hm hs => ?_⟩
  rw [exec_flush, issue_run hf]
  refine ⟨fun empty => ?_, fun pending room => ?_, fun pending noRoom => ?_⟩
  · rw [flushPacker_empty empty]
    rfl
  · rw [flushPacker_full pending room]
    have written := Memory.readWord_writeWord hm.2 s.endian (4 * s.e.wp.toNat) (flushedWord s.e)
    exact ⟨_, rfl, rfl, (congrArg BitVec.toNat written).trans (toNat_flushedWord hs),
      fun _ ha => Memory.read_writeWord_other _ _ _ ha⟩
  · rw [flushPacker_overflow pending noRoom]
    exact ⟨_, rfl, takeFault_faultTaken _ _ _ s⟩

/-- Settles O24: a nibble is pending, or the next word lies within IN_LEN, or it does not. -/
theorem takenibReturnsTopNibble : Obligations.TakenibReturnsTopNibble := by
  refine ⟨rfl, fun s hf => ?_⟩
  rw [exec_takenib, issue_run hf]
  refine ⟨fun pending => ?_, fun empty room => ?_, fun empty short => ?_⟩
  · rw [takeNibble_shift pending]
    rfl
  · rw [takeNibble_load empty room]
    rfl
  · rw [takeNibble_truncated empty short]
    exact ⟨_, rfl, takeFault_faultTaken _ _ _ s⟩

end

section
/-! PROOFS. The VLE encoder: ENCVLE emits the minimal unit of its operand (R130 to R132), and where an emission ends
that has no room for a word it completes (R222, R223). -/

open Sys2Proof Sys2Proof.Machine

namespace Sys2Proof.Machine

variable {s t : State}

/-! ### The encoder's loop as the minimal unit -/

theorem toNat_shiftRight_three (v : Word) : (v >>> 3).toNat = v.toNat / 8 := by
  rw [BitVec.toNat_ushiftRight, Nat.shiftRight_eq_div_pow]

/-- R130: the loop ends at the last group of three bits. -/
theorem shiftRight_three_eq_zero (v : Word) : v >>> 3 = 0 ↔ v.toNat < 8 := by
  rw [← BitVec.toNat_inj, toNat_shiftRight_three]
  exact Nat.div_eq_zero_iff_lt (by omega)

theorem toNat_lowPayload (v : Word) : (0#1 ++ v.extractLsb' 0 3 : Nibble).toNat = v.toNat % 8 := by
  refine (BitVec.toNat_append 0#1 (v.extractLsb' 0 3)).trans ?_
  simp

theorem vleNibble_of_lt {v : Word} (h : v.toNat < 8) : vleNibble v = BitVec.ofNat 4 v.toNat := by
  have last := (shiftRight_three_eq_zero v).mpr h
  apply BitVec.eq_of_toNat_eq
  rw [vleNibble, if_neg (not_not.mpr last), toNat_lowPayload, BitVec.toNat_ofNat]
  omega

theorem vleNibble_of_le {v : Word} (h : 8 ≤ v.toNat) : vleNibble v = BitVec.ofNat 4 (v.toNat % 8 + 8) := by
  have more := (shiftRight_three_eq_zero v).not.mpr (Nat.not_lt.mpr h)
  have low : v.toNat % 8 < 2 ^ 3 := Nat.mod_lt _ (by omega)
  have set := Nat.two_pow_add_eq_or_of_lt low 1
  apply BitVec.eq_of_toNat_eq
  rw [vleNibble, if_pos more, BitVec.toNat_or, toNat_lowPayload, BitVec.toNat_ofNat, Nat.or_comm]
  exact set.symm.trans (by omega)

/-- R130, R132: with a pass for each of its groups, the loop emits the minimal unit of the value. -/
theorem encodeVleLoop_eq_emitAll {fuel : Nat} {v : Word} (h : v.toNat < 8 ^ (fuel + 1)) (s : State) :
    encodeVleLoop (fuel + 1) v s = emitAll (unitOf v.toNat) s := by
  induction fuel generalizing v s with
  | zero =>
    have last := (shiftRight_three_eq_zero v).mpr h
    simp only [encodeVleLoop, if_pos last, vleNibble_of_lt h, unitOf_of_lt h, emitAll]
  | succ fuel ih =>
    rw [encodeVleLoop]
    rcases Nat.lt_or_ge v.toNat 8 with small | large
    · have last := (shiftRight_three_eq_zero v).mpr small
      simp only [if_pos last, vleNibble_of_lt small, unitOf_of_lt small, emitAll]
    · have more := (shiftRight_three_eq_zero v).not.mpr (Nat.not_lt.mpr large)
      have rest : (v >>> 3).toNat < 8 ^ (fuel + 1) := by
        rw [toNat_shiftRight_three]
        exact Nat.div_lt_of_lt_mul (by rwa [← Nat.pow_succ'])
      simp only [if_neg more, vleNibble_of_le large, unitOf_of_le large, emitAll, ih rest, toNat_shiftRight_three]

/-- R132, R140: the pass limit covers every 32-bit value. -/
theorem encodeVle_eq_emitAll (v : Word) (s : State) : encodeVle v s = emitAll (unitOf v.toNat) s :=
  encodeVleLoop_eq_emitAll (v.isLt.trans (by decide)) s

/-! ### Emission without room -/

/-- The room left after an emission that had room is the room there was. -/
theorem Emits.roomFor_add {ns : List Nibble} (h : Emits s ns t) {m : Nat} (hr : s.roomFor ns.length)
    (hm : t.roomFor m) : s.roomFor (ns.length + m) := by
  intro full
  have wp := h.wp_eq
  have cnt := h.cnt_eq
  rw [State.roomFor, h.outCap] at hm
  omega

/-- R222: an emission that had room does not move the first word that does not fit. -/
theorem Emits.firstUnfit_eq {ns : List Nibble} (h : Emits s ns t) (hr : s.roomFor ns.length) :
    max t.e.wp.toNat (t.outCap.toNat / 4) = max s.e.wp.toNat (s.outCap.toNat / 4) := by
  have wp := h.wp_eq
  rw [h.outCap]
  omega

/-- R223: the nibble that completes a word without room for it. -/
theorem emitNibble_of_not_roomFor (hs : s.encoderSound) (hr : ¬ s.roomFor 1) (n : Nibble) :
    emitNibble n s = .raised .outputBufferOverflow s.e.wp ∧ s.outCap.toNat / 4 ≤ s.e.wp.toNat := by
  obtain ⟨hcnt, -, -⟩ := hs
  obtain ⟨full, short⟩ := Classical.not_imp.mp hr
  have eighth : s.e.cnt + 1 = 8 := by bv_omega
  exact ⟨emitNibble_overflow eighth (by omega), by omega⟩

/-- R222, R223: emitting a list without room raises at the first word that does not fit. -/
theorem emitAll_of_not_roomFor {ns : List Nibble} (hs : s.encoderSound) (hm : Memory.wf s.eSpace = true)
    (hr : ¬ s.roomFor ns.length) :
    emitAll ns s =
      .raised .outputBufferOverflow (BitVec.ofNat 32 (max s.e.wp.toNat (s.outCap.toNat / 4))) := by
  induction ns generalizing s with
  | nil =>
    obtain ⟨full, -⟩ := Classical.not_imp.mp hr
    rw [List.length_nil, Nat.add_zero] at full
    exact absurd hs.1 (by omega)
  | cons n ns ih =>
    rw [List.length_cons, Nat.add_comm] at hr
    rw [emitAll]
    by_cases one : s.roomFor 1
    · obtain ⟨t, ht, emitted⟩ := emitNibble_emits (n := n) hs hm one
      have rest := ih ((emitNibble_frame ht).sound hs) emitted.canonical fun k => hr (emitted.roomFor_add one k)
      rw [ht, Run.bind_done, rest, emitted.firstUnfit_eq one]
    · obtain ⟨raised, least⟩ := emitNibble_of_not_roomFor hs one n
      rw [raised, Run.bind_raised, max_eq_left least, BitVec.ofNat_toNat, BitVec.setWidth_eq]

end Sys2Proof.Machine

/-- Settles O22: ENCVLE is the emission of the minimal unit, which has room or has not. -/
theorem encvleEmitsMinimalUnit : Obligations.EncvleEmitsMinimalUnit := by
  refine ⟨rfl, fun s hf hm hs => ?_⟩
  rw [exec_encvle, ← length_unitOf]
  have body := encodeVle_eq_emitAll s.argWord s
  refine ⟨fun room => ?_, fun noRoom => ?_⟩
  · obtain ⟨t, ht, emitted⟩ := emitAll_emits hs hm.2 room
    exact ⟨t, emitted, issue_next_of_done hf rfl (by rw [body, State.argWord, ht, Run.bind_done])⟩
  · have raised := emitAll_of_not_roomFor hs hm.2 noRoom
    exact ⟨_, issue_next_of_raised hf rfl (by rw [body, State.argWord, raised, Run.bind_raised]),
      takeFault_faultTaken _ _ _ s⟩

end

section
/-! PROOFS. The VLE decoder issued by the host: DECVLE delivers the unit ahead (R135), DECVLE and DECVAL take the faults
of parsing it (R134, R138), and DECVLE inverts ENCVLE (R136). -/

open Sys2Proof Sys2Proof.Machine

namespace Sys2Proof.Machine

variable {s : State}

/-- R118: nibbles ahead, given one by one. -/
theorem ahead_of_getElem {ns : List Nibble} (h : ∀ k (hk : k < ns.length), s.nextNibble k = some ns[k]) :
    s.Ahead ns := by
  intro k hk
  rw [h k hk, List.getElem?_eq_getElem hk]

/-- R132: the nibbles of a minimal unit ahead, given one by one. -/
theorem ahead_unitOf {v : Nat} (h : ∀ k, k < unitLength v → s.nextNibble k = some (unitNibble v k)) :
    s.Ahead (unitOf v) := by
  refine ahead_of_getElem fun k hk => ?_
  rw [h k (by rwa [length_unitOf] at hk)]
  simp [unitOf]

/-- R136: the units of values from 2^30 on have more than ten nibbles. -/
theorem ten_lt_length_unitOf {v : Nat} (h : 2 ^ 30 ≤ v) : 10 < (unitOf v).length := by
  have bound := unitValue_lt (unitOf v)
  rw [unitValue_unitOf] at bound
  have powers : 8 ^ 10 < 8 ^ (unitOf v).length := lt_of_le_of_lt h bound
  exact (Nat.pow_lt_pow_iff_right (by omega)).mp powers

/-- R135: DECVLE takes the unit ahead and delivers its value. -/
theorem exec_decvle_of_unit {ns : List Nibble} (hf : s.faulted = false) (hs : s.decoderSound)
    (hunit : isShortUnit ns = true) (h : s.Ahead ns) :
    exec .decvle s = .next { s with
      d := s.afterTaking ns.length, vle := none, res := BitVec.ofNat 32 (unitValue ns), status := 0x01 } :=
  issue_next_of_done hf rfl (decodeVle_of_unit hs.1 hunit h)

theorem decodeValue_raised {f : FaultCause} {info : Word} (h : decodeVle s = .raised f info) :
    decodeValue s = .raised f info := by
  rw [decodeValue, h, Run.bind_raised]

/-- R138: DECVLE and DECVAL take the fault of parsing a unit. -/
theorem exec_of_decodeVle_raised {i : Instr} (hi : i = .decvle ∨ (i = .decval ∧ s.d.so < s.numPixels))
    (hf : s.faulted = false) {f : FaultCause} {info : Word} (h : decodeVle s = .raised f info) :
    ∃ t, exec i s = .next t ∧ FaultTaken (outputRange i) f info s t := by
  rcases hi with rfl | ⟨rfl, hso⟩
  · exact ⟨_, issue_next_of_raised hf rfl h, takeFault_faultTaken _ _ _ s⟩
  · exact ⟨_, issue_next_of_raised hf (decvalRefusal_none.mpr hso) (decodeValue_raised h),
      takeFault_faultTaken _ _ _ s⟩

end Sys2Proof.Machine

/-- Settles O26: what DECVLE does with a unit ahead. -/
theorem decvleReturnsUnitValue : Obligations.DecvleReturnsUnitValue := by
  refine ⟨rfl, fun s ns hf hs hunit hlen h => ?_⟩
  have short := isShortUnit_iff.mpr ⟨hunit, hlen⟩
  exact ⟨unitValue_lt_of_isShortUnit short, exec_decvle_of_unit hf hs short (ahead_of_getElem h)⟩

/-- Settles O27: the tenth nibble of the unit goes on, or the input ends in the unit. -/
theorem decvleFaults : Obligations.DecvleFaults := by
  intro s ns i hi hf hs hcs h
  have ahead := ahead_of_getElem h
  refine ⟨fun ten => ?_, fun fewer ended => ?_⟩
  · rw [← ten]
    exact exec_of_decodeVle_raised hi hf (decodeVle_overlong hs.1 hcs ahead ten)
  · exact exec_of_decodeVle_raised hi hf (decodeVle_truncated hs.1 hcs ahead fewer ended)

/-- Settles O28: below 2^30 the minimal unit is one DECVLE delivers, and from 2^30 on its first ten nibbles go on. -/
theorem vleInverseLaw : Obligations.VleInverseLaw := by
  intro s v hf hs _ h
  have ahead := ahead_unitOf h
  refine ⟨fun small => ?_, fun large => ?_⟩
  · have delivered := exec_decvle_of_unit hf hs (isShortUnit_unitOf small) ahead
    rwa [length_unitOf, unitValue_unitOf] at delivered
  · have long := ten_lt_length_unitOf large
    have ten : ((unitOf v).take 10).length = 10 := List.length_take_of_le long.le
    rw [← List.take_append_drop 10 (unitOf v)] at ahead
    have raised := decodeVle_overlong hs.1 (allContinue_take (isUnit_unitOf v) long) ahead.left ten
    rw [ten] at raised
    exact exec_of_decodeVle_raised (.inl rfl) hf raised

end

section
/-! PROOFS. The zigzag delta coder: the two maps of the machine are those on integers (R160), so they are inverse to
each other (R153), deltas are exact and their coding round-trips (R150, R159), and ZZENC and ZZDEC deliver them (R151,
R152). -/

open Sys2Proof Sys2Proof.Machine

namespace Sys2Proof.Machine

/-! ### The maps on integers -/

theorem zigzagInt_of_nonneg {d : Int} (h : 0 ≤ d) : zigzagInt d = (2 * d).toNat := if_pos h

theorem zigzagInt_of_neg {d : Int} (h : d < 0) : zigzagInt d = (-2 * d - 1).toNat := if_neg (Int.not_le.mpr h)

theorem unzigzagInt_of_even {v : Nat} (h : v % 2 = 0) : unzigzagInt v = (v / 2 : Nat) := if_pos h

theorem unzigzagInt_of_odd {v : Nat} (h : v % 2 = 1) : unzigzagInt v = -(((v + 1) / 2 : Nat) : Int) :=
  if_neg (by omega)

/-- R160: nonnegative integers are coded by the even numbers, negative ones by the odd. -/
theorem unzigzagInt_zigzagInt (d : Int) : unzigzagInt (zigzagInt d) = d := by
  rcases lt_or_ge d 0 with neg | nonneg
  · rw [zigzagInt_of_neg neg, unzigzagInt_of_odd (by omega)]
    omega
  · rw [zigzagInt_of_nonneg nonneg, unzigzagInt_of_even (by omega)]
    omega

theorem zigzagInt_unzigzagInt (v : Nat) : zigzagInt (unzigzagInt v) = v := by
  rcases Nat.mod_two_eq_zero_or_one v with even | odd
  · rw [unzigzagInt_of_even even, zigzagInt_of_nonneg (by omega)]
    omega
  · rw [unzigzagInt_of_odd odd, zigzagInt_of_neg (by omega)]
    omega

/-! ### The maps on 32 bits -/

/-- R151: the arithmetic shift spreads the sign over the word. -/
theorem zigzagEncode_of_nonneg {d : Word} (h : 0 ≤ d.toInt) : zigzagEncode d = d <<< 1 := by
  have sign : d.sshiftRight 31 = 0#32 := by
    apply BitVec.eq_of_toInt_eq
    rw [BitVec.toInt_sshiftRight, Int.shiftRight_eq_div_pow]
    have := d.toInt_lt
    show d.toInt / 2 ^ 31 = 0
    omega
  rw [zigzagEncode, sign, BitVec.xor_zero]

theorem zigzagEncode_of_neg {d : Word} (h : d.toInt < 0) : zigzagEncode d = ~~~(d <<< 1) := by
  have sign : d.sshiftRight 31 = BitVec.allOnes 32 := by
    apply BitVec.eq_of_toInt_eq
    rw [BitVec.toInt_sshiftRight, Int.shiftRight_eq_div_pow]
    have := d.le_toInt
    show d.toInt / 2 ^ 31 = -1
    omega
  rw [zigzagEncode, sign, BitVec.xor_allOnes]

/-- R151, R160: on the 32 bits the zigzag map is the one on integers, at every value. -/
theorem toNat_zigzagEncode (d : Word) : (zigzagEncode d).toNat = zigzagInt d.toInt := by
  have hd := d.isLt
  have value := BitVec.toInt_eq_toNat_cond d
  have double : (d <<< 1).toNat = 2 * d.toNat % 2 ^ 32 := by
    rw [BitVec.toNat_shiftLeft, Nat.shiftLeft_eq, Nat.mul_comm]
  rcases lt_or_ge d.toInt 0 with neg | nonneg
  · rw [zigzagEncode_of_neg neg, zigzagInt_of_neg neg, BitVec.toNat_not, double]
    split at value <;> omega
  · rw [zigzagEncode_of_nonneg nonneg, zigzagInt_of_nonneg nonneg, double]
    split at value <;> omega

/-- R153: both maps are those on integers, which are inverse to each other. -/
theorem zigzagDecode_zigzagEncode (d : Word) : zigzagDecode (zigzagEncode d) = d := by
  apply BitVec.eq_of_toInt_eq
  rw [toInt_zigzagDecode, toNat_zigzagEncode, unzigzagInt_zigzagInt]

theorem zigzagEncode_zigzagDecode (v : Word) : zigzagEncode (zigzagDecode v) = v := by
  apply BitVec.eq_of_toNat_eq
  rw [toNat_zigzagEncode, toInt_zigzagDecode, zigzagInt_unzigzagInt]

/-! ### Deltas -/

/-- R150: the difference of two 16-bit integers fits 32 bits. -/
theorem toInt_sampleDelta (cur prev : Sample) : (sampleDelta cur prev).toInt = cur.toInt - prev.toInt := by
  have := cur.toInt_lt
  have := cur.le_toInt
  have := prev.toInt_lt
  have := prev.le_toInt
  rw [sampleDelta, sampleResult, sampleResult, BitVec.toInt_sub, BitVec.toInt_signExtend_of_le (by decide),
    BitVec.toInt_signExtend_of_le (by decide), Int.bmod_eq_of_le (by omega) (by omega)]

/-- R154, R159: cursor plus delta is the sample. -/
theorem reconstruct_sampleDelta (cur prev : Sample) : reconstruct prev (sampleDelta cur prev) = cur := by
  rw [reconstruct_eq, toInt_sampleDelta, add_sub_cancel, BitVec.ofInt_toInt]

end Sys2Proof.Machine

/-- Settles O14: the maps on 32 bits inherit the inverse law from those on integers. -/
theorem zigzagMapsAreInverse : Obligations.ZigzagMapsAreInverse :=
  ⟨zigzagDecode_zigzagEncode, zigzagEncode_zigzagDecode⟩

/-- Settles O15: the arithmetic forms hold at every value, in the ranges of R160 too. -/
theorem zigzagArithmeticForms : Obligations.ZigzagArithmeticForms := by
  refine ⟨fun d _ _ => ?_, fun v _ => toInt_zigzagDecode v⟩
  rw [toNat_zigzagEncode, zigzagInt]
  split <;> omega

/-- Settles O16: the delta is exact, and the zigzag maps give it back. -/
theorem deltaRoundTrip : Obligations.DeltaRoundTrip := by
  refine ⟨toInt_sampleDelta, fun prev cur => ?_⟩
  rw [zigzagDecode_zigzagEncode, reconstruct_sampleDelta]

/-- Settles O13: both bodies leave the state as it is. -/
theorem zigzagOperationsDeliver : Obligations.ZigzagOperationsDeliver := by
  refine ⟨rfl, rfl, fun s hf => ⟨?_, ?_⟩⟩
  · rw [exec_zzenc]
    exact issue_next_of_done (t := s) (r := zigzagEncode s.arg) hf rfl rfl
  · rw [exec_zzdec]
    exact issue_next_of_done (t := s) (r := zigzagDecode s.arg) hf rfl rfl

end

section
/-! PROOFS. One sample: ENCVAL emits the minimal unit of its delta or overflows (R172, R222), and DECVAL writes the
sample the unit ahead codes (R154, R192). -/

open Sys2Proof Sys2Proof.Machine

namespace Sys2Proof.Machine

variable {s t : State}

/-! ### ENCVAL -/

/-- R24, R25: `s` with the cursors of the encoder set. -/
def State.withCursors (s : State) (si : Word) (prev : Sample) : State :=
  { s with e := { s.e with si := si, prev := prev } }

/-- R112: the packer does not meet the cursors. -/
theorem Emits.withCursors {ns : List Nibble} (h : Emits s ns t) (si : Word) (prev : Sample) :
    Emits (s.withCursors si prev) ns (t.withCursors si prev) where
  pending := h.pending
  bound := h.bound
  wp := h.wp
  words := h.words
  others := h.others
  canonical := h.canonical
  rest := congrArg (fun u : State => u.withCursors si prev) h.rest

theorem Emits.si_eq {ns : List Nibble} (h : Emits s ns t) : t.e.si = s.e.si := by rw [h.rest]

/-- R172: the sample ENCVAL codes. -/
def State.nextSample (s : State) : Sample := s.sSpace.read s.e.si.toNat

/-- R172: the minimal unit of its delta against the cursor. -/
def State.nextUnit (s : State) : List Nibble := unitOf (zigzagInt (s.nextSample.toInt - s.e.prev.toInt))

/-- R150, R160: the unit of the machine's delta is that of the integer difference. -/
theorem unitOf_zigzagEncode_sampleDelta (cur prev : Sample) :
    unitOf (zigzagEncode (sampleDelta cur prev)).toNat = unitOf (zigzagInt (cur.toInt - prev.toInt)) := by
  rw [toNat_zigzagEncode, toInt_sampleDelta]

/-- R172: with a sample left, ENCVAL is an emission after which the cursor takes the sample. -/
theorem encodeValue_eq (hsi : s.e.si < s.numPixels) :
    encodeValue s = (emitAll s.nextUnit (s.withCursors (s.e.si + 1) s.e.prev)).bind fun _ t =>
      .done (sampleResult s.nextSample) (t.withCursors t.e.si s.nextSample) := by
  rw [State.nextUnit, ← unitOf_zigzagEncode_sampleDelta, ← encodeVle_eq_emitAll, State.nextSample, ← sRead_inside hsi]
  rfl

/-- R172: ENCVAL with room for the unit. -/
theorem encodeValue_emits (hsi : s.e.si < s.numPixels) (hs : s.encoderSound) (hm : Memory.wf s.eSpace = true)
    (hr : s.roomFor s.nextUnit.length) :
    ∃ t, encodeValue s = .done (sampleResult s.nextSample) t ∧
      Emits (s.withCursors (s.e.si + 1) s.nextSample) s.nextUnit t := by
  obtain ⟨t, ht, emitted⟩ := emitAll_emits (s := s.withCursors (s.e.si + 1) s.e.prev) hs hm hr
  have si : t.e.si = s.e.si + 1 := emitted.si_eq
  refine ⟨_, by rw [encodeValue_eq hsi, ht, Run.bind_done], ?_⟩
  rw [si]
  exact emitted.withCursors _ _

/-- R222: ENCVAL without room for the unit. -/
theorem encodeValue_of_not_roomFor (hsi : s.e.si < s.numPixels) (hs : s.encoderSound)
    (hm : Memory.wf s.eSpace = true) (hr : ¬ s.roomFor s.nextUnit.length) :
    encodeValue s =
      .raised .outputBufferOverflow (BitVec.ofNat 32 (max s.e.wp.toNat (s.outCap.toNat / 4))) := by
  have raised := emitAll_of_not_roomFor (s := s.withCursors (s.e.si + 1) s.e.prev) hs hm hr
  rw [encodeValue_eq hsi, raised, Run.bind_raised]
  rfl

/-! ### DECVAL -/

theorem afterTaking_so (s : State) (m : Nat) : (s.afterTaking m).so = s.d.so := by rw [afterTaking_writes]

theorem afterTaking_prev (s : State) (m : Nat) : (s.afterTaking m).prev = s.d.prev := by rw [afterTaking_writes]

/-- R154, R192: with a sample left, DECVAL takes the unit ahead and writes the sample it codes against the cursor. -/
theorem decodeValue_of_unit {ns : List Nibble} (hs : s.d.cnt.toNat ≤ 7) (hso : s.d.so < s.numPixels)
    (hunit : isShortUnit ns = true) (h : s.Ahead ns) :
    decodeValue s = .done (sampleResult (sampleFrom s.d.prev ns)) { s with
      d := { s.afterTaking ns.length with so := s.d.so + 1, prev := sampleFrom s.d.prev ns }
      sSpace := s.sSpace.write s.d.so.toNat (sampleFrom s.d.prev ns), vle := none } := by
  have cur : reconstruct (s.taking ns.length).d.prev (zigzagDecode (BitVec.ofNat 32 (unitValue ns))) =
      sampleFrom s.d.prev ns := by
    rw [reconstruct_eq, toInt_zigzagDecode, toNat_unitValue hunit, State.taking, afterTaking_prev, sampleFrom]
  have so : (s.taking ns.length).d.so = s.d.so := afterTaking_so s ns.length
  have inside : s.d.so < ((s.taking ns.length).withVle none).numPixels := hso
  simp only [decodeValue, decodeVle_of_unit hs hunit h, Run.bind_done, withVle_d, cur, so, sWrite_inside inside]
  rfl

end Sys2Proof.Machine

/-- Settles O34: ENCVAL is the emission of the minimal unit of the delta, which has room or has not. -/
theorem encvalCodesOneSample : Obligations.EncvalCodesOneSample := by
  refine ⟨rfl, ?_⟩
  rintro s cur ns hf hm hs hsi rfl rfl
  have admitted := encvalRefusal_none.mpr hsi
  rw [exec_encval]
  refine ⟨fun room => ?_, fun noRoom => ?_⟩
  · obtain ⟨t, done, emitted⟩ := encodeValue_emits hsi hs hm.2 room
    exact ⟨t, emitted, issue_next_of_done hf admitted done⟩
  · have raised := encodeValue_of_not_roomFor hsi hs hm.2 noRoom
    exact ⟨_, issue_next_of_raised hf admitted raised, takeFault_faultTaken _ _ _ s⟩

/-- Settles O43: DECVAL takes the unit ahead, and the sample it codes is pushed at the write cursor. -/
theorem decvalWritesOneSample : Obligations.DecvalWritesOneSample := by
  refine ⟨rfl, ?_⟩
  rintro s ns cur hf hm hs hso hunit hlen h rfl
  have done := decodeValue_of_unit hs.1 hso (isShortUnit_iff.mpr ⟨hunit, hlen⟩) (ahead_of_getElem h)
  exact ⟨_, issue_next_of_done hf (decvalRefusal_none.mpr hso) done, rfl, Memory.read_write_same hm.1 _ _,
    fun j hj => Memory.read_write_other _ hj⟩

end

section
/-! PROOFS. The run scanner: the samples from a cursor on as a list, and SCANZ and SCANNZ as its first maximal run (R170,
R171). -/

open Sys2Proof Sys2Proof.Machine

namespace Sys2Proof.Machine

variable {s t : State} {p : Word}

/-! ### The samples from a cursor on -/

/-- R8, R50: the samples from index `p` to the end of the stream. -/
def State.samplesAt (s : State) (p : Word) : List Sample :=
  (List.range' p.toNat (s.numPixels.toNat - p.toNat)).map s.sSpace.read

theorem samplesAt_zero (s : State) : s.samplesAt 0 = s.samples := by
  rw [State.samplesAt, State.samples, List.range_eq_range']
  rfl

theorem length_samples (s : State) : s.samples.length = s.numPixels.toNat := by
  rw [State.samples, List.length_map, List.length_range]

theorem length_samplesAt (s : State) (p : Word) : (s.samplesAt p).length = s.numPixels.toNat - p.toNat := by
  rw [State.samplesAt, List.length_map, List.length_range']

theorem getElem_samplesAt {k : Nat} (h : k < (s.samplesAt p).length) :
    (s.samplesAt p)[k] = s.sSpace.read (p.toNat + k) := by
  simp [State.samplesAt]

theorem toNat_succ_of_lt (h : p < s.numPixels) : (p + 1).toNat = p.toNat + 1 := by
  bv_omega

theorem samplesAt_of_lt (h : p < s.numPixels) : s.samplesAt p = s.sSpace.read p.toNat :: s.samplesAt (p + 1) := by
  have more : s.numPixels.toNat - p.toNat = s.numPixels.toNat - (p + 1).toNat + 1 := by bv_omega
  rw [State.samplesAt, more, List.range'_succ, List.map_cons, State.samplesAt, toNat_succ_of_lt h]

theorem eq_numPixels_of_samplesAt (hp : p ≤ s.numPixels) (h : s.samplesAt p = []) : p = s.numPixels := by
  have none_left := length_samplesAt s p
  rw [h, List.length_nil] at none_left
  bv_omega

theorem of_samplesAt_eq_cons {x : Sample} {xs : List Sample} (h : s.samplesAt p = x :: xs) :
    p < s.numPixels ∧ s.sSpace.read p.toNat = x ∧ s.samplesAt (p + 1) = xs := by
  have some_left := length_samplesAt s p
  rw [h, List.length_cons] at some_left
  have inside : p < s.numPixels := by bv_omega
  rw [samplesAt_of_lt inside] at h
  exact ⟨inside, List.cons.inj h⟩

theorem add_ofNat_succ (a : Word) (n : Nat) : a + BitVec.ofNat 32 (n + 1) = a + 1 + BitVec.ofNat 32 n := by
  rw [Nat.add_comm, BitVec.ofNat_add, BitVec.add_assoc]
  rfl

/-- The cursor moved over the first of its samples. -/
theorem samplesAt_advance {xs ys : List Sample} (hp : p ≤ s.numPixels) (h : s.samplesAt p = xs ++ ys) :
    p + BitVec.ofNat 32 xs.length ≤ s.numPixels ∧ s.samplesAt (p + BitVec.ofNat 32 xs.length) = ys := by
  induction xs generalizing p with
  | nil => simpa using ⟨hp, h⟩
  | cons x xs ih =>
    obtain ⟨inside, -, rest⟩ := of_samplesAt_eq_cons h
    rw [List.length_cons, add_ofNat_succ]
    exact ih (by bv_omega) rest

theorem toNat_ofNat_length_samplesAt {k : Nat} (h : k ≤ (s.samplesAt p).length) : (BitVec.ofNat 32 k).toNat = k := by
  have := length_samplesAt s p
  have := s.numPixels.isLt
  rw [BitVec.toNat_ofNat, Nat.mod_eq_of_lt (by omega)]

/-- The pass limit of the scanner's loops. -/
theorem toNat_numPixels_sub (hp : p ≤ s.numPixels) : (s.numPixels - p).toNat = (s.samplesAt p).length := by
  rw [length_samplesAt, BitVec.toNat_sub_of_le hp]

/-! ### The loops of the scanner -/

@[simp] theorem samplesAt_withCursors (s : State) (si : Word) (prev : Sample) (p : Word) :
    (s.withCursors si prev).samplesAt p = s.samplesAt p := rfl

/-- R170: in every state, SCANZ consumes what it counts. -/
theorem scanZerosLoop_advances (fuel : Nat) (z : Word) (s : State) :
    ∃ k, scanZerosLoop fuel z s = .done (z + k) (s.withCursors (s.e.si + k) s.e.prev) := by
  induction fuel generalizing z s with
  | zero => exact ⟨0, by simp [scanZerosLoop, State.withCursors]⟩
  | succ fuel ih =>
    rw [scanZerosLoop]
    split
    · obtain ⟨k, hk⟩ := ih (z + 1) (s.withCursors (s.e.si + 1) s.e.prev)
      refine ⟨1 + k, hk.trans ?_⟩
      rw [← BitVec.add_assoc, ← BitVec.add_assoc]
      rfl
    · exact ⟨0, by simp [State.withCursors]⟩

theorem zerosOf_cons_of_eq {x : Sample} {xs : List Sample} (h : x = 0) : zerosOf (x :: xs) = x :: zerosOf xs :=
  List.takeWhile_cons_of_pos (by simpa using h)

theorem zerosOf_cons_of_ne {x : Sample} {xs : List Sample} (h : x ≠ 0) : zerosOf (x :: xs) = [] :=
  List.takeWhile_cons_of_neg (by simpa using h)

/-- R170: SCANZ counts the leading zeros of the samples from its cursor on. -/
theorem scanZerosLoop_eq {xs : List Sample} (h : s.samplesAt s.e.si = xs) (z : Word) :
    ∃ t, scanZerosLoop xs.length z s = .done (z + BitVec.ofNat 32 (zerosOf xs).length) t := by
  induction xs generalizing s z with
  | nil => exact ⟨s, congrArg (Run.done · s) (BitVec.add_zero z).symm⟩
  | cons x xs ih =>
    obtain ⟨inside, head, rest⟩ := of_samplesAt_eq_cons h
    have more : s.e.si ≠ s.numPixels := by bv_omega
    rw [List.length_cons, scanZerosLoop, sRead_inside inside, head]
    by_cases zero : x = 0
    · obtain ⟨t, ht⟩ := ih (s := s.withCursors (s.e.si + 1) s.e.prev) rest (z + 1)
      rw [if_pos ⟨more, zero⟩, zerosOf_cons_of_eq zero, List.length_cons, add_ofNat_succ]
      exact ⟨t, ht⟩
    · rw [if_neg fun both => zero both.2, zerosOf_cons_of_ne zero]
      exact ⟨s, congrArg (Run.done · s) (BitVec.add_zero z).symm⟩

/-- R170: SCANZ from a cursor within the stream. -/
theorem scanZeros_eq (hp : s.e.si ≤ s.numPixels) :
    scanZeros s = .done (BitVec.ofNat 32 (zerosOf (s.samplesAt s.e.si)).length)
      (s.withCursors (s.e.si + BitVec.ofNat 32 (zerosOf (s.samplesAt s.e.si)).length) s.e.prev) := by
  obtain ⟨k, hk⟩ := scanZerosLoop_advances (s.samplesAt s.e.si).length 0 s
  obtain ⟨t, ht⟩ := scanZerosLoop_eq (s := s) rfl 0
  have count : k = BitVec.ofNat 32 (zerosOf (s.samplesAt s.e.si)).length :=
    (BitVec.add_right_inj 0).mp (Run.done.inj (hk.symm.trans ht)).1
  rw [scanZeros, toNat_numPixels_sub hp, hk, count]
  exact congrArg (Run.done · _) (BitVec.zero_add _)

/-- R171: SCANNZ counts the leading nonzeros of the samples from its look-ahead cursor on. -/
theorem countNonzerosLoop_eq {xs : List Sample} (h : s.samplesAt p = xs) (n : Word) :
    countNonzerosLoop s xs.length p n = n + BitVec.ofNat 32 (xs.takeWhile (· != 0)).length := by
  induction xs generalizing p n with
  | nil => simp [countNonzerosLoop]
  | cons x xs ih =>
    obtain ⟨inside, head, rest⟩ := of_samplesAt_eq_cons h
    have more : p ≠ s.numPixels := by bv_omega
    rw [List.length_cons, countNonzerosLoop, sRead_inside inside, head]
    by_cases zero : x = 0
    · rw [if_neg fun both => both.2 zero, List.takeWhile_cons_of_neg (by simpa using zero)]
      exact (BitVec.add_zero n).symm
    · rw [if_pos ⟨more, zero⟩, ih rest, List.takeWhile_cons_of_pos (by simpa using zero), List.length_cons,
        add_ofNat_succ]

/-- R171: SCANNZ from a cursor within the stream. -/
theorem countNonzeros_eq (hp : s.e.si ≤ s.numPixels) :
    countNonzeros s = BitVec.ofNat 32 ((s.samplesAt s.e.si).takeWhile (· != 0)).length := by
  rw [countNonzeros, toNat_numPixels_sub hp, countNonzerosLoop_eq rfl]
  exact BitVec.zero_add _

/-! ### Maximal runs -/

/-- A maximal run of samples that `q` admits, at a cursor within the stream. -/
theorem maximalRun_samplesAt (q : Sample → Bool) (hp : p ≤ s.numPixels) {k : Nat}
    (hk : k = ((s.samplesAt p).takeWhile q).length) :
    p.toNat + k ≤ s.numPixels.toNat ∧ (∀ j, j < k → q (s.sSpace.read (p.toNat + j)) = true) ∧
      (p.toNat + k = s.numPixels.toNat ∨ q (s.sSpace.read (p.toNat + k)) = false) := by
  have length := length_samplesAt s p
  have bound : p.toNat ≤ s.numPixels.toNat := hp
  rw [List.takeWhile_eq_take_findIdx_not, List.length_take_of_le List.findIdx_le_length] at hk
  have within : k ≤ (s.samplesAt p).length := hk ▸ List.findIdx_le_length
  refine ⟨by omega, fun j hj => ?_, ?_⟩
  · have admitted := List.not_of_lt_findIdx (hk ▸ hj)
    rw [getElem_samplesAt] at admitted
    simpa using admitted
  · rcases Nat.lt_or_ge k (s.samplesAt p).length with short | all
    · subst hk
      have refused := List.findIdx_getElem (w := short)
      rw [getElem_samplesAt] at refused
      exact .inr (by simpa using refused)
    · exact .inl (by omega)

end Sys2Proof.Machine

/-- Settles O32: SCANZ consumes what it counts, which is the run of zeros at a cursor within the stream. -/
theorem scanzConsumesZeroRun : Obligations.ScanzConsumesZeroRun := by
  refine ⟨rfl, fun s hf => ?_⟩
  obtain ⟨z, hz⟩ := scanZerosLoop_advances (s.numPixels - s.e.si).toNat 0 s
  rw [show 0 + z = z from BitVec.zero_add z] at hz
  refine ⟨z, issue_next_of_done hf rfl hz, fun hp => ?_⟩
  have count : z.toNat = (zerosOf (s.samplesAt s.e.si)).length := by
    rw [(Run.done.inj (hz.symm.trans (scanZeros_eq hp))).1]
    exact toNat_ofNat_length_samplesAt (List.takeWhile_sublist _).length_le
  simpa using maximalRun_samplesAt (· == 0) hp count

/-- Settles O33: the count is the run of nonzeros at a cursor within the stream. -/
theorem scannzCountsNonzeroRun : Obligations.ScannzCountsNonzeroRun := by
  refine ⟨rfl, fun s hf => ⟨countNonzeros s, issue_next_of_done (t := s) hf rfl rfl, fun hp => ?_⟩⟩
  have count : (countNonzeros s).toNat = ((s.samplesAt s.e.si).takeWhile (· != 0)).length := by
    rw [countNonzeros_eq hp]
    exact toNat_ofNat_length_samplesAt (List.takeWhile_sublist _).length_le
  simpa using maximalRun_samplesAt (· != 0) hp count

end

section
/-! PROOFS. The canonical stream as a list: its length (R185), the stream of zeros (R182), the groups it needs (R181), and
the cursor it ends with (R188). -/

open Sys2Proof Sys2Proof.Machine

namespace Sys2Proof.Machine

/-! ### Lengths -/

/-- R131: a nibble codes three bits. -/
theorem unitLength_le_of_lt {v n : Nat} (h : v < 8 ^ (n + 1)) : unitLength v ≤ n + 1 := by
  induction n generalizing v with
  | zero => exact (unitLength_of_lt h).le
  | succ n ih =>
    rcases Nat.lt_or_ge v 8 with small | large
    · rw [unitLength_of_lt small]
      omega
    · have rest := ih (v := v / 8) (Nat.div_lt_of_lt_mul (by rwa [← Nat.pow_succ']))
      rw [unitLength_of_le large]
      omega

/-- R131: a run length has no more nibbles than its run has samples, and the empty run has one. -/
theorem unitLength_le_max (v : Nat) : unitLength v ≤ max v 1 := by
  induction v using Nat.strongRecOn with
  | ind v ih =>
    rcases Nat.lt_or_ge v 8 with small | large
    · rw [unitLength_of_lt small]
      omega
    · have rest := ih (v / 8) (by omega)
      rw [unitLength_of_le large]
      omega

/-- R150, R160: the zigzag value of a delta has 17 bits, so its unit six nibbles. -/
theorem unitLength_delta_le (x prev : Sample) : unitLength (zigzagInt (x.toInt - prev.toInt)) ≤ 6 := by
  have := x.toInt_lt
  have := x.le_toInt
  have := prev.toInt_lt
  have := prev.le_toInt
  refine unitLength_le_of_lt (n := 5) ?_
  rw [zigzagInt]
  split <;> omega

theorem length_valueUnits_le (prev : Sample) (xs : List Sample) : (valueUnits prev xs).length ≤ 6 * xs.length := by
  induction xs generalizing prev with
  | nil => exact Nat.zero_le _
  | cons x xs ih =>
    have value := unitLength_delta_le x prev
    have values := ih x
    rw [valueUnits, List.length_append, length_unitOf, List.length_cons]
    omega

theorem nibbles_canonicalGroup (prev : Sample) (xs : List Sample) :
    (canonicalGroup prev xs).nibbles =
      unitOf (zerosOf xs).length ++ unitOf (nonzerosOf xs).length ++ valueUnits prev (nonzerosOf xs) := by
  rw [Group.nibbles, canonicalGroup, flatten_canonicalValues]

/-- R185: a group of at least one sample has at most 8 nibbles for each. -/
theorem length_nibbles_canonicalGroup_le (prev x : Sample) (xs : List Sample) :
    (canonicalGroup prev (x :: xs)).nibbles.length ≤
      8 * ((zerosOf (x :: xs)).length + (nonzerosOf (x :: xs)).length) := by
  have pos := length_group_pos x xs
  have zeros := unitLength_le_max (zerosOf (x :: xs)).length
  have nonzeros := unitLength_le_max (nonzerosOf (x :: xs)).length
  have values := length_valueUnits_le prev (nonzerosOf (x :: xs))
  rw [nibbles_canonicalGroup, List.length_append, List.length_append, length_unitOf, length_unitOf]
  omega

theorem streamGroups_nil (fuel : Nat) (prev : Sample) : streamGroups fuel prev [] = [] := by
  cases fuel <;> rfl

theorem length_streamGroups_le (fuel : Nat) (prev : Sample) (xs : List Sample) :
    (streamGroups fuel prev xs).length ≤ 8 * xs.length := by
  induction fuel generalizing prev xs with
  | zero => exact Nat.zero_le _
  | succ fuel ih =>
    cases xs with
    | nil => exact Nat.zero_le _
    | cons x xs =>
      have total := length_group_add_rest (x :: xs)
      have group := length_nibbles_canonicalGroup_le prev x xs
      have rest := ih ((nonzerosOf (x :: xs)).getLastD prev) (restOf (x :: xs))
      rw [streamGroups_cons, List.length_append]
      omega

theorem length_streamOf_le (xs : List Sample) : (streamOf xs).length ≤ 8 * xs.length := length_streamGroups_le _ _ _

theorem streamBytes_streamOf_le (xs : List Sample) : streamBytes (streamOf xs).length ≤ 4 * xs.length := by
  have := length_streamOf_le xs
  rw [streamBytes]
  omega

/-! ### The groups a stream needs -/

/-- R181: every group covers a sample, so a group for each sample is enough. -/
theorem streamGroups_of_length_le {m n : Nat} (prev : Sample) {xs : List Sample} (hm : xs.length ≤ m)
    (hn : xs.length ≤ n) : streamGroups m prev xs = streamGroups n prev xs := by
  induction m generalizing n prev xs with
  | zero => rw [List.eq_nil_of_length_eq_zero (Nat.le_zero.mp hm), streamGroups_nil, streamGroups_nil]
  | succ m ih =>
    cases xs with
    | nil => rw [streamGroups_nil, streamGroups_nil]
    | cons x xs =>
      obtain ⟨n, rfl⟩ := Nat.exists_eq_succ_of_ne_zero (Nat.ne_zero_of_lt hn)
      have total := length_group_add_rest (x :: xs)
      have pos := length_group_pos x xs
      have less : (restOf (x :: xs)).length ≤ xs.length := by rw [List.length_cons] at total; omega
      rw [streamGroups_cons, streamGroups_cons,
        ih _ (less.trans (Nat.le_of_succ_le_succ hm)) (less.trans (Nat.le_of_succ_le_succ hn))]

/-! ### The first group -/

theorem zerosOf_append_nonzerosOf_append_restOf (xs : List Sample) : zerosOf xs ++ (nonzerosOf xs ++ restOf xs) = xs := by
  rw [nonzerosOf, restOf, List.takeWhile_append_dropWhile, zerosOf, List.takeWhile_append_dropWhile]

theorem filter_zerosOf (xs : List Sample) : (zerosOf xs).filter (· != 0) = [] := by
  refine List.filter_eq_nil_iff.mpr fun x hx => ?_
  simpa using List.mem_takeWhile_imp hx

theorem filter_nonzerosOf (xs : List Sample) : (nonzerosOf xs).filter (· != 0) = nonzerosOf xs :=
  List.filter_eq_self.mpr fun _ hx => List.mem_takeWhile_imp (p := (· != 0)) hx

/-- R24, R188: the cursor after the samples `xs`: the last nonzero one. -/
def cursorAfter (prev : Sample) (xs : List Sample) : Sample := (xs.filter (· != 0)).getLastD prev

/-- R91: the cursor is carried from group to group. -/
theorem cursorAfter_restOf (prev : Sample) (xs : List Sample) :
    cursorAfter ((nonzerosOf xs).getLastD prev) (restOf xs) = cursorAfter prev xs := by
  rw [cursorAfter, cursorAfter]
  conv_rhs => rw [← zerosOf_append_nonzerosOf_append_restOf xs, List.filter_append, List.filter_append,
    filter_zerosOf, filter_nonzerosOf, List.nil_append]
  simp [List.getLastD_eq_getLast?, Option.getD_or]

/-! ### Zeros only -/

theorem zerosOf_replicate (n : Nat) : zerosOf (List.replicate n 0) = List.replicate n 0 := by
  rw [zerosOf, List.takeWhile_eq_self_iff]
  simp

theorem dropWhile_replicate_zero (n : Nat) : (List.replicate n (0 : Sample)).dropWhile (· == 0) = [] :=
  List.dropWhile_eq_nil_iff.mpr fun _ hx => by simp [List.eq_of_mem_replicate hx]

end Sys2Proof.Machine

/-- Settles O37: group by group, at most 8 nibbles for each sample it covers. -/
theorem streamSizeBound : Obligations.StreamSizeBound := fun xs => ⟨length_streamOf_le xs, streamBytes_streamOf_le xs⟩

/-- Settles O39: the zeros are one group, with no nonzeros and nothing after it. -/
theorem allZeroStream : Obligations.AllZeroStream := by
  intro n hn
  obtain ⟨n, rfl⟩ := Nat.exists_eq_succ_of_ne_zero hn.ne'
  have dropped := dropWhile_replicate_zero (n + 1)
  have nonzeros : nonzerosOf (List.replicate (n + 1) 0) = [] := by rw [nonzerosOf, dropped, List.takeWhile_nil]
  have rest : restOf (List.replicate (n + 1) 0) = [] := by rw [restOf, dropped, List.dropWhile_nil]
  have zeros := zerosOf_replicate (n + 1)
  rw [streamOf, List.length_replicate, List.replicate_succ, streamGroups_cons, ← List.replicate_succ, rest,
    streamGroups_nil, nibbles_canonicalGroup, zeros, nonzeros, List.length_replicate,
    List.length_nil, unitOf_of_lt (Nat.zero_lt_succ 7), valueUnits, List.append_nil,
    List.append_nil]
  rfl

end

section
/-! PROOFS. COMPRESS as one emission: the values, the groups and the loop over them emit the canonical stream of the
samples from the cursor on and move the cursors (R180, R181). -/

open Sys2Proof Sys2Proof.Machine

namespace Sys2Proof.Machine

variable {s t : State} {ns ms : List Nibble} {si : Word} {prev : Sample}

/-! ### Sequences of emissions -/

theorem Run.bind_congr {α β : Type} {x : Run α} {f g : α → State → Run β}
    (h : ∀ a t, x = .done a t → f a t = g a t) : x.bind f = x.bind g := by
  cases x with
  | done a t => exact h a t rfl
  | raised c info => rfl

theorem emitAll_append (ns ms : List Nibble) (s : State) :
    emitAll (ns ++ ms) s = (emitAll ns s).bind fun _ t => emitAll ms t := by
  induction ns generalizing s with
  | nil => rfl
  | cons n ns ih => simp only [List.cons_append, emitAll, ih, Run.bind_assoc]

theorem emitAll_writes (h : emitAll ns s = .done () t) : PackerWrites s t := by
  induction ns generalizing s with
  | nil => cases h; exact .refl _
  | cons n ns ih =>
    obtain ⟨_, u, hu, h⟩ := Run.bind_eq_done.mp h
    exact (emitNibble_writes hu).trans (ih h)

theorem emitNibble_blind_withCursors (n : Nibble) (si : Word) (prev : Sample) :
    Blind (fun s => s.withCursors si prev) (emitNibble n) := by
  intro s
  by_cases h : s.e.cnt + 1 = 8
  · rcases Nat.lt_or_ge s.outCap.toNat (4 * s.e.wp.toNat + 4) with hr | hr
    · rw [emitNibble_overflow h hr]; exact emitNibble_overflow (s := s.withCursors si prev) h hr
    · rw [emitNibble_full h hr]; exact emitNibble_full (s := s.withCursors si prev) h hr
  · rw [emitNibble_short h]; exact emitNibble_short (s := s.withCursors si prev) h

/-- R112: the packer does not meet the cursors. -/
theorem emitAll_blind_withCursors (ns : List Nibble) (si : Word) (prev : Sample) :
    Blind (fun s => s.withCursors si prev) (emitAll ns) := by
  induction ns with
  | nil => exact .done ()
  | cons n ns ih => exact (emitNibble_blind_withCursors n si prev).bind fun _ => ih

/-- A body that emits `ms` and sets the cursors, run after the emission of `ns`, makes one emission with it. -/
theorem emitAll_then {f : State → Run Unit}
    (h : ∀ t, PackerWrites s t → f t = emitAll ms (t.withCursors si prev)) :
    ((emitAll ns s).bind fun _ t => f t) = emitAll (ns ++ ms) (s.withCursors si prev) := by
  have second : ((emitAll ns s).bind fun _ t => f t) =
      (emitAll ns s).bind fun _ t => emitAll ms (t.withCursors si prev) :=
    Run.bind_congr fun _ t ht => h t (emitAll_writes ht)
  rw [second, emitAll_append, emitAll_blind_withCursors ns si prev s]
  cases emitAll ns s <;> rfl

/-! ### Values, groups, streams -/

/-- R180 step 3: the values of the samples `xs` at the cursor. -/
theorem encodeValues_eq {xs ys : List Sample} (h : s.samplesAt s.e.si = xs ++ ys) :
    encodeValues xs.length s = emitAll (valueUnits s.e.prev xs)
      (s.withCursors (s.e.si + BitVec.ofNat 32 xs.length) (xs.getLastD s.e.prev)) := by
  induction xs generalizing s with
  | nil =>
    have si : s.e.si + BitVec.ofNat 32 0 = s.e.si := BitVec.add_zero _
    rw [List.length_nil, si]
    rfl
  | cons x xs ih =>
    obtain ⟨inside, head, rest⟩ := of_samplesAt_eq_cons h
    rw [List.length_cons, encodeValues, encodeValue_eq inside, Run.bind_assoc, add_ofNat_succ, List.getLastD_cons,
      valueUnits, ← head]
    refine emitAll_then (f := fun t => encodeValues xs.length (t.withCursors t.e.si s.nextSample)) ?_
    rintro t ⟨_, _, _, _, rfl⟩
    exact ih rest

/-- R180 steps 2 and 3: the nonzero-run at the cursor, its length and its values. -/
def encodeNonzeros (s : State) : Run Unit :=
  (encodeVle (countNonzeros s) s).bind fun _ t => encodeValues (countNonzeros s).toNat t

theorem encodeGroup_eq_bind (s : State) :
    encodeGroup s = (scanZeros s).bind fun zeros t => (encodeVle zeros t).bind fun _ u => encodeNonzeros u := rfl

theorem encodeNonzeros_eq {xs ys : List Sample} (hsi : s.e.si ≤ s.numPixels) (h : s.samplesAt s.e.si = ys)
    (hxs : xs = ys.takeWhile (· != 0)) :
    encodeNonzeros s = emitAll (unitOf xs.length ++ valueUnits s.e.prev xs)
      (s.withCursors (s.e.si + BitVec.ofNat 32 xs.length) (xs.getLastD s.e.prev)) := by
  have run : s.samplesAt s.e.si = xs ++ ys.dropWhile (· != 0) := by rw [h, hxs, List.takeWhile_append_dropWhile]
  have count : (countNonzeros s).toNat = xs.length := by
    rw [countNonzeros_eq hsi, h, ← hxs]
    exact toNat_ofNat_length_samplesAt (by rw [run, List.length_append]; exact Nat.le_add_right _ _)
  rw [encodeNonzeros, encodeVle_eq_emitAll, count]
  refine emitAll_then (f := encodeValues xs.length) ?_
  rintro t ⟨_, _, _, _, rfl⟩
  exact encodeValues_eq run

/-- R180 steps 1 to 3: one group. -/
theorem encodeGroup_eq {xs : List Sample} (hsi : s.e.si ≤ s.numPixels) (h : s.samplesAt s.e.si = xs) :
    ∃ si, si ≤ s.numPixels ∧ s.samplesAt si = restOf xs ∧
      encodeGroup s = emitAll (canonicalGroup s.e.prev xs).nibbles
        (s.withCursors si ((nonzerosOf xs).getLastD s.e.prev)) := by
  have split := zerosOf_append_nonzerosOf_append_restOf xs
  obtain ⟨zsi, afterZeros⟩ := samplesAt_advance hsi (h.trans split.symm)
  obtain ⟨nsi, afterNonzeros⟩ := samplesAt_advance zsi afterZeros
  have zeros : (BitVec.ofNat 32 (zerosOf xs).length).toNat = (zerosOf xs).length :=
    toNat_ofNat_length_samplesAt (by rw [h]; exact (List.takeWhile_sublist _).length_le)
  refine ⟨_, nsi, afterNonzeros, ?_⟩
  rw [encodeGroup_eq_bind, scanZeros_eq hsi, h, Run.bind_done, nibbles_canonicalGroup, List.append_assoc,
    encodeVle_eq_emitAll, zeros]
  refine emitAll_then ?_
  rintro t ⟨_, _, _, _, rfl⟩
  refine encodeNonzeros_eq zsi (afterZeros.trans ?_) rfl
  rw [nonzerosOf, restOf, List.takeWhile_append_dropWhile]

theorem withCursors_of_samplesAt_nil (hsi : s.e.si ≤ s.numPixels) (h : s.samplesAt s.e.si = []) :
    s.withCursors s.numPixels (cursorAfter s.e.prev []) = s := by
  rw [← eq_numPixels_of_samplesAt hsi h]
  rfl

/-- R180, R181: with a group for each sample left, the loop emits the canonical stream of the samples from the cursor
on. -/
theorem encodeGroups_eq {fuel : Nat} {xs : List Sample} (hsi : s.e.si ≤ s.numPixels) (h : s.samplesAt s.e.si = xs)
    (hfuel : xs.length ≤ fuel) :
    encodeGroups fuel s =
      emitAll (streamGroups fuel s.e.prev xs) (s.withCursors s.numPixels (cursorAfter s.e.prev xs)) := by
  induction fuel generalizing s xs with
  | zero =>
    obtain rfl := List.eq_nil_of_length_eq_zero (Nat.le_zero.mp hfuel)
    exact congrArg (Run.done ()) (withCursors_of_samplesAt_nil hsi h).symm
  | succ fuel ih =>
    cases xs with
    | nil =>
      have atEnd := eq_numPixels_of_samplesAt hsi h
      rw [encodeGroups, if_neg (not_not.mpr atEnd)]
      exact congrArg (Run.done ()) (withCursors_of_samplesAt_nil hsi h).symm
    | cons x xs =>
      obtain ⟨inside, -, -⟩ := of_samplesAt_eq_cons h
      obtain ⟨si, hle, rest, group⟩ := encodeGroup_eq hsi h
      have more : s.e.si ≠ s.numPixels := by bv_omega
      have total := length_group_add_rest (x :: xs)
      have pos := length_group_pos x xs
      have less : (restOf (x :: xs)).length ≤ fuel := by omega
      rw [encodeGroups, if_pos more, group, streamGroups_cons, ← cursorAfter_restOf s.e.prev (x :: xs)]
      refine emitAll_then ?_
      rintro t ⟨_, _, _, _, rfl⟩
      exact ih hle rest less

end Sys2Proof.Machine
end

section
/-! PROOFS. COMPRESS: FLUSH is the emission of pad nibbles 0, so the whole operation is the emission of the padded stream,
which has room or has not (R180, R184, R187). -/

open Sys2Proof Sys2Proof.Machine

namespace Sys2Proof.Machine

variable {s t : State} {ns : List Nibble}

/-! ### Flushing -/

/-- R180: the pad nibbles that complete the last word of `n` nibbles. -/
def padNibbles (n : Nat) : List Nibble := List.replicate ((8 - n % 8) % 8) 0

/-- R180, R184: a stream with its pad nibbles. -/
def padded (ns : List Nibble) : List Nibble := ns ++ padNibbles ns.length

theorem length_padded (ns : List Nibble) : (padded ns).length = 2 * streamBytes ns.length := by
  rw [padded, padNibbles, List.length_append, List.length_replicate, streamBytes]
  omega

theorem getD_padded (ns : List Nibble) (i : Nat) : (padded ns).getD i 0 = ns.getD i 0 := by
  rcases Nat.lt_or_ge i ns.length with inside | outside
  · exact List.getD_append _ _ _ _ inside
  · rw [padded, padNibbles, List.getD_append_right _ _ _ _ outside, List.getD_eq_default _ _ outside]
    rw [List.getD_eq_getElem?_getD, List.getElem?_getD_replicate_default_eq]

theorem appendZero_eq (w : Word) : (w <<< 4) ||| (0 : Nibble).setWidth 32 = w <<< 4 := BitVec.or_zero

/-- R112: the state after a pad nibble that completes no word. -/
def State.afterPad (s : State) : State :=
  { s with e := { s.e with word := (s.e.word <<< 4) ||| (0 : Nibble).setWidth 32, cnt := s.e.cnt + 1 } }

theorem cnt_afterPad (h : s.e.cnt.toNat ≤ 6) : s.afterPad.e.cnt.toNat = s.e.cnt.toNat + 1 := by
  rw [State.afterPad]
  bv_omega

theorem flushedWord_afterPad (h : s.e.cnt.toNat ≤ 6) : flushedWord s.afterPad.e = flushedWord s.e := by
  have left : 4 * (8 - s.e.cnt.toNat) = 4 + 4 * (8 - (s.e.cnt + 1).toNat) := by bv_omega
  rw [flushedWord, flushedWord, left, BitVec.shiftLeft_add, State.afterPad, appendZero_eq]

/-- R113: FLUSH does not tell a pad nibble emitted from one it adds itself. -/
theorem flushPacker_afterPad (hs : s.e.cnt ≠ 0) (h : s.e.cnt.toNat ≤ 6) : flushPacker s.afterPad = flushPacker s := by
  have cnt := cnt_afterPad h
  have pending : s.afterPad.e.cnt ≠ 0 := by bv_omega
  rcases Nat.lt_or_ge s.outCap.toNat (4 * s.e.wp.toNat + 4) with hr | hr
  · rw [flushPacker_overflow hs hr]
    exact flushPacker_overflow pending hr
  · rw [flushPacker_full hs hr, ← flushedWord_afterPad h]
    exact flushPacker_full pending hr

/-- R113: FLUSH of a partial word is the emission of the pad nibbles that complete it. -/
theorem flushPacker_eq_replicate {k : Nat} (hs : s.e.cnt ≠ 0) (hk : s.e.cnt.toNat + (k + 1) = 8) :
    flushPacker s = emitAll (List.replicate (k + 1) 0) s := by
  induction k generalizing s with
  | zero =>
    have eighth : s.e.cnt + 1 = 8 := by bv_omega
    have seven : s.e.cnt.toNat = 7 := by omega
    have word : flushedWord s.e = (s.e.word <<< 4) ||| (0 : Nibble).setWidth 32 := by
      rw [appendZero_eq, flushedWord, seven]
    rw [List.replicate_one, emitAll]
    rcases Nat.lt_or_ge s.outCap.toNat (4 * s.e.wp.toNat + 4) with hr | hr
    · rw [flushPacker_overflow hs hr, emitNibble_overflow eighth hr, Run.bind_raised]
    · rw [flushPacker_full hs hr, emitNibble_full eighth hr, Run.bind_done, word]
      rfl
  | succ k ih =>
    have short : s.e.cnt + 1 ≠ 8 := by bv_omega
    have cnt := cnt_afterPad (s := s) (by omega)
    have pending : s.afterPad.e.cnt ≠ 0 := by bv_omega
    calc flushPacker s
        = flushPacker s.afterPad := (flushPacker_afterPad hs (by omega)).symm
      _ = emitAll (List.replicate (k + 1) 0) s.afterPad := ih pending (by omega)
      _ = emitAll (List.replicate (k + 1 + 1) 0) s := by
        rw [List.replicate_succ (n := k + 1), emitAll, emitNibble_short short]
        rfl

/-- R113: FLUSH is the emission of the pad nibbles. -/
theorem flushPacker_eq_emitAll (hs : s.e.cnt.toNat ≤ 7) : flushPacker s = emitAll (padNibbles s.e.cnt.toNat) s := by
  by_cases empty : s.e.cnt = 0
  · rw [flushPacker_empty empty, empty]
    rfl
  · have pad : (8 - s.e.cnt.toNat % 8) % 8 = 7 - s.e.cnt.toNat + 1 := by bv_omega
    rw [padNibbles, pad]
    exact flushPacker_eq_replicate empty (by omega)

theorem emitNibble_cnt {n : Nibble} (hs : s.e.cnt.toNat ≤ 7) (h : emitNibble n s = .done () t) :
    t.e.cnt.toNat = (s.e.cnt.toNat + 1) % 8 := by
  rcases emitNibble_eq_done.mp h with ⟨short, rfl⟩ | ⟨full, -, rfl⟩ <;> bv_omega

/-- R112: the nibbles pending after an emission. -/
theorem emitAll_cnt (hs : s.e.cnt.toNat ≤ 7) (h : emitAll ns s = .done () t) :
    t.e.cnt.toNat = (s.e.cnt.toNat + ns.length) % 8 := by
  induction ns generalizing s with
  | nil => cases h; exact (Nat.mod_eq_of_lt (Nat.lt_succ_of_le hs)).symm
  | cons n ns ih =>
    obtain ⟨_, u, hu, h⟩ := Run.bind_eq_done.mp h
    have one := emitNibble_cnt hs hu
    rw [ih (by omega) h, one, List.length_cons]
    omega

/-! ### The whole operation -/

/-- R111, R188: a fresh encoder context with the cursors COMPRESS ends with. -/
def compressStart (s : State) : State := (encInit s).withCursors s.numPixels (cursorAfter 0 s.samples)

/-- R180: COMPRESS is the emission of the padded stream. -/
theorem compressStream_eq (s : State) :
    compressStream s =
      (emitAll (padded (streamOf s.samples)) (compressStart s)).bind fun _ t => .done (bytesWritten t) t := by
  have groups : encodeGroups s.numPixels.toNat (encInit s) = emitAll (streamOf s.samples) (compressStart s) := by
    rw [encodeGroups_eq (Nat.zero_le _) (samplesAt_zero (encInit s)) (length_samples s).le,
      streamOf, length_samples]
    rfl
  rw [compressStream, groups, padded, emitAll_append, Run.bind_assoc]
  refine Run.bind_congr fun _ t ht => ?_
  have fresh : (compressStart s).e.cnt.toNat = 0 := rfl
  have cnt := emitAll_cnt (by omega) ht
  rw [fresh, Nat.zero_add] at cnt
  rw [flushPacker_eq_emitAll (by omega), cnt, padNibbles, padNibbles, Nat.mod_mod]

theorem compressStart_sound (s : State) : (compressStart s).encoderSound := by
  show 0 ≤ 7 ∧ 0 < 16 ^ 0 ∧ 4 * 0 < 2 ^ 32
  decide

theorem wp_compressStart (s : State) : (compressStart s).e.wp.toNat = 0 := rfl

theorem pending_compressStart (s : State) : (compressStart s).pending = [] := rfl

/-- R86, R187: room for the padded stream is room for its bytes. -/
theorem roomFor_padded (s : State) (ns : List Nibble) :
    (compressStart s).roomFor (padded ns).length ↔ streamBytes ns.length ≤ s.outCap.toNat := by
  have fresh : (compressStart s).e.cnt.toNat = 0 := rfl
  have outCap : (compressStart s).outCap = s.outCap := rfl
  rw [State.roomFor, length_padded, fresh, wp_compressStart, outCap, streamBytes]
  omega

/-- R41: a stream of whole words leaves nothing pending. -/
theorem Emits.nothing_pending {ns : List Nibble} (h : Emits s ns t) (whole : (s.e.cnt.toNat + ns.length) % 8 = 0) :
    t.e.cnt = 0 ∧ t.e.word = 0 := by
  have cnt := h.cnt_eq.trans whole
  have word := h.bound.2
  rw [cnt, Nat.pow_zero, Nat.lt_one_iff] at word
  exact ⟨BitVec.eq_of_toNat_eq cnt, BitVec.eq_of_toNat_eq word⟩

/-- R180, R184, R188: what COMPRESS leaves when it has room. -/
theorem compressStream_of_room (hm : Memory.wf s.eSpace = true) (hns : ns = streamOf s.samples)
    (hr : streamBytes ns.length ≤ s.outCap.toNat) :
    ∃ t, compressStream s = .done (BitVec.ofNat 32 (streamBytes ns.length)) t ∧
      t = { s with
        e := { word := 0, cnt := 0, wp := BitVec.ofNat 32 (streamBytes ns.length / 4)
               prev := cursorAfter 0 s.samples, si := s.numPixels }
        eSpace := t.eSpace } ∧
      (∀ i, i < 2 * streamBytes ns.length → t.eNibble i = ns.getD i 0) ∧
      ∀ a, streamBytes ns.length ≤ a → t.eSpace.read a = s.eSpace.read a := by
  obtain ⟨t, ht, emitted⟩ := emitAll_emits (compressStart_sound s) hm ((roomFor_padded s ns).mpr hr)
  have words : streamBytes ns.length = 4 * ((ns.length + 7) / 8) := rfl
  have wp : t.e.wp.toNat = streamBytes ns.length / 4 := by
    rw [emitted.wp, pending_compressStart, List.nil_append, length_padded, wp_compressStart]
    omega
  obtain ⟨cnt, word⟩ := emitted.nothing_pending (by
    show (0 + (padded ns).length) % 8 = 0
    rw [length_padded]
    omega)
  have bytes : bytesWritten t = BitVec.ofNat 32 (streamBytes ns.length) := by
    rw [bytesWritten]
    bv_omega
  have cursor : t.e.wp = BitVec.ofNat 32 (streamBytes ns.length / 4) := by
    rw [← wp, BitVec.ofNat_toNat, BitVec.setWidth_eq]
  have rest := emitted.rest
  rw [cnt, word, cursor] at rest
  refine ⟨t, ?_, rest, fun i hi => ?_, fun a ha => ?_⟩
  · rw [compressStream_eq, ← hns, ht, Run.bind_done, bytes]
  · have nibble := emitted.words i (by rw [pending_compressStart, List.nil_append, length_padded]; omega)
    rwa [wp_compressStart, Nat.mul_zero, Nat.zero_add, pending_compressStart, List.nil_append, getD_padded] at nibble
  · exact emitted.others a (.inr (by omega))

/-- R187: COMPRESS without room. -/
theorem compressStream_of_no_room (hm : Memory.wf s.eSpace = true)
    (hr : s.outCap.toNat < streamBytes (streamOf s.samples).length) :
    compressStream s = .raised .outputBufferOverflow (BitVec.ofNat 32 (s.outCap.toNat / 4)) := by
  have raised := emitAll_of_not_roomFor (compressStart_sound s) hm ((roomFor_padded s _).not.mpr (Nat.not_le.mpr hr))
  rw [compressStream_eq, raised, Run.bind_raised, wp_compressStart, Nat.zero_max]
  rfl

end Sys2Proof.Machine

/-- Settles O35: COMPRESS is the emission of the padded stream, here with room. -/
theorem compressWritesCanonicalStream : Obligations.CompressWritesCanonicalStream := by
  refine ⟨rfl, fun s ns hf hm hn hns hr => ?_⟩
  obtain ⟨t, done, rest, nibbles, others⟩ := compressStream_of_room hm.2 hns hr
  have admitted := streamStartRefusal_none.mpr (numPixels_le_max hn)
  exact ⟨_, issue_next_of_done hf admitted done, congrArg (complete _) rest, nibbles, others⟩

/-- Settles O36: COMPRESS is the emission of the padded stream, here without room. -/
theorem compressFaultsWithoutRoom : Obligations.CompressFaultsWithoutRoom := by
  intro s hf hm hn hr
  have admitted := streamStartRefusal_none.mpr (numPixels_le_max hn)
  exact ⟨_, issue_next_of_raised hf admitted (compressStream_of_no_room hm.2 hr), takeFault_faultTaken _ _ _ s⟩

/-- Settles O38: the size bound of the stream gives the room. -/
theorem compressFitsFourBytesPerSample : Obligations.CompressFitsFourBytesPerSample := by
  intro s hf hm hn hr
  have bound := streamBytes_streamOf_le s.samples
  rw [length_samples] at bound
  obtain ⟨t, ht, done, -⟩ := compressWritesCanonicalStream.2 s _ hf hm hn rfl (bound.trans hr)
  refine ⟨t, ht, by rw [done], ?_⟩
  rw [done]
  exact (Nat.mod_le _ _).trans bound

end

section
/-! PROOFS. The loops over the groups: COMPRESS with no sample left needs no group and each group covers a sample (R181,
R183), DECOMPRESS takes two nibbles of the input for each group (R202, R203). -/

open Sys2Proof Sys2Proof.Machine

namespace Sys2Proof.Machine

variable {s t u : State}

/-! ### The nibbles left in the input -/

/-- R44, R71: the nibbles TAKENIB can still return: those of the current word and those of the whole words unread. -/
def State.inputLeft (s : State) : Nat := s.d.cnt.toNat + 8 * (s.inLen.toNat / 4 - s.d.rp.toNat)

theorem takeNibble_inputLeft {n : Nibble} (h : takeNibble s = .done n t) : t.inputLeft + 1 = s.inputLeft := by
  rcases takeNibble_eq_done.mp h with ⟨pending, -, rfl⟩ | ⟨empty, room, -, rfl⟩
  · have cnt : (s.d.cnt - 1).toNat + 1 = s.d.cnt.toNat := by bv_omega
    simp only [State.inputLeft]
    omega
  · have cnt : s.d.cnt.toNat = 0 := by bv_omega
    have rp : (s.d.rp + 1).toNat = s.d.rp.toNat + 1 := by have := s.inLen.isLt; bv_omega
    have seven : (7 : BitVec 4).toNat = 7 := rfl
    simp only [State.inputLeft, rp, seven]
    omega

theorem decodeVleLoop_inputLeft {fuel : Nat} {v : Word} (h : decodeVleLoop fuel s = .done v t) :
    t.inputLeft + 1 ≤ s.inputLeft := by
  induction fuel generalizing s with
  | zero => cases h
  | succ fuel ih =>
    obtain ⟨n, u, hu, h⟩ := Run.bind_eq_done.mp h
    have one := takeNibble_inputLeft hu
    split at h
    · obtain ⟨_, w, hw, h⟩ := Run.bind_eq_done.mp h
      obtain ⟨_, rfl⟩ := vleContinue_writes hw
      exact (ih h).trans (Nat.le_of_succ_le one.le)
    · obtain rfl := vleFinish_writes h
      exact one.le

/-- R134: a unit has a nibble. -/
theorem decodeVle_inputLeft {v : Word} (h : decodeVle s = .done v t) : t.inputLeft + 1 ≤ s.inputLeft :=
  decodeVleLoop_inputLeft (s := { s with vle := none }) h

theorem writeZeroRun_inputLeft {c : Word} (h : writeZeroRun c s = .done () t) : t.inputLeft = s.inputLeft := by
  obtain ⟨_, _, _, rfl⟩ := writeZeroRun_writes h
  rfl

theorem accountNonzeroRun_inputLeft {c : Word} (h : accountNonzeroRun c s = .done () t) :
    t.inputLeft = s.inputLeft := by
  obtain ⟨_, rfl⟩ := accountNonzeroRun_writes h
  rfl

theorem decodeValue_inputLeft {v : Word} (h : decodeValue s = .done v t) : t.inputLeft ≤ s.inputLeft := by
  obtain ⟨_, u, hu, h⟩ := Run.bind_eq_done.mp h
  have taken := decodeVle_inputLeft hu
  cases h
  exact Nat.le_of_succ_le taken

theorem decodeValues_inputLeft {n : Nat} (h : decodeValues n s = .done () t) : t.inputLeft ≤ s.inputLeft := by
  induction n generalizing s with
  | zero => cases h; exact Nat.le_refl _
  | succ n ih =>
    obtain ⟨_, u, hu, h⟩ := Run.bind_eq_done.mp h
    exact (ih h).trans (decodeValue_inputLeft hu)

/-- R91, R203: a group has the nibbles of its two run lengths. -/
theorem decodeGroup_inputLeft (h : decodeGroup s = .done () t) : t.inputLeft + 2 ≤ s.inputLeft := by
  obtain ⟨_, s1, h1, h⟩ := Run.bind_eq_done.mp h
  obtain ⟨_, s2, h2, h⟩ := Run.bind_eq_done.mp h
  obtain ⟨_, s3, h3, h⟩ := Run.bind_eq_done.mp h
  obtain ⟨_, s4, h4, h⟩ := Run.bind_eq_done.mp h
  have zeros := decodeVle_inputLeft h1
  have written := writeZeroRun_inputLeft h2
  have nonzeros := decodeVle_inputLeft h3
  have accounted := accountNonzeroRun_inputLeft h4
  have values := decodeValues_inputLeft h
  omega

/-- R203: the loop does the same under every pass limit above half the nibbles left. -/
theorem decodeGroups_of_inputLeft_lt {m n : Nat} (hm : s.inputLeft < 2 * m) (hn : s.inputLeft < 2 * n) :
    decodeGroups m s = decodeGroups n s := by
  induction m generalizing n s with
  | zero => exact absurd hm (Nat.not_lt_zero _)
  | succ m ih =>
    obtain ⟨n, rfl⟩ := Nat.exists_eq_succ_of_ne_zero (n := n) (by omega)
    rw [decodeGroups, decodeGroups]
    split
    · refine Run.bind_congr fun _ t ht => ?_
      have taken := decodeGroup_inputLeft ht
      exact ih (by omega) (by omega)
    · rfl

theorem inputLeft_decompressStart_lt (s : State) : (decompressStart s).inputLeft < 2 * (s.inLen.toNat + 1) := by
  show 0 + 8 * (s.inLen.toNat / 4 - 0) < _
  omega

/-! ### The groups of COMPRESS -/

/-- R181: the loop does the same under every pass limit of at least a group for each sample. -/
theorem encodeGroups_of_numPixels_le {fuel : Nat} (h : s.numPixels.toNat ≤ fuel) :
    encodeGroups fuel (encInit s) = encodeGroups s.numPixels.toNat (encInit s) := by
  have within : (encInit s).e.si ≤ (encInit s).numPixels := Nat.zero_le _
  have length : s.samples.length = s.numPixels.toNat := length_samples s
  rw [encodeGroups_eq within (samplesAt_zero (encInit s)) (length.trans_le h),
    encodeGroups_eq within (samplesAt_zero (encInit s)) length.le]
  exact congrArg (emitAll · _) (streamGroups_of_length_le _ (length.trans_le h) length.le)

/-! ### The empty stream -/

/-- R183. -/
theorem compressStream_empty (h : s.numPixels = 0) : compressStream s = .done 0 (encInit s) := by
  rw [compressStream, h]
  exact congrArg (Run.bind · _) (flushPacker_empty (s := encInit s) rfl)

/-- R202. -/
theorem decompressStream_empty (h : s.numPixels = 0) : decompressStream s = .done () (decompressStart s) := by
  have none_left : ¬ (decompressStart s).d.rem > 0 := by
    rw [decompressStart_d, h]
    decide
  rw [decompressStream, decodeGroups, if_neg none_left]

end Sys2Proof.Machine

/-- Settles O47: a group of COMPRESS covers a sample, and one of DECOMPRESS takes two nibbles. -/
theorem groupLoopsEndByThemselves : Obligations.GroupLoopsEndByThemselves := by
  refine fun s fuel => ⟨encodeGroups_of_numPixels_le, fun h => ?_⟩
  have left := inputLeft_decompressStart_lt s
  exact decodeGroups_of_inputLeft_lt (by omega) left

/-- Settles O40: with no sample both loops end before their first group. -/
theorem emptyStreamTouchesNothing : Obligations.EmptyStreamTouchesNothing := by
  intro s hf hn
  have admitted : streamStartRefusal s = none := streamStartRefusal_none.mpr (by rw [hn]; decide)
  refine ⟨issue_next_of_done hf admitted (compressStream_empty hn), ?_⟩
  rw [exec_decompress, issue_next_of_done hf admitted (by rw [decompressStream_empty hn, Run.bind_done]),
    decompressStart, decInit, hn]
  rfl

end

section
/-! PROOFS. Run lengths issued by the host: the loop of WRZ cell by cell, from any cursor (R190), and the run-length check
that WRZ and NZRUN share (R190, R191, R225). -/

open Sys2Proof Sys2Proof.Machine

namespace Sys2Proof.Machine

variable {s : State}

/-! ### The loop of WRZ -/

theorem writeZeros_so (n : Nat) (s : State) : (writeZeros n s).d.so = s.d.so + BitVec.ofNat 32 n := by
  induction n generalizing s with
  | zero => exact (BitVec.add_zero _).symm
  | succ n ih =>
    rw [writeZeros_succ, ih, add_ofNat_succ]
    rfl

/-- R190: the loop writes its cursor, advanced by its length, and S-space. -/
theorem writeZeros_eq (n : Nat) (s : State) :
    writeZeros n s = { s with
      d := { s.d with so := s.d.so + BitVec.ofNat 32 n }, sSpace := (writeZeros n s).sSpace } := by
  have so := writeZeros_so n s
  obtain ⟨so', m, h⟩ := writeZeros_writes n s
  rw [h] at so ⊢
  exact congrArg (fun so => { s with d := { s.d with so := so }, sSpace := m }) so

theorem push_read_other (v prev : Sample) {j : Nat} (h : j ≠ s.d.so.toNat) :
    (s.push v prev).sSpace.read j = s.sSpace.read j :=
  sWrite_read_other _ v h

theorem push_read_same (hm : Memory.wf s.sSpace = true) (h : s.d.so < s.numPixels) (v prev : Sample) :
    (s.push v prev).sSpace.read s.d.so.toNat = v := by
  show (sWrite s s.d.so v).sSpace.read s.d.so.toNat = v
  rw [sWrite_inside h]
  exact Memory.read_write_same hm _ v

/-- R190: the loop leaves every cell alone that its cursor does not meet. -/
theorem writeZeros_read_other {n j : Nat} (h : ∀ k, k < n → j ≠ (s.d.so + BitVec.ofNat 32 k).toNat) :
    (writeZeros n s).sSpace.read j = s.sSpace.read j := by
  induction n generalizing s with
  | zero => rfl
  | succ n ih =>
    have first : j ≠ s.d.so.toNat := by simpa using h 0 (Nat.succ_pos n)
    have later : ∀ k, k < n → j ≠ ((s.push 0 s.d.prev).d.so + BitVec.ofNat 32 k).toNat := fun k hk => by
      have met := h (k + 1) (Nat.succ_lt_succ hk)
      rwa [add_ofNat_succ] at met
    rw [writeZeros_succ, ih later, push_read_other _ _ first]

/-- R190: a cell of S-space that its cursor meets, or that was 0, is 0 after the loop. -/
theorem writeZeros_read_zero {n : Nat} {i : Word} (hm : Memory.wf s.sSpace = true) (hi : i < s.numPixels)
    (h : s.sSpace.read i.toNat = 0 ∨ ∃ k, k < n ∧ i = s.d.so + BitVec.ofNat 32 k) :
    (writeZeros n s).sSpace.read i.toNat = 0 := by
  induction n generalizing s with
  | zero => exact h.resolve_right fun ⟨_, hk, _⟩ => Nat.not_lt_zero _ hk
  | succ n ih =>
    rw [writeZeros_succ]
    refine ih (sWrite_wf hm s.d.so 0) hi ?_
    by_cases here : i = s.d.so
    · subst here
      exact .inl (push_read_same hm hi 0 _)
    · have elsewhere : i.toNat ≠ s.d.so.toNat := fun e => here (BitVec.eq_of_toNat_eq e)
      rw [push_read_other _ _ elsewhere]
      refine h.imp_right ?_
      rintro ⟨k, hk, rfl⟩
      cases k with
      | zero => exact absurd (BitVec.add_zero _) here
      | succ k => exact ⟨k, Nat.lt_of_succ_lt_succ hk, add_ofNat_succ _ k⟩

/-- R190: everything WRZ leaves for a run that fits. -/
theorem writeZeroRun_of_le {c : Word} (hc : c ≤ s.d.rem) :
    writeZeroRun c s = .done () { s with
      d := { s.d with so := s.d.so + c, rem := s.d.rem - c }, sSpace := (writeZeros c.toNat s).sSpace } := by
  refine writeZeroRun_eq_done.mpr ⟨hc, ?_⟩
  rw [writeZeros_eq, BitVec.ofNat_toNat, BitVec.setWidth_eq]

end Sys2Proof.Machine

/-- Settles O41: a run that fits is the loop, cell by cell; a longer one raises. -/
theorem wrzWritesZeroRun : Obligations.WrzWritesZeroRun := by
  refine ⟨rfl, fun s hf hm => ?_⟩
  rw [exec_wrz, issue_run hf, State.argWord]
  refine ⟨fun fits => ?_, fun exceeds => ?_⟩
  · rw [writeZeroRun_of_le fits]
    exact ⟨_, rfl, rfl, fun k hk inside => writeZeros_read_zero hm.1 inside (.inr ⟨k, hk, rfl⟩),
      fun j => writeZeros_read_other⟩
  · rw [writeZeroRun_eq_raised.mpr ⟨exceeds, rfl, rfl⟩]
    exact ⟨_, rfl, takeFault_faultTaken _ _ _ s⟩

/-- Settles O42: a run that fits is accounted for; a longer one raises. -/
theorem nzrunAccountsForRun : Obligations.NzrunAccountsForRun := by
  refine ⟨rfl, fun s hf => ?_⟩
  rw [exec_nzrun, issue_run hf, State.argWord]
  refine ⟨fun fits => ?_, fun exceeds => ?_⟩
  · rw [accountNonzeroRun_eq_done.mpr ⟨fits, rfl⟩]
    rfl
  · rw [accountNonzeroRun_eq_raised.mpr ⟨exceeds, rfl, rfl⟩]
    exact ⟨_, rfl, takeFault_faultTaken _ _ _ s⟩

end

section
/-! PROOFS. How DECOMPRESS ends: the faults each body of the decompress path can raise (R228), and the counters when its
loop ends without one (R202, R203). -/

open Sys2Proof Sys2Proof.Machine

namespace Sys2Proof.Machine

variable {s t : State} {α β : Type} {x : Run α} {fs gs : List FaultCause}

/-! ### The faults a body can raise -/

/-- R12, R228: the run ends with a result, or raises one of `fs`. -/
def Run.RaisesOnly (x : Run α) (fs : List FaultCause) : Prop := ∀ f info, x = .raised f info → f ∈ fs

theorem Run.RaisesOnly.mono (h : x.RaisesOnly fs) (hle : fs ⊆ gs) : x.RaisesOnly gs :=
  fun f info raised => hle (h f info raised)

theorem Run.raisesOnly_done (r : α) (s : State) : (Run.done r s).RaisesOnly fs := nofun

theorem Run.raisesOnly_raised {f : FaultCause} (info : Word) (h : f ∈ fs) :
    (Run.raised f info : Run α).RaisesOnly fs := by
  rintro _ _ ⟨⟩
  exact h

theorem Run.RaisesOnly.bind {f : α → State → Run β} (h : x.RaisesOnly fs) (hf : ∀ a t, (f a t).RaisesOnly fs) :
    (x.bind f).RaisesOnly fs := by
  intro c info raised
  rcases Run.bind_eq_raised.mp raised with first | ⟨a, t, -, rest⟩
  · exact h c info first
  · exact hf a t c info rest

theorem takeNibble_raisesOnly (s : State) : (takeNibble s).RaisesOnly (canRaise .takenib) := by
  intro f info raised
  obtain ⟨-, -, rfl, -⟩ := takeNibble_eq_raised.mp raised
  exact List.mem_cons_self

theorem vleContinue_raisesOnly (p : Payload) (s : State) : (vleContinue p s).RaisesOnly (canRaise (.vleCont p)) := by
  by_cases more : s.vleUnit.k.val + 1 < 10
  · rw [vleContinue_more more]
    exact Run.raisesOnly_done _ _
  · rw [vleContinue_overlong more]
    exact Run.raisesOnly_raised _ List.mem_cons_self

theorem decodeVleLoop_raisesOnly (fuel : Nat) (s : State) : (decodeVleLoop fuel s).RaisesOnly (canRaise .decvle) := by
  induction fuel generalizing s with
  | zero => exact Run.raisesOnly_raised _ (by decide)
  | succ fuel ih =>
    refine ((takeNibble_raisesOnly s).mono (by decide)).bind fun n t => ?_
    split
    · have overlong : [FaultCause.vleOverlong] ⊆ canRaise .decvle := by decide
      exact ((vleContinue_raisesOnly _ t).mono overlong).bind fun _ u => ih u
    · exact Run.raisesOnly_done _ _

theorem decodeVle_raisesOnly (s : State) : (decodeVle s).RaisesOnly (canRaise .decvle) := decodeVleLoop_raisesOnly _ _

theorem writeZeroRun_raisesOnly (c : Word) (s : State) : (writeZeroRun c s).RaisesOnly (canRaise .wrz) := by
  intro f info raised
  obtain ⟨-, rfl, -⟩ := writeZeroRun_eq_raised.mp raised
  exact List.mem_cons_self

theorem accountNonzeroRun_raisesOnly (c : Word) (s : State) : (accountNonzeroRun c s).RaisesOnly (canRaise .nzrun) := by
  intro f info raised
  obtain ⟨-, rfl, -⟩ := accountNonzeroRun_eq_raised.mp raised
  exact List.mem_cons_self

theorem decodeValue_raisesOnly (s : State) : (decodeValue s).RaisesOnly (canRaise .decval) :=
  (decodeVle_raisesOnly s).bind fun _ _ => Run.raisesOnly_done _ _

theorem decodeValues_raisesOnly (n : Nat) (s : State) : (decodeValues n s).RaisesOnly (canRaise .decval) := by
  induction n generalizing s with
  | zero => exact Run.raisesOnly_done _ _
  | succ n ih => exact (decodeValue_raisesOnly s).bind fun _ t => ih t

theorem decodeGroup_raisesOnly (s : State) : (decodeGroup s).RaisesOnly (canRaise .decompress) := by
  refine ((decodeVle_raisesOnly s).mono (by decide)).bind fun zeros s1 => ?_
  refine ((writeZeroRun_raisesOnly zeros s1).mono (by decide)).bind fun _ s2 => ?_
  refine ((decodeVle_raisesOnly s2).mono (by decide)).bind fun nonzeros s3 => ?_
  refine ((accountNonzeroRun_raisesOnly nonzeros s3).mono (by decide)).bind fun _ s4 => ?_
  exact (decodeValues_raisesOnly nonzeros.toNat s4).mono (by decide)

theorem decodeGroups_raisesOnly (fuel : Nat) (s : State) : (decodeGroups fuel s).RaisesOnly (canRaise .decompress) := by
  induction fuel generalizing s with
  | zero =>
    rw [decodeGroups]
    split
    · exact Run.raisesOnly_raised _ (by decide)
    · exact Run.raisesOnly_done _ _
  | succ fuel ih =>
    rw [decodeGroups]
    split
    · exact (decodeGroup_raisesOnly s).bind fun _ t => ih t
    · exact Run.raisesOnly_done _ _

/-- R228: the three faults of DECOMPRESS. -/
theorem decompressStream_raisesOnly (s : State) : (decompressStream s).RaisesOnly (canRaise .decompress) :=
  decodeGroups_raisesOnly _ _

/-! ### The end without a fault -/

theorem rem_eq_zero (h : ¬ s.d.rem > 0) : s.d.rem = 0 :=
  BitVec.le_zero_iff.mp (BitVec.not_lt.mp h)

/-- R200, R201: the loop ends with no sample unaccounted for. -/
theorem decodeGroups_rem {fuel : Nat} (h : decodeGroups fuel s = .done () t) : t.d.rem = 0 := by
  induction fuel generalizing s with
  | zero =>
    rw [decodeGroups] at h
    split at h <;> cases h
    next none_left => exact rem_eq_zero none_left
  | succ fuel ih =>
    rw [decodeGroups] at h
    split at h
    · obtain ⟨_, u, -, h⟩ := Run.bind_eq_done.mp h
      exact ih h
    next none_left =>
      cases h
      exact rem_eq_zero none_left

/-- R203: every sample is accounted for, and as many are written. -/
theorem decompressStream_counters (h : decompressStream s = .done () t) : t.d.rem = 0 ∧ t.d.so = s.numPixels := by
  have rem := decodeGroups_rem h
  obtain ⟨n, written⟩ := decodeGroups_advances (decompressStart_decoding s).2 h
  refine ⟨rem, BitVec.eq_of_toNat_eq ?_⟩
  have so : t.d.so.toNat = 0 + n := written.so
  have accounted : t.d.rem.toNat + n = s.numPixels.toNat := written.rem
  rw [rem] at accounted
  rw [so]
  exact accounted

theorem exec_decompress_completes (hf : s.faulted = false) (hn : s.numPixels.toNat ≤ 2 ^ 30 - 1)
    (h : decompressStream s = .done () t) : exec .decompress s = .next (complete 0 t) := by
  rw [exec_decompress]
  exact issue_next_of_done hf (streamStartRefusal_none.mpr (numPixels_le_max hn)) (by rw [h, Run.bind_done])

end Sys2Proof.Machine

/-- Settles O46: the loop ends with its counters run out, or raises one of the faults of its units and run lengths. -/
theorem decompressEndsOnEveryInput : Obligations.DecompressEndsOnEveryInput := by
  intro s hf hn
  cases h : decompressStream s with
  | done _ t =>
    obtain ⟨rem, so⟩ := decompressStream_counters h
    exact ⟨_, exec_decompress_completes hf hn h, .inl ⟨rfl, rfl, rem, so⟩⟩
  | raised f info =>
    obtain ⟨t, ht, taken⟩ := exec_decompress_raises hf hn h
    have cause := decompressStream_raisesOnly s f info h
    exact ⟨t, ht, .inr ⟨f, info, fun e => absurd (e ▸ cause) (by decide), taken⟩⟩

end

section
/-! PROOFS. The round trip of streams: the groups of a canonical stream code its samples and end with their cursor (R92,
R159), so DECOMPRESS decodes it (R204, R206), also as COMPRESS has written it (R205). -/

open Sys2Proof Sys2Proof.Machine

namespace Sys2Proof.Machine

variable {s t : State}

/-! ### What the groups of a canonical stream code -/

/-- R159: the unit of a delta codes the sample against the same cursor. -/
theorem sampleFrom_unitOf (prev x : Sample) : sampleFrom prev (unitOf (zigzagInt (x.toInt - prev.toInt))) = x := by
  rw [sampleFrom, unitValue_unitOf, unzigzagInt_zigzagInt, add_sub_cancel, BitVec.ofInt_toInt]

theorem valuesFrom_canonicalValues (prev : Sample) (xs : List Sample) :
    valuesFrom prev (canonicalValues prev xs) = xs := by
  induction xs generalizing prev with
  | nil => rfl
  | cons x xs ih => rw [canonicalValues, valuesFrom_cons, sampleFrom_unitOf, ih]

theorem zerosOf_eq_replicate (xs : List Sample) : zerosOf xs = List.replicate (zerosOf xs).length 0 :=
  List.eq_replicate_of_mem fun _ hx => by simpa using List.mem_takeWhile_imp hx

theorem samples_canonicalGroup (prev : Sample) (xs : List Sample) :
    (canonicalGroup prev xs).samples prev = zerosOf xs ++ nonzerosOf xs := by
  rw [Group.samples, canonicalGroup, unitValue_unitOf, valuesFrom_canonicalValues, ← zerosOf_eq_replicate]

theorem cursor_canonicalGroup (prev : Sample) (xs : List Sample) :
    (canonicalGroup prev xs).cursor prev = (nonzerosOf xs).getLastD prev := by
  rw [Group.cursor, canonicalGroup, valuesFrom_canonicalValues]

/-- R91, R92: legal groups, each of at least one sample, that code the samples `xs` against the cursor `prev`. -/
structure GroupsOf (prev : Sample) (xs : List Sample) (gs : List Group) : Prop where
  legal : ∀ g ∈ gs, g.legal = true
  size_pos : ∀ g ∈ gs, 0 < g.size
  samples : samplesFrom prev gs = xs
  cursor : gs.foldl Group.cursor prev = cursorAfter prev xs

theorem GroupsOf.nil (prev : Sample) : GroupsOf prev [] [] := ⟨nofun, nofun, rfl, rfl⟩

/-- R91: the first group of a canonical stream, then those of the rest. -/
theorem GroupsOf.cons {prev x : Sample} {xs : List Sample} {gs : List Group} (hlen : (x :: xs).length < 2 ^ 30)
    (h : GroupsOf ((nonzerosOf (x :: xs)).getLastD prev) (restOf (x :: xs)) gs) :
    GroupsOf prev (x :: xs) (canonicalGroup prev (x :: xs) :: gs) where
  legal := List.forall_mem_cons.mpr ⟨legal_canonicalGroup prev hlen, h.legal⟩
  size_pos := List.forall_mem_cons.mpr ⟨by rw [size_canonicalGroup]; exact length_group_pos x xs, h.size_pos⟩
  samples := by
    rw [samplesFrom_cons, samples_canonicalGroup, cursor_canonicalGroup, h.samples, List.append_assoc,
      zerosOf_append_nonzerosOf_append_restOf]
  cursor := by rw [List.foldl_cons, cursor_canonicalGroup, h.cursor, cursorAfter_restOf]

/-- R91, R92, R204: a canonical stream is the nibbles of groups that code its samples. -/
theorem exists_groupsOf_streamGroups {fuel : Nat} (prev : Sample) {xs : List Sample} (hfuel : xs.length ≤ fuel)
    (hlen : xs.length < 2 ^ 30) :
    ∃ gs, GroupsOf prev xs gs ∧ streamGroups fuel prev xs = gs.flatMap Group.nibbles := by
  induction fuel generalizing prev xs with
  | zero =>
    obtain rfl := List.length_eq_zero_iff.mp (Nat.le_zero.mp hfuel)
    exact ⟨[], .nil prev, rfl⟩
  | succ fuel ih =>
    cases xs with
    | nil => exact ⟨[], .nil prev, rfl⟩
    | cons x xs =>
      have total := length_group_add_rest (x :: xs)
      have pos := length_group_pos x xs
      obtain ⟨gs, coded, stream⟩ :=
        ih ((nonzerosOf (x :: xs)).getLastD prev) (xs := restOf (x :: xs)) (by omega) (by omega)
      exact ⟨_, .cons hlen coded, by rw [streamGroups_cons, stream, List.flatMap_cons]⟩

/-- R71, R86: the bytes of a stream within IN_LEN are whole words that hold it. -/
theorem inputBegins_of_streamBytes {ns : List Nibble} (h : ∀ i (hi : i < ns.length), s.eNibble i = ns[i])
    (hlen : streamBytes ns.length ≤ s.inLen.toNat) : s.inputBegins ns := by
  refine ⟨?_, h⟩
  rw [streamBytes] at hlen
  omega

/-! ### The decoder context DECOMPRESS ends with -/

/-- R38: DONE is not FAULTED. -/
theorem faulted_of_status_done (h : t.status = 0x01) : t.faulted = false :=
  (faulted_congr (s := complete 0 t) h).trans (faulted_complete 0 t)

theorem decompressStart_sound (h : s.numPixels.toNat ≤ 2 ^ 30 - 1) : (decompressStart s).decoderSound := by
  refine ⟨Nat.zero_le _, Nat.two_pow_pos 32, ?_⟩
  show s.numPixels.toNat < 2 ^ 30
  omega

/-- R44: from any context, DECOMPRESS that completes leaves a sound one. -/
theorem exec_decompress_sound (h : exec .decompress s = .next t) (ht : t.faulted = false) : t.decoderSound := by
  obtain ⟨-, hp, ⟨r, u, hu, rfl⟩ | ⟨f, info, -, rfl⟩⟩ := issue_eq_next.mp (exec_decompress s ▸ h)
  · obtain ⟨_, hu⟩ := Run.exists_of_bind_result_eq_done hu
    have hn : s.numPixels.toNat ≤ 2 ^ 30 - 1 := streamStartRefusal_none.mp hp
    exact (decodeGroups_frame hu).sound (decompressStart_sound hn)
  · rw [faulted_takeFault] at ht
    cases ht

/-- R42, R86: a position after `n` nibbles with at most seven left over is that of the whole words of a stream of
`n` nibbles. -/
theorem four_mul_rp_eq_streamBytes {n : Nat} (hs : t.decoderSound) (h : 8 * t.d.rp.toNat = n + t.d.cnt.toNat) :
    4 * t.d.rp.toNat = streamBytes n := by
  have cnt := hs.1
  rw [streamBytes]
  omega

end Sys2Proof.Machine

/-- Settles O44: a canonical stream is one of those DECOMPRESS decodes, and its groups code its samples. -/
theorem decompressDecodesCanonicalStream : Obligations.DecompressDecodesCanonicalStream := by
  refine ⟨rfl, ?_⟩
  rintro s xs ns hf hm hn hxs rfl hcells hlen
  obtain ⟨gs, coded, stream⟩ := exists_groupsOf_streamGroups 0 (xs := xs) le_rfl (by omega)
  have input := inputBegins_of_streamBytes hcells hlen
  have covered : (gs.map Group.size).sum = s.numPixels.toNat := by
    rw [← length_samplesFrom 0 gs, coded.samples, hxs]
  have last : ∀ g ∈ gs.getLast?, 0 < g.size := fun g hg => coded.size_pos g (List.mem_of_getLast? hg)
  rw [streamOf, stream] at input ⊢
  obtain ⟨t, ht, rest, samples, outside, rem, so, prev, position⟩ :=
    decompressDecodesEveryStream s gs hf hm hn coded.legal covered last input
  exact ⟨t, ht, rest, samples.trans coded.samples, outside, rem, so, prev.trans coded.cursor, position⟩

/-- Settles O45: COMPRESS leaves the canonical stream in E-space, and DECOMPRESS decodes it. -/
theorem compressDecompressRoundTrip : Obligations.CompressDecompressRoundTrip := by
  rintro s T hf hm hn rfl room
  obtain ⟨t, ht, rest, nibbles, -⟩ := compressWritesCanonicalStream.2 s _ hf hm hn rfl room
  have canonical := exec_memoriesCanonical hm ht
  have status : t.status = 0x01 := by rw [rest]
  have numPixels : t.numPixels = s.numPixels := by rw [rest]
  have res : t.res.toNat = streamBytes (streamOf s.samples).length := by
    have := s.outCap.isLt
    rw [rest]
    exact Nat.mod_eq_of_lt (by omega)
  refine ⟨t, ht, status, res, fun inLen sSpace hS hlen => ?_⟩
  have stream : ∀ i (h : i < (streamOf s.samples).length), t.eNibble i = (streamOf s.samples)[i] := fun i h => by
    rw [nibbles i (by rw [streamBytes]; omega), List.getD_eq_getElem _ _ h]
  obtain ⟨u, hu, rest', samples, -, -, -, -, position⟩ :=
    decompressDecodesCanonicalStream.2 { t with inLen := inLen, sSpace := sSpace } s.samples _
      (faulted_of_status_done status) ⟨hS, canonical.2⟩ (by rwa [numPixels])
      (by rw [length_samples, numPixels]) rfl stream (res ▸ hlen)
  have status' : u.status = 0x01 := by rw [rest']
  have sound := exec_decompress_sound hu (faulted_of_status_done status')
  exact ⟨u, hu, status', samples, by rw [rest'], position, by rw [res, four_mul_rp_eq_streamBytes sound position]⟩

end

section
/-! PROOFS. The system operations NOP and CLRF (R211, R212), and the refusals of the others (R214). -/

open Sys2Proof Sys2Proof.Machine

namespace Sys2Proof.Machine

variable {s : State}

/-- R38: the field `state` of a FAULTED block. -/
theorem faulted_iff : s.faulted = true ↔ s.status.extractLsb' 0 2 = 2 := beq_iff_eq

/-- R214 (a): every arm of `exec` but those of NOP and CLRF asks first whether a fault is pending. -/
theorem exec_refused_of_faulted {i : Instr} (h : s.faulted = true) (hnop : i ≠ .nop) (hclrf : i ≠ .clrf) :
    exec i s = .refused .faultPending := by
  cases i with
  | nop => exact absurd rfl hnop
  | clrf => exact absurd rfl hclrf
  | _ => exact if_pos h

/-- R214 (b): a stream is not started above NUMPIXELS_MAX, whatever the operation would do. -/
theorem issue_streamStart_refused (hf : s.faulted = false) (hn : Config.numPixelsMax < s.numPixels) (out : OutputRange)
    (b : State → Run Word) : issue s out (streamStartRefusal s) b = .refused .numPixelsTooLarge := by
  rw [streamStartRefusal_some hn, issue_refused hf]

/-- R214 (c). -/
theorem exec_encval_refused (hf : s.faulted = false) (h : s.numPixels ≤ s.e.si) :
    exec .encval s = .refused .noSampleToEncode := by
  rw [exec_encval, encvalRefusal_some h, issue_refused hf]

/-- R214 (c). -/
theorem exec_decval_refused (hf : s.faulted = false) (h : s.numPixels ≤ s.d.so) :
    exec .decval s = .refused .noSampleToDecode := by
  rw [exec_decval, decvalRefusal_some h, issue_refused hf]

end Sys2Proof.Machine

/-- Settles O10: the arm of NOP. -/
theorem nopChangesNothing : Obligations.NopChangesNothing :=
  ⟨rfl, exec_nop⟩

/-- Settles O11: the arm of CLRF, with the zeroed contexts and IDLE written out. -/
theorem clrfReturnsToIdle : Obligations.ClrfReturnsToIdle :=
  ⟨rfl, exec_clrf⟩

/-- Settles O12: the pending fault is asked for first, then the precondition of the operation. -/
theorem refusedOperations : Obligations.RefusedOperations := by
  intro s
  refine ⟨fun pending _ i _ hnop hclrf => exec_refused_of_faulted (faulted_iff.mpr pending) hnop hclrf,
    fun notPending => ?_⟩
  have hf : s.faulted = false := Bool.eq_false_iff.mpr (faulted_iff.not.mpr notPending)
  refine ⟨fun above => ?_, exec_encval_refused hf, exec_decval_refused hf⟩
  have refused := issue_streamStart_refused hf above
  rw [exec_encinit, exec_decinit, exec_compress, exec_decompress]
  exact ⟨refused _ _, refused _ _, refused _ _, refused _ _⟩

end

section
/-! PROOFS. The faults of the instructions: each raises only those listed for it (R228), and once taken a fault stays
until CLRF or reset (R237, R238). -/

open Sys2Proof Sys2Proof.Machine

namespace Sys2Proof.Machine

variable {s t : State} {α β : Type} {fs : List FaultCause}

/-! ### The faults of the compress path -/

/-- A body that delivers a result from the state another ends in raises what that one raises. -/
theorem Run.RaisesOnly.result {x : Run α} (h : x.RaisesOnly fs) (g : α → State → β) :
    (x.bind fun a t => .done (g a t) t).RaisesOnly fs :=
  h.bind fun _ _ => Run.raisesOnly_done _ _

theorem writeWord_raisesOnly (w : Word) (s : State) : (writeWord w s).RaisesOnly [.outputBufferOverflow] := by
  intro f info raised
  obtain ⟨-, rfl, -⟩ := writeWord_eq_raised.mp raised
  exact List.mem_cons_self

theorem emitNibble_raisesOnly (n : Nibble) (s : State) : (emitNibble n s).RaisesOnly (canRaise .emitnib) := by
  intro f info raised
  obtain ⟨-, -, rfl, -⟩ := emitNibble_eq_raised.mp raised
  exact List.mem_cons_self

theorem flushPacker_raisesOnly (s : State) : (flushPacker s).RaisesOnly (canRaise .flush) := by
  by_cases pending : s.e.cnt = 0
  · rw [flushPacker_empty pending]
    exact Run.raisesOnly_done _ _
  · rw [flushPacker, if_pos pending]
    exact (writeWord_raisesOnly _ s).bind fun _ _ => Run.raisesOnly_done _ _

theorem encodeVleLoop_raisesOnly (fuel : Nat) (v : Word) (s : State) :
    (encodeVleLoop fuel v s).RaisesOnly (canRaise .encvle) := by
  induction fuel generalizing v s with
  | zero => exact Run.raisesOnly_done _ _
  | succ fuel ih =>
    refine (emitNibble_raisesOnly (vleNibble v) s).bind fun _ t => ?_
    split
    · exact Run.raisesOnly_done _ _
    · exact ih _ t

theorem encodeVle_raisesOnly (v : Word) (s : State) : (encodeVle v s).RaisesOnly (canRaise .encvle) :=
  encodeVleLoop_raisesOnly _ v s

/-- R170: the scanner raises nothing. -/
theorem scanZeros_raisesOnly (s : State) : (scanZeros s).RaisesOnly (canRaise .scanz) := by
  obtain ⟨k, scanned⟩ := scanZerosLoop_advances (s.numPixels - s.e.si).toNat 0 s
  rw [scanZeros, scanned]
  exact Run.raisesOnly_done _ _

theorem encodeValue_raisesOnly (s : State) : (encodeValue s).RaisesOnly (canRaise .encval) :=
  (encodeVle_raisesOnly _ _).bind fun _ _ => Run.raisesOnly_done _ _

theorem encodeValues_raisesOnly (n : Nat) (s : State) : (encodeValues n s).RaisesOnly (canRaise .encval) := by
  induction n generalizing s with
  | zero => exact Run.raisesOnly_done _ _
  | succ n ih => exact (encodeValue_raisesOnly s).bind fun _ t => ih t

theorem encodeGroup_raisesOnly (s : State) : (encodeGroup s).RaisesOnly (canRaise .compress) := by
  refine ((scanZeros_raisesOnly s).mono (List.nil_subset _)).bind fun zeros s1 => ?_
  refine (encodeVle_raisesOnly zeros s1).bind fun _ s2 => ?_
  exact (encodeVle_raisesOnly _ s2).bind fun _ s3 => encodeValues_raisesOnly _ s3

theorem encodeGroups_raisesOnly (fuel : Nat) (s : State) : (encodeGroups fuel s).RaisesOnly (canRaise .compress) := by
  induction fuel generalizing s with
  | zero => exact Run.raisesOnly_done _ _
  | succ fuel ih =>
    rw [encodeGroups]
    split
    · exact (encodeGroup_raisesOnly s).bind fun _ t => ih t
    · exact Run.raisesOnly_done _ _

/-- R228: the one fault of COMPRESS. -/
theorem compressStream_raisesOnly (s : State) : (compressStream s).RaisesOnly (canRaise .compress) :=
  (encodeGroups_raisesOnly _ _).bind fun _ t => (flushPacker_raisesOnly t).result _

/-! ### The fault an instruction takes -/

/-- R210, R234: an issued operation that ends FAULTED has taken a fault its body can raise. -/
theorem exec_takes_fault_of_issue {i : Instr} {p : Option Refusal} {b : State → Run Word}
    (h : exec i s = .next t) (ht : t.faulted = true) (hi : exec i s = issue s (outputRange i) p b)
    (raises : (b s).RaisesOnly (canRaise i)) : ∃ f info, f ∈ canRaise i ∧ t = takeFault (outputRange i) f info s := by
  obtain ⟨-, -, ⟨r, u, -, rfl⟩ | ⟨f, info, raised, rfl⟩⟩ := issue_eq_next.mp (hi ▸ h)
  · rw [faulted_complete] at ht
    cases ht
  · exact ⟨f, info, raises f info raised, rfl⟩

/-- R81, R134: the form `VLE.CONT` that ends FAULTED has taken the fault of its pass. -/
theorem exec_vleCont_takes_fault {p : Payload} (hf : s.faulted = false) (h : exec (.vleCont p) s = .next t)
    (ht : t.faulted = true) : ∃ f info, f ∈ canRaise (.vleCont p) ∧ t = takeFault .nowhere f info s := by
  cases run : vleContinue p s with
  | done _ u =>
    obtain rfl := Host.Outcome.next.inj ((exec_vleCont_done hf run).symm.trans h)
    obtain ⟨_, rfl⟩ := vleContinue_writes run
    cases hf.symm.trans ht
  | raised f info =>
    obtain rfl := Host.Outcome.next.inj ((exec_vleCont_raised hf run).symm.trans h)
    exact ⟨f, info, vleContinue_raisesOnly p s f info run, rfl⟩

/-- R228, R234: an instruction that ends FAULTED, but was not issued so, has taken a fault listed for it. -/
theorem exec_takes_listed_fault {i : Instr} (hf : s.faulted = false) (h : exec i s = .next t) (ht : t.faulted = true) :
    ∃ f info, f ∈ canRaise i ∧ t = takeFault (outputRange i) f info s := by
  cases i with
  | nop => cases h; cases hf.symm.trans ht
  | clrf => cases h; rw [faulted_leaveFault] at ht; cases ht
  | encinit => exact exec_takes_fault_of_issue h ht (exec_encinit s) (Run.raisesOnly_done _ _)
  | decinit => exact exec_takes_fault_of_issue h ht (exec_decinit s) (Run.raisesOnly_done _ _)
  | zzenc => exact exec_takes_fault_of_issue h ht (exec_zzenc s) (Run.raisesOnly_done _ _)
  | zzdec => exact exec_takes_fault_of_issue h ht (exec_zzdec s) (Run.raisesOnly_done _ _)
  | scannz => exact exec_takes_fault_of_issue h ht (exec_scannz s) (Run.raisesOnly_done _ _)
  | vleEnd p => exact exec_takes_fault_of_issue h ht (exec_vleEnd s p) (Run.raisesOnly_done _ _)
  | scanz => exact exec_takes_fault_of_issue h ht (exec_scanz s) (scanZeros_raisesOnly s)
  | emitnib => exact exec_takes_fault_of_issue h ht (exec_emitnib s) ((emitNibble_raisesOnly _ s).result _)
  | flush => exact exec_takes_fault_of_issue h ht (exec_flush s) ((flushPacker_raisesOnly s).result _)
  | encvle => exact exec_takes_fault_of_issue h ht (exec_encvle s) ((encodeVle_raisesOnly _ s).result _)
  | encval => exact exec_takes_fault_of_issue h ht (exec_encval s) (encodeValue_raisesOnly s)
  | compress => exact exec_takes_fault_of_issue h ht (exec_compress s) (compressStream_raisesOnly s)
  | takenib => exact exec_takes_fault_of_issue h ht (exec_takenib s) ((takeNibble_raisesOnly s).result _)
  | decvle => exact exec_takes_fault_of_issue h ht (exec_decvle s) (decodeVle_raisesOnly s)
  | wrz => exact exec_takes_fault_of_issue h ht (exec_wrz s) ((writeZeroRun_raisesOnly _ s).result _)
  | nzrun => exact exec_takes_fault_of_issue h ht (exec_nzrun s) ((accountNonzeroRun_raisesOnly _ s).result _)
  | decval => exact exec_takes_fault_of_issue h ht (exec_decval s) (decodeValue_raisesOnly s)
  | decompress => exact exec_takes_fault_of_issue h ht (exec_decompress s) ((decompressStream_raisesOnly s).result _)
  | vleCont p => exact exec_vleCont_takes_fault hf h ht

/-! ### FAULTED -/

/-- R211, R212, R214 (a): NOP and CLRF alone answer a next state in FAULTED. -/
theorem exec_of_faulted {i : Instr} (hf : s.faulted = true) (h : exec i s = .next t) : t = s ∨ i = .clrf := by
  by_cases hclrf : i = .clrf
  · exact .inr hclrf
  by_cases hnop : i = .nop
  · subst hnop
    cases h
    exact .inl rfl
  · rw [exec_refused_of_faulted hf hnop hclrf] at h
    cases h

/-- R97, R212: the host action of CLRF. -/
theorem ofCode_of_decode_clrf {x : Code} (h : decode x = .ok .clrf) : HostAction.ofCode x = .writeRegister 0 0x03 := by
  rw [← encodeOfDecode x .clrf h]
  rfl

/-- R237, R238: in FAULTED, a host action other than CLRF and reset leaves STATUS and RES alone. -/
theorem perform_of_faulted {a : HostAction} (hf : s.faulted = true) (h : perform a s = .next t) :
    (t.status = s.status ∧ t.res = s.res) ∨ a = .writeRegister 0 0x03 ∨ a = .reset := by
  rcases perform_eq_next h with ⟨x, i, rfl, hdec, hi⟩ | ⟨n, v, -, rfl⟩ | ⟨j, v, -, rfl⟩ | ⟨o, v, -, rfl⟩ | ⟨rfl, -⟩
  · rcases exec_of_faulted hf hi with rfl | rfl
    · exact .inl ⟨rfl, rfl⟩
    · exact .inr (.inl (ofCode_of_decode_clrf hdec))
  · rw [storeRegister_eq]
    exact .inl ⟨rfl, rfl⟩
  · exact .inl ⟨rfl, rfl⟩
  · exact .inl ⟨rfl, rfl⟩
  · exact .inr (.inr rfl)

end Sys2Proof.Machine

/-- Settles O48: an operation's body, or the pass of a nibble form, raises only the faults listed for it (those of the
nibble forms are the model's choice, log entry 7), and the fault entry leaves what a fault may. -/
theorem operationsRaiseOnlyTheirFaults : Obligations.OperationsRaiseOnlyTheirFaults := by
  intro i s t hf h ht
  obtain ⟨f, info, listed, rfl⟩ := exec_takes_listed_fault hf h ht
  exact ⟨f, info, listed, takeFault_faultTaken _ _ _ s⟩

/-- Settles O50: of the instructions only NOP and CLRF are not refused in FAULTED, and of the host's other actions only
reset writes STATUS or RES. -/
theorem faultIsSticky : Obligations.FaultIsSticky := by
  intro s t hf h
  rcases step_eq_next.mp h with ⟨-, rfl⟩ | ⟨a, rest, hhost, performed⟩
  · exact .inl ⟨rfl, rfl⟩
  · rw [hhost, List.head?_cons, Option.some_inj, Option.some_inj]
    exact perform_of_faulted (s := s.afterFetch) hf performed

end
